-- ==== Sys2Proof/Word.lean ====
section
/-!
DEFINITION. The bit-vector types of the unit: the byte of a stream (rule R10), the 32-bit
datapath and operand word (rules R7 `VALUE_BITS`, R15) and the 4-bit nibble of packet-type codes
and header flags (rule R7 `PT_BITS`, `FLAGS_BITS`).
-/
namespace Sys2Proof

/-- One byte of a stream, 0x00 to 0xFF (rule R10). -/
abbrev Byte := BitVec 8

/-- A 32-bit operand, datapath or result register (rule R15). -/
abbrev Word := BitVec 32

/-- A 4-bit packet-type code or flags value (rules R27, R28). -/
abbrev Nibble := BitVec 4

end Sys2Proof
end

