-- ==== Sys2Proof/Config.lean ====
section
/-!
DEFINITION. The parameters of 00_scope.md. The fixed ones (rule R7) are constants. The open ones
(rule R8) are arguments. The type `TransportError` is the argument `E` of `Machine.State`, of every
operation and meaning and of `Machine.stepOf`; `NUM_UNITS` is an argument of `Machine.System`, which
holds it to be at least 1; `chan_answer`, `read_fail_consumed`, `write_fail_prefix` and
`WRITE_CHUNKING` are draws that State holds as plain data, so that every statement ranges over all
of them.
-/
namespace Sys2Proof.Config

/-- `VBI_MAX`, the largest VBI value, 2^28 - 1 (rule R7). -/
def vbiMax : Nat := 268435455

/-- `VBI_MAX_BYTES`, the most bytes in a VBI encoding (rule R7). -/
def vbiMaxBytes : Nat := 4

/-- `VBI_DIGIT_BITS`, bits per base-128 digit (rule R7). -/
def vbiDigitBits : Nat := 7

/-- 128^3, the multiplier of the fourth digit (rules R20, R81). -/
def topMult : Word := 2097152

/-- The error type of the one machine that `Sys2Proof.core` is: the argument `E` where none is written.
The host takes a machine and not a machine for every `E`. DESIGN CHOICE (log 2): as many values as
there are numbers, told apart by a token that nothing in the model computes with.
`Obligations.TransportErrorsAreNeverInspected` and `Obligations.TransportErrorTypeDoesNotMatter`
carry what this machine does over to every other `E`. -/
structure TransportError where
  /-- which error value of the channel this is -/
  token : Nat
  deriving DecidableEq, Repr

end Sys2Proof.Config
end

