-- ==== Sys2Proof/Syntax.lean ====
section
/-!
DEFINITION. The command tuple of rule R66 and the twelve commands of rule R67, each with the
operands that rule R68 says it reads.
-/
namespace Sys2Proof

/-- A command `(W, A, B, T)`, all four presented at once (rule R66). -/
structure Command where
  /-- W, the command word -/
  w : Byte
  /-- A, operand A -/
  a : Word
  /-- B, operand B -/
  b : Byte
  /-- T, operand T -/
  t : Nibble
  deriving DecidableEq, Repr

/-- The twelve commands, one constructor per row of the opcode table (rule R67). A constructor
carries the operands its command reads and no other (rule R68). -/
inductive Instr where
  /-- RDU8 (rule R73) -/
  | rdu8
  /-- RDU16 (rule R74) -/
  | rdu16
  /-- RDU32 (rule R75) -/
  | rdu32
  /-- RDVBI (rule R81) -/
  | rdvbi
  /-- RDHDR (rule R93) -/
  | rdhdr
  /-- PTFROM a (rule R95) -/
  | ptfrom (a : Word)
  /-- WRU8 a (rule R76) -/
  | wru8 (a : Word)
  /-- WRU16 a (rule R77) -/
  | wru16 (a : Word)
  /-- WRU32 a (rule R78) -/
  | wru32 (a : Word)
  /-- WRVBI a (rule R84) -/
  | wrvbi (a : Word)
  /-- WRHDR t, b, a (rule R94) -/
  | wrhdr (t : Nibble) (b : Byte) (a : Word)
  /-- PTTO t (rule R96) -/
  | ptto (t : Nibble)
  deriving DecidableEq, Repr

end Sys2Proof
end

