-- ==== Sys2Proof/WellFormed.lean ====
section
/-!
DEFINITION. The operand width checks of rule R68. An instruction that fails one is still a
command the caller can present: it ends with IllegalCommand (rule R69), and its meaning says so.
-/
namespace Sys2Proof

/-- No bit of `a` at position `n` or above is set. -/
def fits (n : Nat) (a : Word) : Bool := decide (a.toNat < 2 ^ n)

/-- The width check of rule R68, which rule R69 makes part of legality. WRVBI and WRHDR have none:
their bound on A is the encoder's domain (rule R85), not a width. -/
def Instr.wellFormed : Instr → Bool
  | .wru8 a => fits 8 a
  | .wru16 a => fits 16 a
  | .ptfrom a => fits 8 a
  | .rdu8 | .rdu16 | .rdu32 | .rdvbi | .rdhdr => true
  | .wru32 _ | .wrvbi _ | .wrhdr _ _ _ | .ptto _ => true

end Sys2Proof
end

