-- ==== Sys2Proof/Decode.lean ====
section
/-!
DEFINITION. The decoder of rules R66, R67 and R70, total on every command tuple and rejecting
reserved words by name; after it the encoder, written from the same table and rule R71.
-/
namespace Sys2Proof

/-- What the decoder reads from a command tuple. -/
inductive Decoded where
  /-- one of the twelve commands (rule R67) -/
  | instr (i : Instr)
  /-- a reserved command word (rule R70) -/
  | reserved (w : Byte)
  deriving DecidableEq, Repr

/-- Z, bits 7:4 of W (rule R66). -/
def wordZ (w : Byte) : Nibble := w.extractLsb' 4 4

/-- D, bit 3 of W: set for the commands towards the channel or bits (rule R66). -/
def wordD (w : Byte) : Bool := w.getLsbD 3

/-- K, bits 2:0 of W (rule R66). -/
def wordK (w : Byte) : BitVec 3 := w.extractLsb' 0 3

/-- The twelve command names, what W alone selects (rule R67). -/
inductive Opcode where
  | rdu8
  | rdu16
  | rdu32
  | rdvbi
  | rdhdr
  | ptfrom
  | wru8
  | wru16
  | wru32
  | wrvbi
  | wrhdr
  | ptto
  deriving DecidableEq, Repr

/-- What W selects: Z must be 0000, then D and K select the command (rules R66, R67); every other
word is reserved, `none` (rule R70). -/
def decodeWord (w : Byte) : Option Opcode :=
  if wordZ w ≠ 0 then none
  else
    match wordD w, (wordK w).toNat with
    | false, 1 => some .rdu8
    | false, 2 => some .rdu16
    | false, 3 => some .rdu32
    | false, 4 => some .rdvbi
    | false, 5 => some .rdhdr
    | false, 6 => some .ptfrom
    | true, 1 => some .wru8
    | true, 2 => some .wru16
    | true, 3 => some .wru32
    | true, 4 => some .wrvbi
    | true, 5 => some .wrhdr
    | true, 6 => some .ptto
    | _, _ => none

/-- The command with the operands it reads; the others are dropped (rule R68). -/
def Opcode.withOperands (o : Opcode) (c : Command) : Instr :=
  match o with
  | .rdu8 => .rdu8
  | .rdu16 => .rdu16
  | .rdu32 => .rdu32
  | .rdvbi => .rdvbi
  | .rdhdr => .rdhdr
  | .ptfrom => .ptfrom c.a
  | .wru8 => .wru8 c.a
  | .wru16 => .wru16 c.a
  | .wru32 => .wru32 c.a
  | .wrvbi => .wrvbi c.a
  | .wrhdr => .wrhdr c.t c.b c.a
  | .ptto => .ptto c.t

/-- The decoder of a command tuple (rules R66 to R68, R70, R72). -/
def decode (c : Command) : Decoded :=
  match decodeWord c.w with
  | some o => .instr (o.withOperands c)
  | none => .reserved c.w

/-- The command word of each command (the table of rule R67). -/
def Instr.word : Instr → Byte
  | .rdu8 => 0x01
  | .rdu16 => 0x02
  | .rdu32 => 0x03
  | .rdvbi => 0x04
  | .rdhdr => 0x05
  | .ptfrom _ => 0x06
  | .wru8 _ => 0x09
  | .wru16 _ => 0x0A
  | .wru32 _ => 0x0B
  | .wrvbi _ => 0x0C
  | .wrhdr _ _ _ => 0x0D
  | .ptto _ => 0x0E

/-- The command tuple of an instruction, unused operands 0 (rule R71). -/
def encode (i : Instr) : Command :=
  match i with
  | .rdu8 | .rdu16 | .rdu32 | .rdvbi | .rdhdr => ⟨i.word, 0, 0, 0⟩
  | .ptfrom a | .wru8 a | .wru16 a | .wru32 a | .wrvbi a => ⟨i.word, a, 0, 0⟩
  | .wrhdr t b a => ⟨i.word, a, b, t⟩
  | .ptto t => ⟨i.word, 0, 0, t⟩

/-- `legal(W, A)`, the pseudocode of rule R69 written out. -/
def legal (c : Command) : Bool :=
  decide (c.w.toNat ∈ [0x01, 0x02, 0x03, 0x04, 0x05, 0x06, 0x09, 0x0A, 0x0B, 0x0C, 0x0D, 0x0E])
    && (c.w != 0x09 || c.a.extractLsb' 8 24 == 0)
    && (c.w != 0x0A || c.a.extractLsb' 16 16 == 0)
    && (c.w != 0x06 || c.a.extractLsb' 8 24 == 0)

/-- A command tuple as one number: W in bits 7:0, as the opcode table numbers it, then A in 39:8,
B in 47:40 and T in 51:48. DESIGN CHOICE (log 3): the spec lays the operands out on ports, not in
a word; only bits 7:0 come from it. -/
def Command.toBits (c : Command) : Nat :=
  (c.t ++ c.b ++ c.a ++ c.w : BitVec 52).toNat

/-- The tuple whose number is `n`, the converse of `Command.toBits`. -/
def Command.ofBits (n : Nat) : Command :=
  ⟨BitVec.ofNat 8 n, BitVec.ofNat 32 (n >>> 8), BitVec.ofNat 8 (n >>> 40),
    BitVec.ofNat 4 (n >>> 48)⟩

/-- The command whose low `nbits` bits are those of `w` and whose other bits are 0. -/
def tableCommand (nbits w : Nat) : Command := Command.ofBits (w % 2 ^ nbits)

/-- What the decoder reads from an opcode-table word, `none` where it rejects the word. -/
def decodeTableWord (nbits w : Nat) : Option Instr :=
  match decode (tableCommand nbits w) with
  | .instr i => some i
  | .reserved _ => none

end Sys2Proof
end

