-- ==== Sys2Proof/Machine/State.lean ====
section
/-!
DEFINITION. The state of one unit (rule R15), the channel it is bound to (rules R34, R35) and the
caller that drives it (rule R14), as plain data; the reasons a step can stop; the state after reset
(rules R31, R121).

Three of the agents act through lists the step reads: the channel's answers and the caller's acts
are inputs, so every statement that ranges over all states ranges over every behaviour of channel
and caller.

`E` is the parameter `TransportError` of rule R8, the type of the channel's own error values. Where
it is not written it is `Config.TransportError`, the one that the host's machine has (log 2).
-/
namespace Sys2Proof.Machine

open Sys2Proof.Config (TransportError)

/-- `UST` (rule R18). -/
inductive Ust where
  /-- no command in progress -/
  | idle
  /-- a command accepted and not yet ended -/
  | busy
  deriving DecidableEq, Repr

/-- The widths of the fixed-width fields (rule R7), which are also the sizes of `ChanRead` (rule R11). -/
inductive Width where
  /-- 8 bits, 1 byte -/
  | u8
  /-- 16 bits, 2 bytes -/
  | u16
  /-- 32 bits, 4 bytes -/
  | u32
  deriving DecidableEq, Repr

/-- A channel request, what `PEND` holds (rule R23). -/
inductive Request where
  /-- `ChanRead(n)`, n the width in bytes -/
  | read (w : Width)
  /-- `ChanWrite(bs)` -/
  | write (bs : List Byte)
  deriving DecidableEq, Repr

/-- How far the running command has got, the phase enumeration of rule R17. -/
inductive Place where
  /-- at the first line of its pseudocode -/
  | start
  /-- waiting on a request of a fixed-width field; for a write, `rest` are the field's bytes that
  no request has carried yet -/
  | field (rest : List Byte)
  /-- waiting on the request of a header's control byte -/
  | control
  /-- waiting on a request of a VBI -/
  | digit
  deriving DecidableEq, Repr

/-- The datapath registers (rules R20, R21, R22). -/
structure Datapath where
  /-- `VD_VALUE` -/
  vdValue : Word
  /-- `VD_MULT` -/
  vdMult : Word
  /-- `VE_X` -/
  veX : Word
  /-- `HDR.pt` -/
  hdrPt : Nibble
  /-- `HDR.flags` -/
  hdrFlags : Nibble
  deriving DecidableEq, Repr

/-- The response registers (rule R24). `none` is the spec's own state 'unwritten' (rules R24, R31,
R32), which a register enters at every acceptance; it does not stand in for a missing reset value
(log 13). -/
structure Response (E : Type) where
  /-- `RSP_VALID` -/
  valid : Bool
  /-- `RSP_STATUS` -/
  status : Option (BitVec 3)
  /-- `RSP_VALUE` -/
  value : Option Word
  /-- `RSP_PT` -/
  pt : Option Nibble
  /-- `RSP_FLAGS` -/
  flags : Option Nibble
  /-- `RSP_LEN` -/
  len : Option Word
  /-- `RSP_ERR`, of type `TransportError` -/
  err : Option E
  deriving DecidableEq, Repr

/-- What the channel does about one read request: one draw of the oracle `chan_answer` (rule R35)
together with `read_fail_consumed` (rule R46). -/
inductive ReadVerdict (E : Type := TransportError) where
  /-- `Ok(bs)` with the next bytes of the input stream, as soon as the stream has them -/
  | serve
  /-- `Eof`, the channel having taken `taken` bytes (at most the request's) -/
  | eof (taken : Nat)
  /-- `Err(e)`, the channel having taken `taken` bytes (at most the request's) -/
  | err (e : E) (taken : Nat)
  /-- no answer during this step -/
  | wait
  deriving DecidableEq, Repr

/-- What the channel does about one write request: one draw of the oracle `chan_answer` (rule R35)
together with `write_fail_prefix` (rule R46). -/
inductive WriteVerdict (E : Type := TransportError) where
  /-- `Ok`, all bytes on the output stream -/
  | accept
  /-- `Err(e)`, the first `kept` bytes (at most the request's) having reached the output stream -/
  | err (e : E) (kept : Nat)
  /-- no answer during this step -/
  | wait
  deriving DecidableEq, Repr

/-- The channel as the unit sees it: two byte streams (rule R34) and the answers to come (rule R35).
An empty list of answers is a channel that stays silent (rule R130). -/
structure Channel (E : Type) where
  /-- which channel the unit is bound to; `none`, no channel is bound (rule R124) -/
  id : Option Nat
  /-- the input stream from its current position on -/
  input : List Byte
  /-- the answers to the read requests to come, the next one first -/
  reads : List (ReadVerdict E)
  /-- the output stream, the first byte written first -/
  output : List Byte
  /-- the answers to the write requests to come, the next one first -/
  writes : List (WriteVerdict E)
  deriving DecidableEq, Repr

/-- The registers the caller can read (rule R16). -/
inductive RspReg where
  | valid
  | status
  | value
  | pt
  | flags
  | len
  | err
  deriving DecidableEq, Repr

/-- What a read of a response register gave the caller. -/
inductive Reading (E : Type := TransportError) where
  | valid (v : Bool)
  | status (code : BitVec 3)
  | value (v : Word)
  | pt (t : Nibble)
  | flags (f : Nibble)
  | len (v : Word)
  | err (e : E)
  deriving DecidableEq, Repr

/-- One act of the caller or its platform, or a turn it lets pass. -/
inductive CallerAct where
  /-- present a command (rule R49) -/
  | present (c : Command)
  /-- read a response register (rules R125, R126) -/
  | read (r : RspReg)
  /-- assert reset (rule R121); `leftover` is what the unspecified datapath registers hold
  afterwards and `progress` how many bytes the channel took or kept of an abandoned request
  (rule R122), both free -/
  | reset (leftover : Datapath) (progress : Nat)
  /-- do nothing: the turn is the unit's -/
  | pass
  deriving DecidableEq, Repr

/-- The outcomes that rules R106 and R107 keep claims away from. A meaning ends the command as rule
R105 says and leaves the mark; the step, which sees it, refuses the one and faults on the other, as
those rules ask of a model (log 5). -/
inductive Mark where
  /-- IllegalCommand (rule R106), by a reserved word or an operand out of width -/
  | illegalCommand
  /-- EncDomain (rule R107), by WRVBI or WRHDR -/
  | encDomain
  deriving DecidableEq, Repr

/-- Why a step stops with a fault. -/
inductive Fault where
  /-- `UnwrittenRead` (rules R32, R125, R126): raised by the caller's read of a response register
  that holds no value or while `RSP_VALID` is 0. Safe: the spec gives such a read no value. -/
  | unwrittenRead (r : RspReg)
  /-- `UnwrittenRead` of a command latch (rule R32): raised by a step of a BUSY unit whose `CMD` is
  unwritten. Safe, and no run reaches it. -/
  | unwrittenLatch
  /-- a read of `RSP_STATUS` that finds code 5, 6 or 7 (93 I20): raised by the caller's read. Safe,
  and no run reaches it. -/
  | reservedStatus
  /-- the place in the pseudocode and `PEND` do not fit the latched command: raised by any command
  that waits on the channel. DESIGN CHOICE (log 9), safe, and no run reaches it. -/
  | lostPlace
  /-- EncDomain as rule R107 has a model record it: raised by the step (`stopAtMarks`), never by a
  meaning, which takes the outcome as rule R105 says. Safe (log 5). -/
  | encDomain
  deriving DecidableEq, Repr

/-- Why a step has no meaning. -/
inductive Refusal where
  /-- an instruction without a meaning, by its mnemonic: raised by exec's arms; safe -/
  | notModelled (mnemonic : String)
  /-- IllegalCommand as rule R106 has a model refuse it: raised by the step (`stopAtMarks`), never by
  a meaning, which takes the outcome as rule R105 says. Safe (log 5). -/
  | illegalCommand
  /-- a command presented to a unit with no bound channel (rule R124, 93 I19): raised by acceptance; safe -/
  | noChannel
  /-- a configuration in which two units share a channel (rule R127, 93 I13): raised by a step of
  the system of units; safe -/
  | sharedChannel
  /-- a turn given to a unit that the system does not have: raised by a step of the system of units; safe -/
  | noSuchUnit
  deriving DecidableEq, Repr

/-- One unit with its channel and its caller. -/
structure State (E : Type := TransportError) where
  /-- `UST` (rule R18) -/
  ust : Ust
  /-- `CMD.w`, `CMD.a`, `CMD.b`, `CMD.t` (rule R19), written together at acceptance; `none` is the
  spec's 'unwritten' (rule R31) -/
  cmd : Option Command
  /-- `VD_VALUE`, `VD_MULT`, `VE_X`, `HDR.pt`, `HDR.flags` (rules R20 to R22) -/
  dp : Datapath
  /-- `PEND` (rule R23) -/
  pend : Option Request
  /-- the place in the running command's pseudocode (rule R17) -/
  place : Place
  /-- the response registers (rule R24) -/
  rsp : Response E
  /-- the channel (rules R34, R35) -/
  chan : Channel E
  /-- the draws of `WRITE_CHUNKING` (rule R45): how many bytes the next write requests carry, the
  next one first; when there is none, the reference chunking. The model's own field (log 6). -/
  chunks : List Nat
  /-- the commands the caller presents and the unit has not accepted, the oldest first (rule R49) -/
  port : List Command
  /-- what the caller does in the steps to come; when there is nothing, every turn is the unit's.
  The model's own field (log 7). -/
  agenda : List CallerAct
  /-- what the caller's last register read gave. The model's own field (log 7). -/
  readout : Option (Reading E)
  /-- the outcomes of rules R106 and R107 so far, the oldest first. The model's own field (log 5). -/
  marks : List Mark
  deriving DecidableEq, Repr

/-- The outcome of a step or a meaning. -/
abbrev Result (E : Type := TransportError) := Host.Outcome (State E) Fault Refusal

/-- The state right after reset (rules R31, R121, R123), for any error type. The datapath registers,
which the spec leaves unspecified, hold 0 (log 4); the channel is bound, as rule R124 has it before
reset is released, and silent (log 12); the caller has nothing to do. -/
def State.initial (E : Type) : State E where
  ust := .idle
  cmd := none
  dp := ⟨0, 0, 0, 0, 0⟩
  pend := none
  place := .start
  rsp := ⟨false, none, none, none, none, none, none⟩
  chan := ⟨some 0, [], [], [], []⟩
  chunks := []
  port := []
  agenda := []
  readout := none
  marks := []

/-- The state of the host's machine right after reset. -/
def State.reset : State := State.initial Config.TransportError

end Sys2Proof.Machine
end

