-- ==== Sys2Proof/Machine/Flags.lean ====
section
/-!
DEFINITION. The status the unit reports (rules R103, R104) and the flags nibble of the control byte
(rule R61). The unit has no condition codes (rule R25): `RSP_STATUS` is its only status, and the
header's flags are data.
-/
namespace Sys2Proof.Machine

open Sys2Proof.Config (TransportError)

variable {E : Type}

/-- How a command ends (rule R103). -/
inductive Ending (E : Type := TransportError) where
  /-- success -/
  | ok
  /-- `MalformedPacket` -/
  | malformed
  /-- `Transport(e)` -/
  | transport (e : E)
  /-- `IllegalCommand`, the spec's own -/
  | illegalCommand
  /-- `EncDomain`, the spec's own -/
  | encDomain
  deriving DecidableEq, Repr

/-- The code of an ending in `RSP_STATUS` (rule R104). -/
def Ending.code : Ending E → BitVec 3
  | .ok => 0
  | .malformed => 1
  | .transport _ => 2
  | .illegalCommand => 3
  | .encDomain => 4

/-- What the ending leaves in `RSP_ERR`, which no command has written before its end: e after
`Transport(e)`, and otherwise what stands there (rules R104, R105). -/
def Ending.errAfter (e : Ending E) (before : Option E) : Option E :=
  match e with
  | .transport x => some x
  | .ok | .malformed | .illegalCommand | .encDomain => before

/-- The mark an ending leaves (rules R106, R107; log 5). -/
def Ending.marks : Ending E → List Mark
  | .illegalCommand => [.illegalCommand]
  | .encDomain => [.encDomain]
  | .ok | .malformed | .transport _ => []

/-- F, bits 3:0 of a control byte or of the flags carrier B (rules R61, R68). -/
def flagsNibble (b : Byte) : Nibble := b.extractLsb' 0 4

/-- The control byte `{T, F}` of a packet-type code and a flags carrier, whose upper nibble the
mask discards (rules R61, R94). -/
def controlByte (t : Nibble) (b : Byte) : Byte := t ++ flagsNibble b

end Sys2Proof.Machine
end

