-- ==== Sys2Proof/Machine/Operands.lean ====
section
/-!
DEFINITION. The wire formats as functions of values: fixed-width fields (rules R54, R55), VBI bytes
(rules R56, R57) and packet types (rules R27, R60).
-/
namespace Sys2Proof.Machine

/-- The bytes of a field of this width (rule R7). -/
def Width.bytes : Width → Nat
  | .u8 => 1
  | .u16 => 2
  | .u32 => 4

/-- The bytes of a fixed-width field, big-endian (rules R54, R55). -/
def fieldBytes (w : Width) (v : Word) : List Byte :=
  match w with
  | .u8 => [v.extractLsb' 0 8]
  | .u16 => [v.extractLsb' 8 8, v.extractLsb' 0 8]
  | .u32 => [v.extractLsb' 24 8, v.extractLsb' 16 8, v.extractLsb' 8 8, v.extractLsb' 0 8]

/-- The value of big-endian bytes, the first the most significant, zero-extended to 32 bits
(rules R39, R41, R55). -/
def fieldValue (bs : List Byte) : Word :=
  bs.foldl (fun v b => (v <<< 8) ||| b.setWidth 32) 0

/-- C, the continuation bit of a VBI byte (rule R56). -/
def continues (e : Byte) : Bool := e.getLsbD 7

/-- D, the digit of a VBI byte, zero-extended (rule R56). -/
def digitOf (e : Byte) : Word := (e.extractLsb' 0 7).setWidth 32

/-- The VBI byte that the encoder makes from the remaining quotient `x`: its low digit, with the
continuation bit set exactly when a further digit follows (rule R84). -/
def vbiByte (x : Word) : Byte :=
  let d : Byte := (x.extractLsb' 0 7).setWidth 8
  if x >>> 7 = 0 then d else 0x80 ||| d

/-- The next VBI bytes from the remaining quotient `x`, at most `n` of them, and the quotient that
remains; the last byte of an encoding is the one that leaves 0 (rule R84). -/
def vbiChunk : Nat → Word → List Byte × Word
  | 0, x => ([], x)
  | n + 1, x =>
    if x >>> 7 = 0 then ([vbiByte x], 0)
    else (vbiByte x :: (vbiChunk n (x >>> 7)).1, (vbiChunk n (x >>> 7)).2)

/-- The whole encoding that the step-down of rule R84 makes of a value in the domain. -/
def vbiEncoding (v : Word) : List Byte := (vbiChunk Config.vbiMaxBytes v).1

/-- `v` is above the encoder's domain (rule R85). -/
def beyondDomain (v : Word) : Bool := decide (Config.vbiMax < v.toNat)

/-- The sixteen packet types in code order (rules R27, R60). -/
inductive PacketType where
  | reserved
  | connect
  | connAck
  | publish
  | pubAck
  | pubRec
  | pubRel
  | pubComp
  | subscribe
  | subAck
  | unsubscribe
  | unsubAck
  | pingReq
  | pingResp
  | disconnect
  | auth
  deriving DecidableEq, Repr

/-- The code of a packet type (rule R60), as the registers hold it (rule R27). -/
def PacketType.code : PacketType → Nibble
  | .reserved => 0
  | .connect => 1
  | .connAck => 2
  | .publish => 3
  | .pubAck => 4
  | .pubRec => 5
  | .pubRel => 6
  | .pubComp => 7
  | .subscribe => 8
  | .subAck => 9
  | .unsubscribe => 10
  | .unsubAck => 11
  | .pingReq => 12
  | .pingResp => 13
  | .disconnect => 14
  | .auth => 15

/-- The packet type of a code, the table of rule R60 read the other way. -/
def PacketType.ofCode (t : Nibble) : PacketType :=
  match t.toNat with
  | 0 => .reserved
  | 1 => .connect
  | 2 => .connAck
  | 3 => .publish
  | 4 => .pubAck
  | 5 => .pubRec
  | 6 => .pubRel
  | 7 => .pubComp
  | 8 => .subscribe
  | 9 => .subAck
  | 10 => .unsubscribe
  | 11 => .unsubAck
  | 12 => .pingReq
  | 13 => .pingResp
  | 14 => .disconnect
  | _ => .auth

/-- `PacketType::from_bits`: bits above the low nibble are ignored (rule R95). -/
def PacketType.fromBits (b : Byte) : PacketType := PacketType.ofCode (b.extractLsb' 0 4)

/-- `PacketType::to_bits`: the code in a byte whose upper nibble is 0 (rule R96). -/
def PacketType.toBits (p : PacketType) : Byte := p.code.setWidth 8

end Sys2Proof.Machine
end

