-- ==== Sys2Proof/Machine/Ops.lean ====
section
/-!
DEFINITION. The shared operations: what the channel does with a request (rules R35, R46), issuing
and waiting on requests (rules R36 to R38), acceptance and end of a command (rules R49, R50, R105),
reset (rules R121, R122) and the caller's reads (rules R32, R125, R126).

An error is the unit's exception, and `raise` is its entry (rule R105). There is no return from one:
the unit is IDLE afterwards, as after success, and nothing is restored (rule R112).
-/
namespace Sys2Proof.Machine

open Sys2Proof.Config (TransportError)

variable {E : Type}

/-! ### The channel -/

/-- The answer to a read request (rule R11). -/
inductive ReadAnswer (E : Type := TransportError) where
  | ok (bs : List Byte)
  | eof
  | err (e : E)
  deriving DecidableEq, Repr

/-- The answer to a write request (rule R11). -/
inductive WriteAnswer (E : Type := TransportError) where
  | ok
  | err (e : E)
  deriving DecidableEq, Repr

/-- The channel loses the first `k` bytes of its input stream. -/
def Channel.take (k : Nat) (c : Channel E) : Channel E := { c with input := c.input.drop k }

/-- The channel gains bytes at the end of its output stream. -/
def Channel.put (bs : List Byte) (c : Channel E) : Channel E := { c with output := c.output ++ bs }

/-- What the channel does with a pending `ChanRead` of `n` bytes in this step: an answer, or none,
and the channel afterwards (rules R35, R46). A read gets all `n` bytes or an error; a failed one
takes 0 to `n`. DESIGN CHOICE (log 8): `serve` waits until the stream has the bytes. -/
def Channel.answerRead (n : Nat) (c : Channel E) : Option (ReadAnswer E) × Channel E :=
  match c.reads with
  | [] => (none, c)
  | .wait :: r => (none, { c with reads := r })
  | .serve :: r =>
    if n ≤ c.input.length then (some (.ok (c.input.take n)), ({ c with reads := r }).take n)
    else (none, c)
  | .eof k :: r => (some .eof, ({ c with reads := r }).take (min k n))
  | .err e k :: r => (some (.err e), ({ c with reads := r }).take (min k n))

/-- What the channel does with a pending `ChanWrite(bs)` in this step (rules R35, R46). -/
def Channel.answerWrite (bs : List Byte) (c : Channel E) : Option (WriteAnswer E) × Channel E :=
  match c.writes with
  | [] => (none, c)
  | .wait :: r => (none, { c with writes := r })
  | .accept :: r => (some .ok, ({ c with writes := r }).put bs)
  | .err e k :: r => (some (.err e), ({ c with writes := r }).put (bs.take k))

/-! ### Acceptance and end of a command -/

/-- Acceptance in one step (rule R49): the latch takes the command, the unit is BUSY, and the
response is not valid and its result registers unwritten (rule R24). `RSP_STATUS` is not among
them (log 16). -/
def State.accept (c : Command) (waiting : List Command) (s : State E) : State E :=
  { s with
    ust := .busy, cmd := some c, pend := none, place := .start, port := waiting
    rsp := { s.rsp with
      valid := false, value := none, pt := none, flags := none, len := none, err := none } }

/-- The end of a command, in one step (rules R50, R105). -/
def State.finish (e : Ending E) (s : State E) : State E :=
  { s with
    ust := .idle, pend := none, place := .start
    rsp := { s.rsp with valid := true, status := some e.code, err := e.errAfter s.rsp.err }
    marks := s.marks ++ e.marks }

/-- `return`: the command ends with OK (rule R50). -/
def State.complete (s : State E) : State E := s.finish .ok

/-- `raise X` (rule R105): the command ends with the error X. -/
def raise (e : Ending E) (s : State E) : Result E := .next (s.finish e)

/-- `RSP_VALUE <- v`. -/
def State.setValue (v : Word) (s : State E) : State E :=
  { s with rsp := { s.rsp with value := some v } }

/-- `RSP_PT <- t`. -/
def State.setPt (t : Nibble) (s : State E) : State E :=
  { s with rsp := { s.rsp with pt := some t } }

/-- `RSP_PT`, `RSP_FLAGS` and `RSP_LEN`, the result of RDHDR (rule R93). -/
def State.setHeader (t f : Nibble) (len : Word) (s : State E) : State E :=
  { s with rsp := { s.rsp with pt := some t, flags := some f, len := some len } }

/-! ### Requests and suspension points -/

/-- Issue a request and come to its suspension point (rule R36). -/
def State.issue (r : Request) (p : Place) (s : State E) : State E :=
  { s with pend := some r, place := p }

/-- The channel has answered: `PEND` is cleared (rule R36). -/
def State.answered (c : Channel E) (s : State E) : State E :=
  { s with pend := none, chan := c }

/-- Wait on the pending read. No answer: the unit stays where it is (rules R36, R130). An answer is
mapped as rule R37 says; after `Ok(bs)` the command goes on with `k`. -/
def awaitRead (s : State E) (k : List Byte → State E → Result E) : Result E :=
  match s.pend with
  | some (.read w) =>
    match s.chan.answerRead w.bytes with
    | (none, c) => .next { s with chan := c }
    | (some (.ok bs), c) => k bs (s.answered c)
    | (some .eof, c) => raise .malformed (s.answered c)
    | (some (.err e), c) => raise (.transport e) (s.answered c)
  | some (.write _) | none => .fault .lostPlace

/-- Wait on the pending write; an answer is mapped as rule R38 says. -/
def awaitWrite (s : State E) (k : State E → Result E) : Result E :=
  match s.pend with
  | some (.write bs) =>
    match s.chan.answerWrite bs with
    | (none, c) => .next { s with chan := c }
    | (some .ok, c) => k (s.answered c)
    | (some (.err e), c) => raise (.transport e) (s.answered c)
  | some (.read _) | none => .fault .lostPlace

/-- How many bytes the next write request carries, at least one: the draw of `WRITE_CHUNKING`, or
the reference chunking's number when there is no draw (rule R45). -/
def State.chunkSize (reference : Nat) (s : State E) : Nat :=
  match s.chunks with
  | [] => reference
  | n :: _ => max 1 n

/-- Issue the next write request of a fixed-width field of which `rest` is still to be carried
(rule R45). -/
def State.issueField (rest : List Byte) (s : State E) : State E :=
  ({ s with chunks := s.chunks.tail }).issue
    (.write (rest.take (s.chunkSize rest.length))) (.field (rest.drop (s.chunkSize rest.length)))

/-- Issue the next write request of a VBI, its bytes made from `VE_X` (rules R45, R84). -/
def State.issueDigits (s : State E) : State E :=
  ({ s with
      chunks := s.chunks.tail
      dp := { s.dp with veX := (vbiChunk (s.chunkSize 1) s.dp.veX).2 } }).issue
    (.write (vbiChunk (s.chunkSize 1) s.dp.veX).1) .digit

/-! ### Reset -/

/-- What the channel has done with a request that reset abandons: it took or kept some of its bytes,
how many being the channel's (rule R122). DESIGN CHOICE (log 14): in the step of the reset itself. -/
def Channel.abandon (r : Option Request) (progress : Nat) (c : Channel E) : Channel E :=
  match r with
  | some (.read w) => c.take (min progress w.bytes)
  | some (.write bs) => c.put (bs.take progress)
  | none => c

/-- Reset of the unit at any time (rules R31, R121, R122). The datapath registers hold `leftover`,
any value. Held commands are not accepted (rule R121); the caller's record, the build's chunking
and the marks are not the unit's to reset (log 14). -/
def State.resetUnit (leftover : Datapath) (progress : Nat) (s : State E) : State E :=
  { s with
    ust := .idle, cmd := none, dp := leftover, pend := none, place := .start
    rsp := ⟨false, none, none, none, none, none, none⟩
    chan := s.chan.abandon s.pend progress
    port := [] }

/-! ### The caller's reads -/

/-- `RSP_STATUS` as the caller reads it: codes 5, 6 and 7 are never written (rule R104, 93 I20). -/
def statusReading (code : BitVec 3) : Host.Outcome (Reading E) Fault Refusal :=
  if code.toNat ≤ 4 then .next (.status code) else .fault .reservedStatus

/-- A register that holds a value gives it, an unwritten one is an `UnwrittenRead` (rule R32). -/
def readingOf {α : Type} (r : RspReg) (form : α → Reading E) (v : Option α) :
    Host.Outcome (Reading E) Fault Refusal :=
  match v with
  | some x => .next (form x)
  | none => .fault (.unwrittenRead r)

/-- The caller reads a response register (rules R32, R125, R126). `RSP_VALID` always holds a value
(rule R24), and the caller learns from it that a command has ended (rule R114); DEDUCED (log 10)
that it can be read while 0. -/
def State.readRsp (r : RspReg) (s : State E) : Host.Outcome (Reading E) Fault Refusal :=
  match r, s.rsp.valid with
  | .valid, v => .next (.valid v)
  | r, false => .fault (.unwrittenRead r)
  | .status, true =>
    match s.rsp.status with
    | some code => statusReading code
    | none => .fault (.unwrittenRead .status)
  | .value, true => readingOf .value .value s.rsp.value
  | .pt, true => readingOf .pt .pt s.rsp.pt
  | .flags, true => readingOf .flags .flags s.rsp.flags
  | .len, true => readingOf .len .len s.rsp.len
  | .err, true => readingOf .err .err s.rsp.err

end Sys2Proof.Machine
end

