-- ==== Sys2Proof/Machine/FixedWidth.lean ====
section
/-!
DEFINITION. The fixed-width commands RDU8, RDU16, RDU32, WRU8, WRU16, WRU32 (40_fixed_width.md).

A meaning runs its command from where it stands until it ends or has to wait for the channel. The
place says where it stands (rule R17), so the same meaning starts a command and resumes it.
-/
namespace Sys2Proof.Machine

variable {E : Type}

/-- After the read of a fixed-width field: its value, zero-extended (rules R73 to R75). -/
def awaitField (s : State E) : Result E :=
  awaitRead s fun bs t => .next (t.setValue (fieldValue bs)).complete

/-- A fixed-width read: one `ChanRead` of the whole field (rules R43, R73 to R75). -/
def readField (w : Width) (s : State E) : Result E :=
  match s.place with
  | .start => awaitField (s.issue (.read w) (.field []))
  | .field _ => awaitField s
  | .control | .digit => .fault .lostPlace

/-- The write requests of a fixed-width field, the first of them issued; at most `n` are answered in
one step (rules R45, R76 to R78). -/
def driveField : Nat → State E → Result E
  | 0, s => .next s
  | n + 1, s =>
    awaitWrite s fun t =>
      match t.place with
      | .field [] => .next t.complete
      | .field rest => driveField n (t.issueField rest)
      | .start | .control | .digit => .fault .lostPlace

/-- A fixed-width write of the bytes of `a` (rules R76 to R78). No field has more bytes than 4, so
one step can answer all its requests. -/
def writeField (w : Width) (a : Word) (s : State E) : Result E :=
  match s.place with
  | .start => driveField 4 (s.issueField (fieldBytes w a))
  | .field _ => driveField 4 s
  | .control | .digit => .fault .lostPlace

/-- RDU8 (rule R73). -/
def execRdu8 (s : State E) : Result E := readField .u8 s

/-- RDU16 (rule R74). -/
def execRdu16 (s : State E) : Result E := readField .u16 s

/-- RDU32 (rule R75). -/
def execRdu32 (s : State E) : Result E := readField .u32 s

/-- WRU8 a (rule R76), refused as IllegalCommand when A[31:8] is not 0 (rules R68, R69). -/
def execWru8 (a : Word) (s : State E) : Result E :=
  if fits 8 a then writeField .u8 a s else raise .illegalCommand s

/-- WRU16 a (rule R77), refused as IllegalCommand when A[31:16] is not 0 (rules R68, R69). -/
def execWru16 (a : Word) (s : State E) : Result E :=
  if fits 16 a then writeField .u16 a s else raise .illegalCommand s

/-- WRU32 a (rule R78): every A is legal. -/
def execWru32 (a : Word) (s : State E) : Result E := writeField .u32 a s

end Sys2Proof.Machine
end

