-- ==== Sys2Proof/Machine/Varint.lean ====
section
/-!
DEFINITION. The VBI decoder and encoder, RDVBI and WRVBI (41_varint.md). `vbi_decode()` and
`vbi_encode(v)` are also the length phases of RDHDR and WRHDR.
-/
namespace Sys2Proof.Machine

variable {E : Type}

/-! ### The decoder (rules R81, R82) -/

/-- `VD_VALUE <- VD_VALUE + zext_32(e[6:0]) * VD_MULT`. -/
def State.accumulate (e : Byte) (s : State E) : State E :=
  { s with dp := { s.dp with vdValue := s.dp.vdValue + digitOf e * s.dp.vdMult } }

/-- `VD_MULT <- VD_MULT * 128`. -/
def State.scale (s : State E) : State E :=
  { s with dp := { s.dp with vdMult := s.dp.vdMult * 128 } }

/-- `vbi_decode()` up to its first request: the decoder's registers set, one byte asked for. -/
def State.beginDecode (s : State E) : State E :=
  ({ s with dp := { s.dp with vdValue := 0, vdMult := 1 } }).issue (.read .u8) .digit

/-- The loop of `vbi_decode()`, a byte being asked for (rule R81); `report` writes the result
registers from the decoded value. At most `n` reads are answered in one step. `Ok(bs)` of a
`ChanRead(1)` is one byte, so the default of `headD` is never taken. -/
def driveDecode (report : State E → State E) : Nat → State E → Result E
  | 0, s => .next s
  | n + 1, s =>
    awaitRead s fun bs t =>
      let u := t.accumulate (bs.headD 0)
      if continues (bs.headD 0) = false then .next (report u).complete
      else if u.dp.vdMult = Config.topMult then raise .malformed u
      else driveDecode report n (u.scale.issue (.read .u8) .digit)

/-- RDVBI's result (rule R81). -/
def reportValue (s : State E) : State E := s.setValue s.dp.vdValue

/-- RDVBI (rule R81). -/
def execRdvbi (s : State E) : Result E :=
  match s.place with
  | .start => driveDecode reportValue Config.vbiMaxBytes s.beginDecode
  | .digit => driveDecode reportValue Config.vbiMaxBytes s
  | .field _ | .control => .fault .lostPlace

/-! ### The encoder (rules R84, R85) -/

/-- `vbi_encode(v)` up to its first request. -/
def State.beginEncode (v : Word) (s : State E) : State E :=
  ({ s with dp := { s.dp with veX := v } }).issueDigits

/-- The loop of `vbi_encode`, its next bytes being on their way (rule R84). At most `n` requests are
answered in one step. -/
def driveEncode : Nat → State E → Result E
  | 0, s => .next s
  | n + 1, s =>
    awaitWrite s fun t =>
      if t.dp.veX = 0 then .next t.complete else driveEncode n t.issueDigits

/-- WRVBI a (rule R84); EncDomain above 268435455, before any request (rule R85). -/
def execWrvbi (a : Word) (s : State E) : Result E :=
  if beyondDomain a then raise .encDomain s
  else
    match s.place with
    | .start => driveEncode Config.vbiMaxBytes (s.beginEncode a)
    | .digit => driveEncode Config.vbiMaxBytes s
    | .field _ | .control => .fault .lostPlace

end Sys2Proof.Machine
end

