-- ==== Sys2Proof/Machine/Header.lean ====
section
/-!
DEFINITION. The fixed-header framer and the packet-type conversions: RDHDR, WRHDR, PTFROM, PTTO
(42_fixed_header.md).
-/
namespace Sys2Proof.Machine

variable {E : Type}

/-- `HDR.pt <- from_bits(c >> 4)` and `HDR.flags <- c[3:0]` (rule R93). -/
def State.latchControl (c : Byte) (s : State E) : State E :=
  { s with
    dp := { s.dp with
      hdrPt := (PacketType.fromBits (c >>> 4)).code, hdrFlags := flagsNibble c } }

/-- RDHDR's result, copied only when the whole header has succeeded (rules R22, R93, R100). -/
def reportHeader (s : State E) : State E := s.setHeader s.dp.hdrPt s.dp.hdrFlags s.dp.vdValue

/-- After the read of the control byte: the length phase (rule R93). -/
def awaitControl (s : State E) : Result E :=
  awaitRead s fun bs t =>
    driveDecode reportHeader Config.vbiMaxBytes (t.latchControl (bs.headD 0)).beginDecode

/-- RDHDR (rule R93). -/
def execRdhdr (s : State E) : Result E :=
  match s.place with
  | .start => awaitControl (s.issue (.read .u8) .control)
  | .control => awaitControl s
  | .digit => driveDecode reportHeader Config.vbiMaxBytes s
  | .field _ => .fault .lostPlace

/-- After the write of the control byte: the length phase (rule R94). -/
def awaitControlSent (a : Word) (s : State E) : Result E :=
  awaitWrite s fun t => driveEncode Config.vbiMaxBytes (t.beginEncode a)

/-- WRHDR t, b, a (rule R94); EncDomain above 268435455, before any request (rule R85). The control
byte is a field of one byte and so one request under every chunking (log 6). -/
def execWrhdr (t : Nibble) (b : Byte) (a : Word) (s : State E) : Result E :=
  if beyondDomain a then raise .encDomain s
  else
    match s.place with
    | .start => awaitControlSent a (s.issue (.write [controlByte t b]) .control)
    | .control => awaitControlSent a s
    | .digit => driveEncode Config.vbiMaxBytes s
    | .field _ => .fault .lostPlace

/-- PTFROM a (rule R95), refused as IllegalCommand when A[31:8] is not 0 (rules R68, R69). -/
def execPtfrom (a : Word) (s : State E) : Result E :=
  if fits 8 a then .next (s.setPt (PacketType.fromBits (a.extractLsb' 0 8)).code).complete
  else raise .illegalCommand s

/-- PTTO t (rule R96). -/
def execPtto (t : Nibble) (s : State E) : Result E :=
  .next (s.setValue ((PacketType.ofCode t).toBits.setWidth 32)).complete

end Sys2Proof.Machine
end

