-- ==== Sys2Proof/Machine/Dispatch.lean ====
section
/-!
DEFINITION. One arm per command: its meaning.
-/
namespace Sys2Proof.Machine

def exec (i : Instr) (s : State) : Host.Outcome State Fault Refusal :=
  match i with
  | .rdu8 => Sys2Proof.Machine.execRdu8 s
  | .rdu16 => Sys2Proof.Machine.execRdu16 s
  | .rdu32 => Sys2Proof.Machine.execRdu32 s
  | .rdvbi => Sys2Proof.Machine.execRdvbi s
  | .rdhdr => Sys2Proof.Machine.execRdhdr s
  | .ptfrom a => Sys2Proof.Machine.execPtfrom a s
  | .wru8 a => Sys2Proof.Machine.execWru8 a s
  | .wru16 a => Sys2Proof.Machine.execWru16 a s
  | .wru32 a => Sys2Proof.Machine.execWru32 a s
  | .wrvbi a => Sys2Proof.Machine.execWrvbi a s
  | .wrhdr t b a => Sys2Proof.Machine.execWrhdr t b a s
  | .ptto t => Sys2Proof.Machine.execPtto t s

end Sys2Proof.Machine
end

