-- ==== Sys2Proof/Machine/Commands.lean ====
section
/-!
DEFINITION. The commands of a unit whose channel has errors of any type, the parameter
`TransportError` of rule R8. `exec`, whose form the host fixes, has the same arms at
`Config.TransportError` (log 2).
-/
namespace Sys2Proof.Machine

variable {E : Type}

/-- The meaning of every command (the table of rule R66). -/
def execOf (i : Instr) (s : State E) : Result E :=
  match i with
  | .rdu8 => execRdu8 s
  | .rdu16 => execRdu16 s
  | .rdu32 => execRdu32 s
  | .rdvbi => execRdvbi s
  | .rdhdr => execRdhdr s
  | .ptfrom a => execPtfrom a s
  | .wru8 a => execWru8 a s
  | .wru16 a => execWru16 a s
  | .wru32 a => execWru32 a s
  | .wrvbi a => execWrvbi a s
  | .wrhdr t b a => execWrhdr t b a s
  | .ptto t => execPtto t s

end Sys2Proof.Machine
end

