-- ==== Sys2Proof/Machine/Run.lean ====
section
/-!
DEFINITION. The turns of a step (log 1): the unit's, running its latched command, accepting the next or
waiting; and the caller's. What a turn does to the unit, IllegalCommand and EncDomain among it, is
rule R105's; a step is a turn with the stops of rules R106 and R107 (`stopAtMarks`, log 5). Both
are for any error type; `run` is what runs a command, `exec` for the host's machine and `execOf` for
all others.
-/
namespace Sys2Proof.Machine

variable {E : Type}

/-- Run the latched command from its place. The legality check comes first (rule R69): a reserved
word ends with IllegalCommand here, an operand out of width in the command's meaning. -/
def runLatched (run : Instr → State E → Result E) (s : State E) : Result E :=
  match s.cmd with
  | none => .fault .unwrittenLatch
  | some c =>
    match decode c with
    | .instr i => run i s
    | .reserved _ => raise .illegalCommand s

/-- The unit's turn (rule R49). BUSY: the running command goes on, and presented commands are held.
IDLE: the oldest presented command is accepted and run, refused if no channel is bound (rule R124);
with none presented the unit waits (rule R123). -/
def unitTurn (run : Instr → State E → Result E) (s : State E) : Result E :=
  match s.ust with
  | .busy => runLatched run s
  | .idle =>
    match s.port with
    | [] => .next s
    | c :: waiting =>
      match s.chan.id with
      | some _ => runLatched run (s.accept c waiting)
      | none => .refused .noChannel

/-- The caller's act, the rest of its agenda already in `s`. -/
def callerTurn (run : Instr → State E → Result E) (act : CallerAct) (s : State E) :
    Result E :=
  match act with
  | .present c => .next { s with port := s.port ++ [c] }
  | .read r =>
    match s.readRsp r with
    | .next v => .next { s with readout := some v }
    | .fault f => .fault f
    | .refused f => .refused f
  | .reset leftover progress => .next (s.resetUnit leftover progress)
  | .pass => unitTurn run s

/-- One turn: the caller's next act if it has one, else the unit's. -/
def turn (run : Instr → State E → Result E) (s : State E) : Result E :=
  match s.agenda with
  | [] => unitTurn run s
  | act :: rest => callerTurn run act { s with agenda := rest }

/-- What a model makes of a turn from `s` (rules R106, R107): an IllegalCommand is refused by name, for
the model has no meaning for it; an EncDomain is a fault, and the run is over. Every other turn is
taken as it is. -/
def stopAtMarks (s : State E) (r : Result E) : Result E :=
  match r with
  | .next t =>
    match t.marks.drop s.marks.length with
    | [] => .next t
    | .illegalCommand :: _ => .refused .illegalCommand
    | .encDomain :: _ => .fault .encDomain
  | .fault f => .fault f
  | .refused f => .refused f

/-- One step of a unit whose channel has errors of any type (rule R8). `step` is this one at
`Config.TransportError`. -/
def stepOf (s : State E) : Result E := stopAtMarks s (turn execOf s)

/-- The caller presents `c` to an IDLE unit with a bound channel and does nothing more, so that the
very next step accepts and runs it. -/
def State.presenting (c : Command) (s : State E) : State E :=
  { s with
    ust := .idle, port := [c], agenda := []
    chan := { s.chan with id := some (s.chan.id.getD 0) } }

end Sys2Proof.Machine
end

