-- ==== Sys2Proof/Machine/Step.lean ====
section
/-!
DEFINITION. One step of the machine, and the placing of one command where the next step takes it.
-/
namespace Sys2Proof.Machine

/-- One step: one turn of the unit or of its caller, as the caller's agenda says, refused where it is
an IllegalCommand and a fault where it is an EncDomain (rules R106, R107). -/
def step (s : State) : Host.Outcome State Fault Refusal := stopAtMarks s (turn exec s)

/-- `s` with the opcode-table word `w` presented by the caller, so that `step` accepts and runs it.
The unit fetches no instructions (rule R52): a program is the commands a caller presents, and this
stands for the caller's presentation (log 11). -/
def State.withFetchWord (s : State) (nbits w : Nat) : State := s.presenting (tableCommand nbits w)

end Sys2Proof.Machine
end

