-- ==== Sys2Proof/Machine/System.lean ====
section
/-!
DEFINITION. `NUM_UNITS` units side by side, each with its own channel and caller (rules R33, R119;
log 15).
-/
namespace Sys2Proof.Machine

variable {E : Type} {numUnits : Nat}

/-- `NUM_UNITS` units whose channels have errors of the type `E`, the two open parameters of rule R8
that are not the channel's draws. -/
structure System (E : Type) (numUnits : Nat) where
  /-- the units, in no order that matters -/
  units : Vector (State E) numUnits
  /-- there is at least one unit (rule R8) -/
  atLeastOne : 1 ≤ numUnits
  deriving DecidableEq, Repr

/-- No two units are bound to one channel (rule R127). -/
def System.channelsApart (sys : System E numUnits) : Bool :=
  decide (sys.units.toList.filterMap fun u => u.chan.id).Nodup

/-- One step of unit `k`; which unit moves next is free (rule R33). A configuration in which two
units share a channel is refused (rule R127). -/
def System.step (k : Nat) (sys : System E numUnits) :
    Host.Outcome (System E numUnits) Fault Refusal :=
  if sys.channelsApart then
    if h : k < numUnits then
      match stepOf sys.units[k] with
      | .next t => .next { sys with units := sys.units.set k t }
      | .fault f => .fault f
      | .refused r => .refused r
    else .refused .noSuchUnit
  else .refused .sharedChannel

/-- The units right after reset, each bound to a channel of its own (rules R33, R124; log 15). -/
def System.initial (E : Type) (numUnits : Nat) (h : 1 ≤ numUnits) : System E numUnits where
  units := Vector.ofFn fun k => { State.initial E with chan := ⟨some k, [], [], [], []⟩ }
  atLeastOne := h

end Sys2Proof.Machine
end

