-- ==== Sys2Proof/Safety.lean ====
section
/-!
DEFINITION. The terms that claims use: which runs a claim may pass through (rules R106, R107), what
a VBI encoding is and is worth (rules R57, R59), and what holds of the unit in every run
(rules R18, R20, R23, R24, R44, R87, R110, R126).
-/
namespace Sys2Proof.Safety

open Sys2Proof.Machine

variable {E E' : Type}

/-! ### Runs that claims may pass through -/

/-- Nothing so far was an IllegalCommand or an EncDomain. -/
def Unmarked (s : State E) : Prop := s.marks = []

/-! ### VBI encodings -/

/-- A VBI encoding (rule R57): 1 to 4 bytes, the continuation bit set in all but the last. -/
def IsVbi (es : List Byte) : Prop :=
  1 ≤ es.length ∧ es.length ≤ Config.vbiMaxBytes ∧
    (∀ e ∈ es.dropLast, continues e = true) ∧ (∀ e ∈ es.getLast?, continues e = false)

/-- The value of a VBI encoding, the sum of `e_i[6:0] * 128^i` (rule R57). -/
def vbiValue : List Byte → Nat
  | [] => 0
  | e :: es => e.toNat % 128 + 128 * vbiValue es

/-- A non-canonical encoding has more than one byte and a zero last byte (rule R59). -/
def Canonical (es : List Byte) : Prop := es.length = 1 ∨ es.getLast? ≠ some 0

/-- What the encoder has still to emit when `x` is the remaining quotient and an earlier byte went
out before (rule R84). -/
def vbiRest (x : Word) : List Byte := if x = 0 then [] else vbiEncoding x

/-! ### Commands -/

/-- The commands that read from the channel (rule R34). -/
def readsChannel : Instr → Bool
  | .rdu8 | .rdu16 | .rdu32 | .rdvbi | .rdhdr => true
  | .ptfrom _ | .wru8 _ | .wru16 _ | .wru32 _ | .wrvbi _ | .wrhdr _ _ _ | .ptto _ => false

/-- The commands that write to the channel (rule R34). -/
def writesChannel : Instr → Bool
  | .wru8 _ | .wru16 _ | .wru32 _ | .wrvbi _ | .wrhdr _ _ _ => true
  | .rdu8 | .rdu16 | .rdu32 | .rdvbi | .rdhdr | .ptfrom _ | .ptto _ => false

/-- The operand is in the encoder's domain (rule R85). -/
def inDomain : Instr → Bool
  | .wrvbi a | .wrhdr _ _ a => decide (a.toNat ≤ Config.vbiMax)
  | .rdu8 | .rdu16 | .rdu32 | .rdvbi | .rdhdr | .ptfrom _ => true
  | .wru8 _ | .wru16 _ | .wru32 _ | .ptto _ => true

/-- What a write command puts on the output stream when it succeeds (rules R45, R53 to R62). -/
def encodingOf : Instr → List Byte
  | .wru8 a => fieldBytes .u8 a
  | .wru16 a => fieldBytes .u16 a
  | .wru32 a => fieldBytes .u32 a
  | .wrvbi a => vbiEncoding a
  | .wrhdr t b a => controlByte t b :: vbiEncoding a
  | .rdu8 | .rdu16 | .rdu32 | .rdvbi | .rdhdr | .ptfrom _ | .ptto _ => []

/-- The outcomes a command can reach (the table of rule R110, the operand deciding between OK and
the spec's own two). -/
def reaches (i : Instr) : Ending E → Bool
  | .ok => i.wellFormed && inDomain i
  | .malformed => readsChannel i
  | .transport _ => (readsChannel i || writesChannel i) && i.wellFormed && inDomain i
  | .illegalCommand => !i.wellFormed
  | .encDomain => !inDomain i

/-- The marks a command leaves, whatever the channel answers (rules R106, R107; log 5). -/
def marksOf (i : Instr) : List Mark :=
  if i.wellFormed = false then [.illegalCommand]
  else if inDomain i = false then [.encDomain]
  else []

/-! ### What holds in every run -/

/-- Every result register is unwritten (rule R24). -/
def Cleared (r : Response E) : Prop :=
  r.value = none ∧ r.pt = none ∧ r.flags = none ∧ r.len = none ∧ r.err = none

/-- A response with this code and no result register written. -/
def bareResponse (code : BitVec 3) : Response E := ⟨true, some code, none, none, none, none, none⟩

/-- The response of a command that ended with OK: the registers its rule writes, within their
ranges, and no others (rules R73 to R78, R81, R84, R93 to R96, R126). -/
def OkResponse (i : Instr) (r : Response E) : Prop :=
  match i with
  | .rdu8 => ∃ v : Word, v.toNat < 2 ^ 8 ∧ r = { bareResponse 0 with value := some v }
  | .rdu16 => ∃ v : Word, v.toNat < 2 ^ 16 ∧ r = { bareResponse 0 with value := some v }
  | .rdu32 => ∃ v : Word, r = { bareResponse 0 with value := some v }
  | .rdvbi => ∃ v : Word, v.toNat ≤ Config.vbiMax ∧ r = { bareResponse 0 with value := some v }
  | .rdhdr => ∃ (t f : Nibble) (v : Word), v.toNat ≤ Config.vbiMax ∧
      r = { bareResponse 0 with pt := some t, flags := some f, len := some v }
  | .ptfrom a => r = { bareResponse 0 with pt := some (a.extractLsb' 0 4) }
  | .ptto t => r = { bareResponse 0 with value := some (t.setWidth 32) }
  | .wru8 _ | .wru16 _ | .wru32 _ | .wrvbi _ | .wrhdr _ _ _ => r = bareResponse 0

/-- The response of a command that ended with `e` (rules R104, R105, R126). -/
def ResponseOf (i : Instr) (r : Response E) : Ending E → Prop
  | .ok => OkResponse i r
  | .malformed => r = bareResponse 1
  | .transport x => r = { (bareResponse 2 : Response E) with err := some x }
  | .illegalCommand => r = bareResponse 3
  | .encDomain => r = bareResponse 4

/-- A valid response is one that the latched command can have given (rules R24, R110, R126). -/
def ResponseFits (s : State E) : Prop :=
  ∃ c, s.cmd = some c ∧
    match decode c with
    | .instr i => ∃ e, reaches i e = true ∧ ResponseOf i s.rsp e
    | .reserved _ => s.rsp = bareResponse 3

/-- The decoder's registers while it waits for a byte (rules R20, R87). -/
def DecoderFits (d : Datapath) : Prop :=
  (d.vdMult = 1 ∨ d.vdMult = 128 ∨ d.vdMult = 16384 ∨ d.vdMult = 2097152) ∧
    d.vdValue.toNat < d.vdMult.toNat

/-- A request of a fixed-width field is pending: what went before, it and what is still to come make
up the field (rule R45). -/
def FieldInFlight (w : Width) (a : Word) (s : State E) : Prop :=
  ∃ sent now rest, now ≠ [] ∧ sent ++ now ++ rest = fieldBytes w a ∧
    s.pend = some (.write now) ∧ s.place = .field rest

/-- A request of a VBI is pending, and `VE_X` holds what is still to come (rules R45, R84). -/
def VbiInFlight (a : Word) (s : State E) : Prop :=
  ∃ sent now, now ≠ [] ∧ sent ++ now ++ vbiRest s.dp.veX = vbiEncoding a ∧
    s.dp.veX.toNat ≤ Config.vbiMax ∧ s.pend = some (.write now) ∧ s.place = .digit

/-- The command waits at one of its suspension points: the place, `PEND` and the datapath registers
fit it (rules R36, R43, R44). -/
def WaitsAt (i : Instr) (s : State E) : Prop :=
  i.wellFormed = true ∧ inDomain i = true ∧
    match i with
    | .rdu8 => s.place = .field [] ∧ s.pend = some (.read .u8)
    | .rdu16 => s.place = .field [] ∧ s.pend = some (.read .u16)
    | .rdu32 => s.place = .field [] ∧ s.pend = some (.read .u32)
    | .rdvbi => s.place = .digit ∧ s.pend = some (.read .u8) ∧ DecoderFits s.dp
    | .rdhdr => s.pend = some (.read .u8) ∧
        (s.place = .control ∨ s.place = .digit ∧ DecoderFits s.dp)
    | .wru8 a => FieldInFlight .u8 a s
    | .wru16 a => FieldInFlight .u16 a s
    | .wru32 a => FieldInFlight .u32 a s
    | .wrvbi a => VbiInFlight a s
    | .wrhdr t b a =>
        s.place = .control ∧ s.pend = some (.write [controlByte t b]) ∨ VbiInFlight a s
    | .ptfrom _ | .ptto _ => False

/-- The invariant of the unit. -/
structure Inv (s : State E) : Prop where
  /-- an IDLE unit has no request pending and no command under way (rules R18, R44) -/
  idle : s.ust = .idle → s.pend = none ∧ s.place = .start
  /-- a BUSY unit waits at a suspension point of its command, no response valid (rules R18, R24, R36) -/
  busy : s.ust = .busy → s.rsp.valid = false ∧
    ∃ c i, s.cmd = some c ∧ decode c = .instr i ∧ WaitsAt i s
  /-- while no response is valid, no result register holds a value (rule R24) -/
  cleared : s.rsp.valid = false → Cleared s.rsp
  /-- a valid response is one of the latched command's (rules R110, R126) -/
  answered : s.rsp.valid = true → ResponseFits s
  /-- no code above 4 is ever in `RSP_STATUS` (rule R104) -/
  status : ∀ code ∈ s.rsp.status, code.toNat ≤ 4

/-! ### Vocabulary of statements -/

/-- `s` with its command ended: IDLE, no request pending, the response `r` (rules R50, R105). -/
def ended (s : State E) (r : Response E) : State E :=
  { s with ust := .idle, pend := none, place := .start, rsp := r }

/-- The turn of this step is the unit's, and `rest` is what the caller does afterwards. -/
def UnitMoves (s : State E) (rest : List CallerAct) : Prop :=
  s.agenda = [] ∧ rest = [] ∨ s.agenda = .pass :: rest

/-- RDU8, RDU16 or RDU32. -/
def readOf : Width → Instr
  | .u8 => .rdu8
  | .u16 => .rdu16
  | .u32 => .rdu32

/-- WRU8, WRU16 or WRU32. -/
def writeOf (w : Width) (v : Word) : Instr :=
  match w with
  | .u8 => .wru8 v
  | .u16 => .wru16 v
  | .u32 => .wru32 v

/-- How many bytes the table of rule R86 gives the encoding of `v`. -/
def vbiLength (v : Nat) : Nat :=
  if v ≤ 127 then 1 else if v ≤ 16383 then 2 else if v ≤ 2097151 then 3 else 4

/-- `bs` is the canonical encoding of `v` (rules R57 to R59, R86). -/
def CanonicalEncoding (v : Nat) (bs : List Byte) : Prop :=
  IsVbi bs ∧ Canonical bs ∧ vbiValue bs = v ∧ bs.length = vbiLength v

/-- The datapath registers that a waiting command will still read are the same in both states. -/
def SameLive (i : Instr) (s t : State E) : Prop :=
  s.place = .digit →
    match i with
    | .rdvbi => s.dp.vdValue = t.dp.vdValue ∧ s.dp.vdMult = t.dp.vdMult
    | .rdhdr => s.dp.vdValue = t.dp.vdValue ∧ s.dp.vdMult = t.dp.vdMult ∧
        s.dp.hdrPt = t.dp.hdrPt ∧ s.dp.hdrFlags = t.dp.hdrFlags
    | .wrvbi _ | .wrhdr _ _ _ => s.dp.veX = t.dp.veX
    | .rdu8 | .rdu16 | .rdu32 | .ptfrom _ | .wru8 _ | .wru16 _ | .wru32 _ | .ptto _ => True

/-! ### Changes of the channel's error values -/

/-- An answer to a read, its error value changed by `f`. -/
def renameRead (f : E → E') : ReadVerdict E → ReadVerdict E'
  | .err e k => .err (f e) k
  | .serve => .serve
  | .eof k => .eof k
  | .wait => .wait

/-- An answer to a write, its error value changed by `f`. -/
def renameWrite (f : E → E') : WriteVerdict E → WriteVerdict E'
  | .err e k => .err (f e) k
  | .accept => .accept
  | .wait => .wait

/-- What a caller read, its error value changed by `f`. -/
def renameReading (f : E → E') : Reading E → Reading E'
  | .err e => .err (f e)
  | .valid v => .valid v
  | .status c => .status c
  | .value v => .value v
  | .pt t => .pt t
  | .flags g => .flags g
  | .len v => .len v

/-- The state, every error value of the channel in it changed by `f`. -/
def renameState (f : E → E') (s : State E) : State E' :=
  { s with
    rsp := { s.rsp with err := s.rsp.err.map f }
    chan := { s.chan with
      reads := s.chan.reads.map (renameRead f), writes := s.chan.writes.map (renameWrite f) }
    readout := s.readout.map (renameReading f) }

/-- An outcome, its next state changed by `g`. -/
def mapNext (g : State E → State E') : Result E → Result E'
  | .next t => .next (g t)
  | .fault r => .fault r
  | .refused r => .refused r

end Sys2Proof.Safety
end

