-- ==== Sys2Proof/Certificates/Slice0/Obligations.lean ====
section
/-!
DEFINITION. The statements for the provers. A title or docstring says where a statement rests on a
choice of the model (a log entry) and not on a rule of the spec.

`exec` and `turn exec` are what the unit does, IllegalCommand and EncDomain among it (rule R105);
`step` is `turn exec` with the stops that rules R106 and R107 ask of a model (log 5).
-/

open Sys2Proof Sys2Proof.Machine Sys2Proof.Safety
open Sys2Proof.Config (TransportError vbiMax)

/-! ### Encoding -/

/-- Packing an encoded command into its number and decoding that gives the command back, with every
operand (rules R66, R67, R71; the packing of the operands is log 3's). -/
def Obligations.EncodedCommandsDecodeBack : Prop :=
  ∀ i : Instr, decode (Command.ofBits (encode i).toBits) = .instr i

/-- Rule R67, R70: the decoder rejects, by name, exactly the words outside the table, 244 of 256. -/
def Obligations.WordsOutsideTheTableAreReserved : Prop :=
  (∀ c : Command, decode c = .reserved c.w ↔
    c.w.toNat ∉ [0x01, 0x02, 0x03, 0x04, 0x05, 0x06, 0x09, 0x0A, 0x0B, 0x0C, 0x0D, 0x0E]) ∧
  ((List.range 256).filter fun n => decide (decodeTableWord 8 n = none)).length = 244

/-- Words written out bit by bit from the table of rule R67 decode to their commands. -/
def Obligations.TableWordsDecode : Prop :=
  decodeTableWord 8 0b00000001 = some .rdu8 ∧
  decodeTableWord 8 0b00000010 = some .rdu16 ∧
  decodeTableWord 8 0b00000011 = some .rdu32 ∧
  decodeTableWord 8 0b00000100 = some .rdvbi ∧
  decodeTableWord 8 0b00000101 = some .rdhdr ∧
  decodeTableWord 8 0b00000110 = some (.ptfrom 0) ∧
  decodeTableWord 8 0b00001001 = some (.wru8 0) ∧
  decodeTableWord 8 0b00001010 = some (.wru16 0) ∧
  decodeTableWord 8 0b00001011 = some (.wru32 0) ∧
  decodeTableWord 8 0b00001100 = some (.wrvbi 0) ∧
  decodeTableWord 8 0b00001101 = some (.wrhdr 0 0 0) ∧
  decodeTableWord 8 0b00001110 = some (.ptto 0) ∧
  decodeTableWord 8 0b10000001 = none

/-- Rule R68: an operand a command does not use cannot change what is decoded. -/
def Obligations.UnusedOperandsAreIgnored : Prop :=
  ∀ c d : Command, c.w = d.w →
    (c.w ∈ [0x06, 0x09, 0x0A, 0x0B, 0x0C, 0x0D] → c.a = d.a) →
    (c.w = 0x0D → c.b = d.b) → (c.w ∈ [0x0D, 0x0E] → c.t = d.t) →
    decode c = decode d

/-- Rule R68: the bits a command masks inside its operand's type cannot change what it does: B[7:4]
of WRHDR and A[7:4] of PTFROM. -/
def Obligations.MaskedOperandBitsAreIgnored : Prop :=
  (∀ (t : Nibble) (b c : Byte) (a : Word) (s : State), b.extractLsb' 0 4 = c.extractLsb' 0 4 →
    exec (.wrhdr t b a) s = exec (.wrhdr t c a) s) ∧
  (∀ (a c : Word) (s : State), a.toNat < 256 → c.toNat < 256 →
    a.extractLsb' 0 4 = c.extractLsb' 0 4 → exec (.ptfrom a) s = exec (.ptfrom c) s)

/-- Rule R69: a command is legal exactly when its word selects a command and the width check holds. -/
def Obligations.LegalityIsDecodingAndWidth : Prop :=
  ∀ c : Command, legal c = true ↔ ∃ i, decode c = .instr i ∧ i.wellFormed = true

/-- Rule R60: the sixteen names and the sixteen codes map one to one. -/
def Obligations.PacketTypesAndCodesMapOneToOne : Prop :=
  (∀ t : Nibble, (PacketType.ofCode t).code = t) ∧
  (∀ p : PacketType, PacketType.ofCode p.code = p) ∧
  PacketType.reserved.code = 0 ∧ PacketType.connect.code = 1 ∧ PacketType.connAck.code = 2 ∧
  PacketType.publish.code = 3 ∧ PacketType.pubAck.code = 4 ∧ PacketType.pubRec.code = 5 ∧
  PacketType.pubRel.code = 6 ∧ PacketType.pubComp.code = 7 ∧ PacketType.subscribe.code = 8 ∧
  PacketType.subAck.code = 9 ∧ PacketType.unsubscribe.code = 10 ∧ PacketType.unsubAck.code = 11 ∧
  PacketType.pingReq.code = 12 ∧ PacketType.pingResp.code = 13 ∧
  PacketType.disconnect.code = 14 ∧ PacketType.auth.code = 15

/-- Rule R104: the codes of the outcomes, whatever the channel's error type; they tell the five kinds
of outcome apart. -/
def Obligations.StatusCodesOfOutcomes : Prop :=
  ∀ E : Type, (Ending.ok : Ending E).code = 0 ∧ (Ending.malformed : Ending E).code = 1 ∧
    (∀ e : E, (Ending.transport e).code = 2) ∧
    (Ending.illegalCommand : Ending E).code = 3 ∧ (Ending.encDomain : Ending E).code = 4

/-! ### The handshake -/

/-- Rules R49, R24, R18: an IDLE unit with a bound channel takes the oldest presented command into
its latch, becomes BUSY, makes its response invalid and its result registers unwritten, and runs
the command from its first line. Of a legal command in the domain the step is that run; what it is
of the others `Obligations.ClaimsStopAtIllegalCommandsAndAboveTheDomain` says. Three things here
are the model's and not those rules': that acceptance and the run up to the first wait are one step
(log 1, DESIGN CHOICE), that `RSP_STATUS` keeps its code at acceptance, where no caller can read it
(log 16, DEDUCED), and that the stops of rules R106 and R107 stand around the run (log 5, DESIGN
CHOICE). -/
def Obligations.StepAcceptsAndRunsTheDecodedCommand : Prop :=
  ∀ (s : State) (rest : List CallerAct) (c : Command) (waiting : List Command) (i : Instr),
    UnitMoves s rest → s.ust = .idle → s.port = c :: waiting → s.chan.id ≠ none →
    decode c = .instr i →
    let t : State := { s with
      agenda := rest, ust := .busy, cmd := some c, pend := none, place := .start, port := waiting
      rsp := ⟨false, s.rsp.status, none, none, none, none, none⟩ }
    turn exec s = exec i t ∧ step s = stopAtMarks s (exec i t) ∧
      (i.wellFormed = true → inDomain i = true → step s = exec i t)

/-- Rules R17, R36: a BUSY unit goes on with its latched command from its place. That the stops of
rules R106 and R107 stand around that run, and touch no legal command in the domain, is log 5's
(DESIGN CHOICE). -/
def Obligations.StepResumesTheLatchedCommand : Prop :=
  ∀ (s : State) (rest : List CallerAct) (c : Command) (i : Instr),
    UnitMoves s rest → s.ust = .busy → s.cmd = some c → decode c = .instr i →
    turn exec s = exec i { s with agenda := rest } ∧
      step s = stopAtMarks s (exec i { s with agenda := rest }) ∧
      (i.wellFormed = true → inDomain i = true → step s = exec i { s with agenda := rest })

/-- Rule R49: a command presented to a BUSY unit is held: not accepted, not lost, not reordered. The
first clause is of every state: presenting only queues the command, to an IDLE unit too, which
accepts it at its own next turn. That a presentation and an acceptance are two steps is the
model's (log 7, DESIGN CHOICE). -/
def Obligations.CommandsAreHeldWhileBusy : Prop :=
  (∀ (s : State) (c : Command) (rest : List CallerAct), s.agenda = .present c :: rest →
    step s = .next { s with agenda := rest, port := s.port ++ [c] }) ∧
  (∀ (s t : State) (rest : List CallerAct), UnitMoves s rest → s.ust = .busy →
    step s = .next t → t.port = s.port ∧ t.cmd = s.cmd)

/-- Rules R36, R130: a unit that waits on a channel which does not answer stays exactly as it is. -/
def Obligations.SilentChannelLeavesTheUnitWaiting : Prop :=
  ∀ s : State, Inv s → s.ust = .busy → s.agenda = [] → s.chan.reads = [] → s.chan.writes = [] →
    step s = .next s

/-- Rules R36, R120: while the channel lets a turn pass, only that turn is used up, and every piece
of the unit's state survives the wait, whatever answers to requests of the other kind there are. A
BUSY unit between two steps always has a request pending. -/
def Obligations.WaitingChangesNothingOfTheUnit : Prop :=
  ∀ (s : State) (rest : List CallerAct), Inv s → s.ust = .busy → UnitMoves s rest →
    (∀ (w : Width) (rs : List ReadVerdict),
      s.pend = some (.read w) → s.chan.reads = .wait :: rs →
      step s = .next { s with agenda := rest, chan := { s.chan with reads := rs } }) ∧
    (∀ (bs : List Byte) (ws : List WriteVerdict),
      s.pend = some (.write bs) → s.chan.writes = .wait :: ws →
      step s = .next { s with agenda := rest, chan := { s.chan with writes := ws } }) ∧
    ((∃ w, s.pend = some (.read w)) ∨ ∃ bs, s.pend = some (.write bs))

/-- Rule R123: an IDLE unit waits for a command. -/
def Obligations.IdleUnitWaitsForACommand : Prop :=
  ∀ s : State, s.ust = .idle → s.port = [] → s.agenda = [] → step s = .next s

/-- Rule R124: a command presented to a unit with no bound channel is refused. -/
def Obligations.UnboundUnitRefusesCommands : Prop :=
  ∀ (s : State) (rest : List CallerAct) (c : Command) (waiting : List Command),
    UnitMoves s rest → s.ust = .idle → s.port = c :: waiting → s.chan.id = none →
    step s = .refused .noChannel

/-- Rules R24, R50: a response stays until the next command is accepted or the unit is reset. -/
def Obligations.ResponseStaysUntilAcceptanceOrReset : Prop :=
  ∀ s t : State, s.ust = .idle → step s = .next t →
    (∀ d k rest, s.agenda ≠ .reset d k :: rest) →
    (s.port = [] ∨ ∃ act rest, s.agenda = act :: rest ∧ act ≠ .pass) →
    t.rsp = s.rsp

/-! ### The fixed-width commands -/

/-- Rules R73, R74, R75, when the channel serves the read: the value, big-endian and zero-extended;
one read is answered, and nothing else changes. -/
def Obligations.FixedWidthReadsGiveBigEndianValues : Prop :=
  ∀ (s : State) (rest : List Byte) (more : List ReadVerdict),
    s.place = .start → s.chan.reads = .serve :: more →
    (∀ b0 : Byte, s.chan.input = b0 :: rest →
      exec .rdu8 s = .next (ended
        { s with chan := { s.chan with input := rest, reads := more } }
        { s.rsp with valid := true, status := some 0, value := some (b0.setWidth 32) })) ∧
    (∀ b0 b1 : Byte, s.chan.input = b0 :: b1 :: rest →
      exec .rdu16 s = .next (ended
        { s with chan := { s.chan with input := rest, reads := more } }
        { s.rsp with
          valid := true, status := some 0, value := some ((b0 ++ b1).setWidth 32) })) ∧
    (∀ b0 b1 b2 b3 : Byte, s.chan.input = b0 :: b1 :: b2 :: b3 :: rest →
      exec .rdu32 s = .next (ended
        { s with chan := { s.chan with input := rest, reads := more } }
        { s.rsp with
          valid := true, status := some 0, value := some ((b0 ++ b1 ++ b2 ++ b3).setWidth 32) }))

/-- Rules R76, R77, R78, under the reference chunking when the channel accepts the write: the bytes
on the output stream, big-endian; one write is answered, and nothing else changes. -/
def Obligations.FixedWidthWritesPutBigEndianBytes : Prop :=
  ∀ (s : State) (more : List WriteVerdict) (a : Word),
    s.place = .start → s.chunks = [] → s.chan.writes = .accept :: more →
    (a.toNat < 2 ^ 8 → exec (.wru8 a) s = .next (ended
      { s with chan := { s.chan with
          output := s.chan.output ++ [a.extractLsb' 0 8], writes := more } }
      { s.rsp with valid := true, status := some 0 })) ∧
    (a.toNat < 2 ^ 16 → exec (.wru16 a) s = .next (ended
      { s with chan := { s.chan with
          output := s.chan.output ++ [a.extractLsb' 8 8, a.extractLsb' 0 8], writes := more } }
      { s.rsp with valid := true, status := some 0 })) ∧
    exec (.wru32 a) s = .next (ended
      { s with chan := { s.chan with
          output := s.chan.output ++ [a.extractLsb' 24 8, a.extractLsb' 16 8, a.extractLsb' 8 8,
            a.extractLsb' 0 8]
          writes := more } }
      { s.rsp with valid := true, status := some 0 })

/-- Rule R79: what a successful WRUn put on the output stream is n/8 bytes, and RDUn over exactly
those bytes returns the value, under every chunking. -/
def Obligations.FixedWidthRoundTrip : Prop :=
  ∀ (w : Width) (v : Word) (s t r : State) (bs rest : List Byte) (more : List ReadVerdict),
    v.toNat < 2 ^ (8 * w.bytes) →
    s.ust = .busy → s.place = .start → exec (writeOf w v) s = .next t →
    t.ust = .idle → t.rsp.status = some 0 → t.chan.output = s.chan.output ++ bs →
    r.place = .start → r.chan.input = bs ++ rest → r.chan.reads = .serve :: more →
    bs = fieldBytes w v ∧ bs.length = w.bytes ∧
    ∃ u, exec (readOf w) r = .next u ∧ u.ust = .idle ∧ u.rsp.valid = true ∧
      u.rsp.status = some 0 ∧ u.rsp.value = some v

/-! ### The VBI codec -/

/-- Rules R57, R81: RDVBI over any encoding of 1 to 4 bytes, canonical or not, returns its value,
reads exactly its bytes one by one, and changes nothing else but the decoder's own registers. -/
def Obligations.RdvbiReturnsTheValueOfEveryEncoding : Prop :=
  ∀ (s : State) (es rest : List Byte) (more : List ReadVerdict),
    IsVbi es → s.place = .start → s.chan.input = es ++ rest →
    s.chan.reads = List.replicate es.length .serve ++ more →
    exec .rdvbi s = .next (ended
      { s with
        dp := { s.dp with
          vdValue := BitVec.ofNat 32 (vbiValue es), vdMult := BitVec.ofNat 32 (128 ^ (es.length - 1)) }
        chan := { s.chan with input := rest, reads := more } }
      { s.rsp with
        valid := true, status := some 0, value := some (BitVec.ofNat 32 (vbiValue es)) })

/-- Rule R82: when a fourth byte has its continuation bit set, RDVBI ends with MalformedPacket,
whatever the digits and whatever follows, having issued exactly four reads. Where the input stream
then stands is left open (rule R128). -/
def Obligations.RdvbiStopsAfterFourContinuedBytes : Prop :=
  ∀ (s : State) (e0 e1 e2 e3 : Byte) (rest : List Byte) (more : List ReadVerdict),
    continues e0 = true → continues e1 = true → continues e2 = true → continues e3 = true →
    s.place = .start → s.chan.input = e0 :: e1 :: e2 :: e3 :: rest →
    s.chan.reads = List.replicate 4 .serve ++ more →
    ∃ t, exec .rdvbi s = .next t ∧ t.ust = .idle ∧ t.pend = none ∧
      t.rsp = { s.rsp with valid := true, status := some 1 } ∧ t.chan.reads = more ∧
      t.chan.output = s.chan.output ∧ t.chan.writes = s.chan.writes

/-- Rule R90: RDVBI over a stream that holds only bytes with bit 7 set, at most four, or none, ends
with MalformedPacket. -/
def Obligations.RdvbiFailsOnTruncatedEncodings : Prop :=
  ∀ (s : State) (p : List Byte) (k : Nat) (more : List ReadVerdict),
    p.length ≤ 4 → (∀ e ∈ p, continues e = true) →
    s.place = .start → s.chan.input = p →
    s.chan.reads = List.replicate p.length .serve ++ .eof k :: more →
    ∃ t, exec .rdvbi s = .next t ∧ t.ust = .idle ∧ t.pend = none ∧
      t.rsp = { s.rsp with valid := true, status := some 1 }

/-- Rules R84, R86: every value in the domain has one canonical encoding, of the length rule R86
gives, in one byte equal to the value up to 127. WRVBI puts exactly it on the output stream under
every chunking; under the reference chunking it issues one request a byte and changes nothing else
but `VE_X`. That four answers are enough under every chunking rests on log 6 (DESIGN CHOICE): no
request is empty, so a VBI takes at most one a byte. -/
def Obligations.WrvbiWritesTheCanonicalEncoding : Prop :=
  ∀ v : Word, v.toNat ≤ vbiMax → ∃ bs : List Byte, CanonicalEncoding v.toNat bs ∧
    (v.toNat ≤ 127 → bs = [v.setWidth 8]) ∧
    ∀ (s : State) (more : List WriteVerdict), s.place = .start →
      (s.chan.writes = List.replicate 4 .accept ++ more →
        ∃ t, exec (.wrvbi v) s = .next t ∧ t.ust = .idle ∧
          t.rsp = { s.rsp with valid := true, status := some 0 } ∧
          t.chan.output = s.chan.output ++ bs) ∧
      (s.chunks = [] → s.chan.writes = List.replicate bs.length .accept ++ more →
        exec (.wrvbi v) s = .next (ended
          { s with
            dp := { s.dp with veX := 0 }
            chan := { s.chan with output := s.chan.output ++ bs, writes := more } }
          { s.rsp with valid := true, status := some 0 }))

/-- Rule R88: RDVBI over exactly the bytes that a successful WRVBI of `v` wrote returns `v`, with one
read for each byte, under every chunking. -/
def Obligations.VbiRoundTrip : Prop :=
  ∀ (v : Word) (s t r : State) (bs rest : List Byte) (more : List ReadVerdict),
    v.toNat ≤ vbiMax →
    s.ust = .busy → s.place = .start → exec (.wrvbi v) s = .next t →
    t.ust = .idle → t.rsp.status = some 0 → t.chan.output = s.chan.output ++ bs →
    r.place = .start → r.chan.input = bs ++ rest →
    r.chan.reads = List.replicate bs.length .serve ++ more →
    1 ≤ bs.length ∧ bs.length ≤ 4 ∧
    ∃ u, exec .rdvbi r = .next u ∧ u.ust = .idle ∧ u.rsp.valid = true ∧ u.rsp.status = some 0 ∧
      u.rsp.value = some v ∧ u.chan.reads = more ∧ u.chan.input = rest

/-- Rules R59, R89: re-encoding the value of an accepted encoding gives the same bytes exactly when
the encoding is canonical, and fewer bytes when it is not. -/
def Obligations.ReencodingIsTheIdentityExactlyOnCanonicalBytes : Prop :=
  ∀ es : List Byte, IsVbi es →
    (vbiEncoding (BitVec.ofNat 32 (vbiValue es)) = es ↔ Canonical es) ∧
    (¬ Canonical es → (vbiEncoding (BitVec.ofNat 32 (vbiValue es))).length < es.length)

/-- Rule R87: in a decoder that waits for a byte, the next accumulation and scaling do not wrap and
stay in range; the encoder's quotient never grows. -/
def Obligations.VbiArithmeticNeverWraps : Prop :=
  (∀ (s : State) (e : Byte), DecoderFits s.dp →
    (s.accumulate e).dp.vdValue.toNat
      = s.dp.vdValue.toNat + e.toNat % 128 * s.dp.vdMult.toNat ∧
    (s.accumulate e).dp.vdValue.toNat ≤ vbiMax ∧
    (s.dp.vdMult ≠ 2097152 → s.scale.dp.vdMult.toNat = s.dp.vdMult.toNat * 128 ∧
      DecoderFits (s.accumulate e).scale.dp)) ∧
  (∀ s : State, s.issueDigits.dp.veX.toNat ≤ s.dp.veX.toNat)

/-! ### The header framer and the packet-type conversions -/

/-- Rule R93, when the channel serves the reads: RDHDR reports the control byte's nibbles and the
length, reads exactly the header's bytes, and changes nothing else but its datapath registers. -/
def Obligations.RdhdrReturnsEveryHeader : Prop :=
  ∀ (s : State) (c : Byte) (es rest : List Byte) (more : List ReadVerdict),
    IsVbi es → s.place = .start → s.chan.input = c :: es ++ rest →
    s.chan.reads = List.replicate (es.length + 1) .serve ++ more →
    exec .rdhdr s = .next (ended
      { s with
        dp := { s.dp with
          vdValue := BitVec.ofNat 32 (vbiValue es), vdMult := BitVec.ofNat 32 (128 ^ (es.length - 1))
          hdrPt := c.extractLsb' 4 4, hdrFlags := c.extractLsb' 0 4 }
        chan := { s.chan with input := rest, reads := more } }
      { s.rsp with
        valid := true, status := some 0, pt := some (c.extractLsb' 4 4)
        flags := some (c.extractLsb' 0 4), len := some (BitVec.ofNat 32 (vbiValue es)) })

/-- Rules R82, R93, R108: when the fourth byte of the length has its continuation bit set, RDHDR ends
with MalformedPacket, whatever the digits, the control byte and what follows, having issued exactly
1 + 4 reads. Where the input stream then stands is left open (rule R128). -/
def Obligations.RdhdrStopsAfterFourContinuedLengthBytes : Prop :=
  ∀ (s : State) (c e0 e1 e2 e3 : Byte) (rest : List Byte) (more : List ReadVerdict),
    continues e0 = true → continues e1 = true → continues e2 = true → continues e3 = true →
    s.place = .start → s.chan.input = c :: e0 :: e1 :: e2 :: e3 :: rest →
    s.chan.reads = List.replicate 5 .serve ++ more →
    ∃ t, exec .rdhdr s = .next t ∧ t.ust = .idle ∧ t.pend = none ∧
      t.rsp = { s.rsp with valid := true, status := some 1 } ∧ t.chan.reads = more ∧
      t.chan.output = s.chan.output ∧ t.chan.writes = s.chan.writes

/-- Rule R100: an RDHDR that ends otherwise than with OK reports no part of a header. -/
def Obligations.FailedRdhdrReportsNoHeader : Prop :=
  ∀ s t : State, s.ust = .busy → Cleared s.rsp → exec .rdhdr s = .next t →
    t.rsp.status ≠ some 0 → t.ust = .idle →
    t.rsp.value = none ∧ t.rsp.pt = none ∧ t.rsp.flags = none ∧ t.rsp.len = none

/-- Rule R94, under the reference chunking when the channel accepts the writes: WRHDR writes the
control byte and then the canonical encoding of the length, and changes nothing else but `VE_X`. -/
def Obligations.WrhdrWritesTheHeader : Prop :=
  ∀ (t : Nibble) (b : Byte) (a : Word), a.toNat ≤ vbiMax →
    ∃ bs : List Byte, CanonicalEncoding a.toNat bs ∧
    ∀ (s : State) (more : List WriteVerdict),
      s.place = .start → s.chunks = [] →
      s.chan.writes = List.replicate (bs.length + 1) .accept ++ more →
      exec (.wrhdr t b a) s = .next (ended
        { s with
          dp := { s.dp with veX := 0 }
          chan := { s.chan with
            output := s.chan.output ++ (t ++ b.extractLsb' 0 4) :: bs, writes := more } }
        { s.rsp with valid := true, status := some 0 })

/-- Rule R98: writing the header that RDHDR read gives the same bytes when the length was canonical,
and otherwise the control byte and the canonical encoding of the length, under every chunking. That
five answers are enough under every chunking rests on log 6 (DESIGN CHOICE): no request is empty,
so a header takes at most one a byte. -/
def Obligations.HeaderRoundTrip : Prop :=
  ∀ (c : Byte) (es rest : List Byte) (s w : State) (more : List ReadVerdict)
    (moreW : List WriteVerdict),
    IsVbi es → s.place = .start → s.chan.input = c :: es ++ rest →
    s.chan.reads = List.replicate (es.length + 1) .serve ++ more →
    w.place = .start → w.chan.writes = List.replicate 5 .accept ++ moreW →
    ∃ (t : State) (len : Word), exec .rdhdr s = .next t ∧
      t.rsp.pt = some (c.extractLsb' 4 4) ∧ t.rsp.flags = some (c.extractLsb' 0 4) ∧
      t.rsp.len = some len ∧
      ∃ (u : State) (bs : List Byte),
        exec (.wrhdr (c.extractLsb' 4 4) ((c.extractLsb' 0 4).setWidth 8) len) w = .next u ∧
        u.ust = .idle ∧ u.rsp.status = some 0 ∧ u.chan.output = w.chan.output ++ c :: bs ∧
        CanonicalEncoding (vbiValue es) bs ∧ (Canonical es → bs = es)

/-- Rules R95, R96: the conversions complete in every state, write their result and touch neither
stream nor anything else. -/
def Obligations.PacketTypeConversionsComplete : Prop :=
  (∀ (a : Word) (s : State), a.toNat < 2 ^ 8 →
    exec (.ptfrom a) s = .next (ended s
      { s.rsp with valid := true, status := some 0, pt := some (a.extractLsb' 0 4) })) ∧
  (∀ (t : Nibble) (s : State),
    exec (.ptto t) s = .next (ended s
      { s.rsp with valid := true, status := some 0, value := some (t.setWidth 32) }))

/-- Rule R97: the packet-type laws, through the commands. -/
def Obligations.PacketTypeConversionsAreInverse : Prop :=
  ∀ s : State,
    (∀ t : Nibble, ∃ u, exec (.ptfrom (t.setWidth 32)) s = .next u ∧ u.rsp.pt = some t) ∧
    (∀ t : Nibble, ∃ u, exec (.ptto t) s = .next u ∧ u.rsp.value = some (t.setWidth 32)) ∧
    (∀ a : Byte, exec (.ptfrom (a.setWidth 32)) s
      = exec (.ptfrom ((a.extractLsb' 0 4).setWidth 32)) s)

/-! ### Outcomes other than OK -/

/-- Rule R37: at every suspension point of every reading command, `Eof` ends it with
MalformedPacket and `Err(e)` with Transport(e), e unchanged, and no result register is written.
Where the input stream then stands is left open (rules R46, R128). -/
def Obligations.ReadFailuresEndTheCommand : Prop :=
  ∀ (i : Instr) (s : State) (k : Nat) (e : TransportError) (more : List ReadVerdict),
    readsChannel i = true → WaitsAt i s →
    (s.chan.reads = .eof k :: more → ∃ input, exec i s = .next (ended
      { s with chan := { s.chan with input := input, reads := more } }
      { s.rsp with valid := true, status := some 1 })) ∧
    (s.chan.reads = .err e k :: more → ∃ input, exec i s = .next (ended
      { s with chan := { s.chan with input := input, reads := more } }
      { s.rsp with valid := true, status := some 2, err := some e }))

/-- Rules R38, R46: at every suspension point of every writing command, `Err(e)` ends it with
Transport(e), e unchanged; of the bytes of the failed request some first ones, how many being open,
reached the output stream, and no byte after them. -/
def Obligations.WriteFailuresEndTheCommand : Prop :=
  ∀ (i : Instr) (s : State) (k : Nat) (e : TransportError) (more : List WriteVerdict),
    writesChannel i = true → WaitsAt i s → s.chan.writes = .err e k :: more →
    ∃ (now : List Byte) (kept : Nat), s.pend = some (.write now) ∧ kept ≤ now.length ∧
      exec i s = .next (ended
        { s with chan := { s.chan with
            output := s.chan.output ++ now.take kept, writes := more } }
        { s.rsp with valid := true, status := some 2, err := some e })

/-- Rules R85, R105, R111: above the domain, WRVBI and WRHDR end with EncDomain and issue no request.
That this effect is the meaning's, which leaves a mark by which the step makes it a fault, is the
model's choice (log 5). -/
def Obligations.EncodersEndAboveTheDomain : Prop :=
  ∀ (a : Word) (t : Nibble) (b : Byte) (s : State), vbiMax < a.toNat →
    exec (.wrvbi a) s = .next (ended { s with marks := s.marks ++ [.encDomain] }
      { s.rsp with valid := true, status := some 4 }) ∧
    exec (.wrhdr t b a) s = .next (ended { s with marks := s.marks ++ [.encDomain] }
      { s.rsp with valid := true, status := some 4 })

/-- Rules R68, R69, R105: an operand out of width and a reserved word end the command with
IllegalCommand, issue no request and write no result register. That this effect is the meaning's
and the turn's, which leave a mark by which the step refuses it, is the model's choice (log 5). -/
def Obligations.IllegalCommandsEndAtOnce : Prop :=
  (∀ (a : Word) (s : State), 2 ^ 8 ≤ a.toNat →
    exec (.wru8 a) s = .next (ended { s with marks := s.marks ++ [.illegalCommand] }
      { s.rsp with valid := true, status := some 3 }) ∧
    exec (.ptfrom a) s = .next (ended { s with marks := s.marks ++ [.illegalCommand] }
      { s.rsp with valid := true, status := some 3 })) ∧
  (∀ (a : Word) (s : State), 2 ^ 16 ≤ a.toNat →
    exec (.wru16 a) s = .next (ended { s with marks := s.marks ++ [.illegalCommand] }
      { s.rsp with valid := true, status := some 3 })) ∧
  (∀ (s : State) (rest : List CallerAct) (c : Command) (waiting : List Command) (w : Byte),
    UnitMoves s rest → s.ust = .idle → s.port = c :: waiting → s.chan.id ≠ none →
    decode c = .reserved w →
    turn exec s = .next (ended
      { s with
        agenda := rest, cmd := some c, port := waiting, marks := s.marks ++ [.illegalCommand] }
      ⟨true, some 3, none, none, none, none, none⟩))

/-- Rules R106, R107: the step that accepts a command refuses it by name when it is illegal and is a
fault when it is above the encoder's domain; for every other it is the unit's turn. -/
def Obligations.ClaimsStopAtIllegalCommandsAndAboveTheDomain : Prop :=
  ∀ (s : State) (rest : List CallerAct) (c : Command) (waiting : List Command),
    UnitMoves s rest → s.ust = .idle → s.port = c :: waiting → s.chan.id ≠ none →
    (legal c = false → step s = .refused .illegalCommand) ∧
    (∀ i, decode c = .instr i → i.wellFormed = true → inDomain i = false →
      step s = .fault .encDomain) ∧
    (∀ i, decode c = .instr i → i.wellFormed = true → inDomain i = true →
      step s = turn exec s)

/-- Rules R106, R107: the same of a system of any number of units and any error type: the step of the
unit that accepts the command is refused or a fault, and with it the system's. -/
def Obligations.SystemsStopAtIllegalCommandsAndAboveTheDomain : Prop :=
  ∀ (E : Type) (numUnits : Nat) (sys : System E numUnits) (k : Nat) (s : State E)
    (rest : List CallerAct) (c : Command) (waiting : List Command),
    sys.channelsApart = true → sys.units[k]? = some s →
    UnitMoves s rest → s.ust = .idle → s.port = c :: waiting → s.chan.id ≠ none →
    (legal c = false → sys.step k = .refused .illegalCommand) ∧
    (∀ i, decode c = .instr i → i.wellFormed = true → inDomain i = false →
      sys.step k = .fault .encDomain)

/-- Whatever the unit, the channel and the caller do, a turn removes no mark, and a step that answers
a next state adds none: no run of steps goes past an IllegalCommand or an EncDomain (rules R106,
R107). That State records the two in `marks`, a field of the model's own, is log 5's, and that the
marks survive reset is log 14's (both DESIGN CHOICE). -/
def Obligations.MarkedRunsStayMarked : Prop :=
  ∀ s t : State,
    (turn exec s = .next t → s.marks <+: t.marks ∧ (Unmarked t → Unmarked s)) ∧
    (step s = .next t → t.marks = s.marks)

/-- Rule R110: a command ends with no outcome but those its row of the table allows. -/
def Obligations.CommandsReachOnlyTheirOutcomes : Prop :=
  ∀ (i : Instr) (s t : State), s.ust = .busy → exec i s = .next t → t.ust = .idle →
    ∃ e : Ending, reaches i e = true ∧ t.rsp.valid = true ∧ t.rsp.status = some e.code

/-! ### Frames of all commands -/

/-- What no command changes, whatever the channel answers: the latch, the held commands, the caller's
plans and record, the binding (rules R19, R35, R49); the stream it does not use and its answers
(rule R34); a datapath register that rule R15 does not give it to write. -/
def Obligations.CommandsKeepTheirFrame : Prop :=
  ∀ (i : Instr) (s t : State), exec i s = .next t →
    t.cmd = s.cmd ∧ t.port = s.port ∧ t.agenda = s.agenda ∧ t.readout = s.readout ∧
    t.chan.id = s.chan.id ∧
    (readsChannel i = false → t.chan.input = s.chan.input ∧ t.chan.reads = s.chan.reads) ∧
    (writesChannel i = false → t.chan.output = s.chan.output ∧ t.chan.writes = s.chan.writes ∧
      t.chunks = s.chunks) ∧
    (i ≠ .rdvbi → i ≠ .rdhdr → t.dp.vdValue = s.dp.vdValue ∧ t.dp.vdMult = s.dp.vdMult) ∧
    (i ≠ .rdhdr → t.dp.hdrPt = s.dp.hdrPt ∧ t.dp.hdrFlags = s.dp.hdrFlags) ∧
    ((∀ a, i ≠ .wrvbi a) → (∀ ty b a, i ≠ .wrhdr ty b a) → t.dp.veX = s.dp.veX)

/-- Rules R34, R47: a step only takes bytes off the front of the input stream and only adds bytes at
the end of the output stream, and answers are used in their order. -/
def Obligations.StreamsOnlyMoveForward : Prop :=
  ∀ s t : State, step s = .next t →
    t.chan.input <:+ s.chan.input ∧ s.chan.output <+: t.chan.output ∧
    t.chan.reads <:+ s.chan.reads ∧ t.chan.writes <:+ s.chan.writes

/-- Rules R45, R53: whatever the chunking, a writing command whose requests the channel accepts puts
exactly its encoding on the output stream and ends with OK. That five answers are enough rests on
log 6 (DESIGN CHOICE): no request is empty, so a command issues at most one a byte. -/
def Obligations.WritesPutExactlyTheirEncodingUnderEveryChunking : Prop :=
  ∀ (i : Instr) (s : State) (more : List WriteVerdict),
    writesChannel i = true → i.wellFormed = true → inDomain i = true →
    s.place = .start → s.chan.writes = List.replicate 5 .accept ++ more →
    ∃ (t : State) (k : Nat), k < 5 ∧ exec i s = .next t ∧ t.ust = .idle ∧ t.pend = none ∧
      t.rsp = { s.rsp with valid := true, status := some 0 } ∧ t.marks = s.marks ∧
      t.chan = { s.chan with
        output := s.chan.output ++ encodingOf i
        writes := List.replicate k .accept ++ more }

/-! ### Reset and the caller's reads -/

/-- Rule R31: the reset values that the spec gives. -/
def Obligations.ResetValuesOfTheSpec : Prop :=
  State.reset.ust = .idle ∧ State.reset.pend = none ∧ State.reset.rsp.valid = false ∧
  State.reset.rsp.status = none ∧ Cleared State.reset.rsp ∧ State.reset.cmd = none

/-- Rules R121, R122: reset at any time, BUSY or IDLE, gives the reset values, any value in the
datapath registers, no response for the abandoned command and no further request; bytes already
consumed or written stay so. The rest is log 14's (DESIGN CHOICE): the held commands, which reset
does not accept, leave the port; the channel's answers to come, the draws of the chunking, the
caller's record and plans and the marks stay; the abandoned request moves the streams in this
very step. -/
def Obligations.ResetAbandonsTheRunningCommand : Prop :=
  ∀ (s : State) (d : Datapath) (k : Nat) (rest : List CallerAct),
    s.agenda = .reset d k :: rest →
    ∃ input output, input <:+ s.chan.input ∧ s.chan.output <+: output ∧
      (s.pend = none → input = s.chan.input ∧ output = s.chan.output) ∧
      step s = .next { s with
        agenda := rest, ust := .idle, cmd := none, dp := d, pend := none, place := .start
        rsp := ⟨false, none, none, none, none, none, none⟩, port := []
        chan := { s.chan with input := input, output := output } }

/-- Rules R32, R125, R126: the caller's read of a register gives the value it holds, and is a fault
while `RSP_VALID` is 0 or when the register is unwritten. That `RSP_VALID` itself can always be
read is log 10's. -/
def Obligations.CallerReadsOnlyWrittenRegisters : Prop :=
  ∀ (s : State) (r : RspReg) (rest : List CallerAct), s.agenda = .read r :: rest →
    (s.rsp.valid = false → r ≠ .valid → step s = .fault (.unwrittenRead r)) ∧
    (r = .valid → step s = .next
      { s with agenda := rest, readout := some (.valid s.rsp.valid) }) ∧
    (s.rsp.valid = true → r = .status → ∀ c, s.rsp.status = some c → c.toNat ≤ 4 →
      step s = .next { s with agenda := rest, readout := some (.status c) }) ∧
    (s.rsp.valid = true → r = .value →
      (s.rsp.value = none → step s = .fault (.unwrittenRead .value)) ∧
      ∀ v, s.rsp.value = some v →
        step s = .next { s with agenda := rest, readout := some (.value v) }) ∧
    (s.rsp.valid = true → r = .pt →
      (s.rsp.pt = none → step s = .fault (.unwrittenRead .pt)) ∧
      ∀ v, s.rsp.pt = some v →
        step s = .next { s with agenda := rest, readout := some (.pt v) }) ∧
    (s.rsp.valid = true → r = .flags →
      (s.rsp.flags = none → step s = .fault (.unwrittenRead .flags)) ∧
      ∀ v, s.rsp.flags = some v →
        step s = .next { s with agenda := rest, readout := some (.flags v) }) ∧
    (s.rsp.valid = true → r = .len →
      (s.rsp.len = none → step s = .fault (.unwrittenRead .len)) ∧
      ∀ v, s.rsp.len = some v →
        step s = .next { s with agenda := rest, readout := some (.len v) }) ∧
    (s.rsp.valid = true → r = .err →
      (s.rsp.err = none → step s = .fault (.unwrittenRead .err)) ∧
      ∀ v, s.rsp.err = some v →
        step s = .next { s with agenda := rest, readout := some (.err v) })

/-! ### The whole machine -/

/-- The invariant holds after reset. -/
def Obligations.ResetMeetsTheInvariant : Prop := Inv State.reset

/-- Every step keeps the invariant, and so does every turn, the ends with IllegalCommand and EncDomain
among them, which are the model's to take before a step stops at them (log 5, DESIGN CHOICE): an
IDLE unit has no request pending, a BUSY one waits at a suspension point of its command with its
registers exact and in range, and a valid response is one that the latched command can have given
(rules R18, R20, R24, R44, R87, R110, R126). -/
def Obligations.StepKeepsTheInvariant : Prop :=
  (∀ s t : State, Inv s → step s = .next t → Inv t) ∧
  (∀ s t : State, Inv s → turn exec s = .next t → Inv t)

/-- The faults that stand for states no run reaches (rules R32, R36): under the invariant a unit's
turn is a next state or the refusal for want of a channel (rule R124), never a fault. That an
IllegalCommand and an EncDomain are next states of the turn is log 5's (DESIGN CHOICE). The step
stops, beyond that, exactly where it accepts a command that is illegal or above the domain, as
rules R106 and R107 say. -/
def Obligations.UnitTurnsNeverFaultUnderTheInvariant : Prop :=
  ∀ (s : State) (rest : List CallerAct), Inv s → UnitMoves s rest →
    ((∃ t, turn exec s = .next t) ∨
      (turn exec s = .refused .noChannel ∧ s.ust = .idle ∧ s.port ≠ [] ∧ s.chan.id = none)) ∧
    ((∃ t, step s = .next t) ∨
      (step s = .refused .noChannel ∧ s.ust = .idle ∧ s.port ≠ [] ∧ s.chan.id = none) ∨
      ∃ (c : Command) (waiting : List Command), s.ust = .idle ∧ s.port = c :: waiting ∧
        ((legal c = false ∧ step s = .refused .illegalCommand) ∨
          ∃ i, decode c = .instr i ∧ i.wellFormed = true ∧ inDomain i = false ∧
            step s = .fault .encDomain))

/-- Rules R8, R109: the unit takes the type of the channel's errors as an argument, passes its values
on and never inspects them: on any state, changing every error value by any function into any
other type changes nothing in the outcome but those values. -/
def Obligations.TransportErrorsAreNeverInspected : Prop :=
  ∀ (E E' : Type) (f : E → E') (s : State E),
    stepOf (renameState f s) = mapNext (renameState f) (stepOf s)

/-- Rule R8: the machine of the host, whose errors are the tokens of log 2, is the generic one at that
type, command by command and step by step; and every state over any other error type with a value
is one of its states, the errors changed, and steps as that one does. -/
def Obligations.TransportErrorTypeDoesNotMatter : Prop :=
  (∀ (i : Instr) (s : State), exec i s = execOf i s) ∧
  (∀ s : State, step s = stepOf s) ∧
  (∀ (E : Type) [Nonempty E] (s : State E), ∃ (f : TransportError → E) (t : State),
    renameState f t = s ∧ stepOf s = mapNext (renameState f) (step t))

/-- Rule R30: a command that starts does not depend on what the datapath registers hold: with other
contents it does the same but for those registers, and the ones a waiting command still reads
agree. That it answers a next state whatever its operands, out of width and above the domain
among them, is the meaning's effect of rule R105, which log 5 has it take (DESIGN CHOICE; the step
then stops as rules R106 and R107 say). -/
def Obligations.CommandsDoNotReadLeftoverRegisters : Prop :=
  ∀ (i : Instr) (s : State) (d : Datapath), s.place = .start →
    (∀ t, exec i s = .next t → ∃ d', exec i { s with dp := d } = .next { t with dp := d' } ∧
      (t.pend ≠ none → SameLive i t { t with dp := d' })) ∧
    (∀ f, exec i s ≠ .fault f) ∧ (∀ r, exec i s ≠ .refused r)

/-- Rules R36, R120, R133: answers given later do what answers given at once do. A command that runs
from its first line, uses up all the answers there are, waits, and then gets further answers does
what it does when they are there from the start; if it waits again for want of answers, the
statement applies once more, to the longer list. Left out are waits of two other kinds: by an
answer that lets a turn pass, of which `Obligations.WaitingChangesNothingOfTheUnit` speaks, and by
an input stream that is too short for a read to be served. -/
def Obligations.LateAnswersChangeNothing : Prop :=
  ∀ (i : Instr) (s t : State) (rs : List ReadVerdict) (ws : List WriteVerdict),
    s.place = .start → .wait ∉ s.chan.reads → .wait ∉ s.chan.writes →
    exec i s = .next t → t.pend ≠ none → t.chan.reads = [] → t.chan.writes = [] →
    exec i { t with chan := { t.chan with reads := rs, writes := ws } }
      = exec i { s with chan := { s.chan with
          reads := s.chan.reads ++ rs, writes := s.chan.writes ++ ws } }

/-- Rules R33, R119: however many units there are, and whatever their channels' errors, a step of one
leaves every other as it is, and steps of two units can be taken in either order. -/
def Obligations.UnitsAreIndependent : Prop :=
  ∀ (E : Type) (numUnits : Nat),
    (∀ (sys sys' : System E numUnits) (k : Nat), sys.step k = .next sys' →
      ∀ j : Nat, j ≠ k → sys'.units[j]? = sys.units[j]?) ∧
    (∀ (sys one two : System E numUnits) (j k : Nat), j ≠ k →
      sys.step j = .next one → one.step k = .next two →
      ∃ other, sys.step k = .next other ∧ other.step j = .next two)

/-- Rule R127: a configuration in which two units share a channel is refused. -/
def Obligations.SharedChannelsAreRefused : Prop :=
  ∀ (E : Type) (numUnits : Nat) (sys : System E numUnits) (j k n c : Nat) (u v : State E), j ≠ k →
    sys.units[j]? = some u → sys.units[k]? = some v → u.chan.id = some c → v.chan.id = some c →
    sys.step n = .refused .sharedChannel
end

