-- ==== Sys2Proof/Laws/Decode.lean ====
section
/-!
SUPPORT. Small lemmas of the decoder, the encoder and the command's number.
-/
namespace Sys2Proof

/-- The tuple read back from its number. -/
theorem ofBits_toBits (c : Command) : Command.ofBits c.toBits = c := by
  obtain ⟨w, a, b, t⟩ := c
  have e : (t ++ b ++ a ++ w : BitVec 52).toNat
      = ((t.toNat * 2 ^ 8 + b.toNat) * 2 ^ 32 + a.toNat) * 2 ^ 8 + w.toNat := by
    simp only [BitVec.toNat_append, Nat.shiftLeft_eq]
    rw [Nat.mul_comm, Nat.mul_comm _ (2 ^ 32), Nat.mul_comm _ (2 ^ 8),
      ← Nat.two_pow_add_eq_or_of_lt b.isLt, ← Nat.two_pow_add_eq_or_of_lt a.isLt,
      ← Nat.two_pow_add_eq_or_of_lt w.isLt]
    omega
  simp only [Command.ofBits, Command.toBits, Command.mk.injEq, e]
  refine ⟨?_, ?_, ?_, ?_⟩ <;> apply BitVec.eq_of_toNat_eq <;>
    simp only [BitVec.toNat_ofNat, Nat.shiftRight_eq_div_pow] <;> omega

/-! The table of rule R67. -/

@[simp] theorem decodeWord_rdu8 : decodeWord 0x01#8 = some .rdu8 := by decide
@[simp] theorem decodeWord_rdu16 : decodeWord 0x02#8 = some .rdu16 := by decide
@[simp] theorem decodeWord_rdu32 : decodeWord 0x03#8 = some .rdu32 := by decide
@[simp] theorem decodeWord_rdvbi : decodeWord 0x04#8 = some .rdvbi := by decide
@[simp] theorem decodeWord_rdhdr : decodeWord 0x05#8 = some .rdhdr := by decide
@[simp] theorem decodeWord_ptfrom : decodeWord 0x06#8 = some .ptfrom := by decide
@[simp] theorem decodeWord_wru8 : decodeWord 0x09#8 = some .wru8 := by decide
@[simp] theorem decodeWord_wru16 : decodeWord 0x0A#8 = some .wru16 := by decide
@[simp] theorem decodeWord_wru32 : decodeWord 0x0B#8 = some .wru32 := by decide
@[simp] theorem decodeWord_wrvbi : decodeWord 0x0C#8 = some .wrvbi := by decide
@[simp] theorem decodeWord_wrhdr : decodeWord 0x0D#8 = some .wrhdr := by decide
@[simp] theorem decodeWord_ptto : decodeWord 0x0E#8 = some .ptto := by decide

/-- A tuple decodes to a command when its word selects one. -/
theorem decode_of_decodeWord {c : Command} {o : Opcode} (h : decodeWord c.w = some o) :
    decode c = .instr (o.withOperands c) := by simp [decode, h]

/-- A tuple with a reserved word is rejected by name. -/
theorem decode_of_reserved {c : Command} (h : decodeWord c.w = none) :
    decode c = .reserved c.w := by simp [decode, h]

/-- Only a word that selects a command decodes to one. -/
theorem decode_instr_iff {c : Command} {i : Instr} :
    decode c = .instr i ↔ ∃ o, decodeWord c.w = some o ∧ i = o.withOperands c := by
  rcases h : decodeWord c.w with _ | o
  · simp [decode, h]
  · simp [decode, h, eq_comm]

/-- The width check is the condition that the bits above the type's width are 0 (rule R68). -/
theorem fits_eight (a : Word) : fits 8 a = (a.extractLsb' 8 24 == 0) := by
  rw [fits, Bool.eq_iff_iff, decide_eq_true_iff, beq_iff_eq, ← BitVec.toNat_inj]
  simp [BitVec.extractLsb'_toNat, Nat.shiftRight_eq_div_pow]
  omega

/-- The width check is the condition that the bits above the type's width are 0 (rule R68). -/
theorem fits_sixteen (a : Word) : fits 16 a = (a.extractLsb' 16 16 == 0) := by
  rw [fits, Bool.eq_iff_iff, decide_eq_true_iff, beq_iff_eq, ← BitVec.toNat_inj]
  simp [BitVec.extractLsb'_toNat, Nat.shiftRight_eq_div_pow]
  omega

end Sys2Proof
end

