-- ==== Sys2Proof/Laws/State.lean ====
section
/-!
SUPPORT. For each named update of State one lemma a field: what the field is afterwards. Later proofs
cite these and unfold no record update.
-/
namespace Sys2Proof.Machine

variable {E : Type}

/-! ### The state after reset -/

@[simp] theorem initial_ust : (State.initial E).ust = .idle := rfl
@[simp] theorem initial_cmd : (State.initial E).cmd = none := rfl
@[simp] theorem initial_dp : (State.initial E).dp = ⟨0, 0, 0, 0, 0⟩ := rfl
@[simp] theorem initial_pend : (State.initial E).pend = none := rfl
@[simp] theorem initial_place : (State.initial E).place = .start := rfl
@[simp] theorem initial_rsp :
    (State.initial E).rsp = ⟨false, none, none, none, none, none, none⟩ := rfl
@[simp] theorem initial_chan : (State.initial E).chan = ⟨some 0, [], [], [], []⟩ := rfl
@[simp] theorem initial_chunks : (State.initial E).chunks = [] := rfl
@[simp] theorem initial_port : (State.initial E).port = [] := rfl
@[simp] theorem initial_agenda : (State.initial E).agenda = [] := rfl
@[simp] theorem initial_readout : (State.initial E).readout = none := rfl
@[simp] theorem initial_marks : (State.initial E).marks = [] := rfl
@[simp] theorem reset_ust : State.reset.ust = .idle := rfl
@[simp] theorem reset_cmd : State.reset.cmd = none := rfl
@[simp] theorem reset_dp : State.reset.dp = ⟨0, 0, 0, 0, 0⟩ := rfl
@[simp] theorem reset_pend : State.reset.pend = none := rfl
@[simp] theorem reset_place : State.reset.place = .start := rfl
@[simp] theorem reset_rsp : State.reset.rsp = ⟨false, none, none, none, none, none, none⟩ := rfl
@[simp] theorem reset_chan : State.reset.chan = ⟨some 0, [], [], [], []⟩ := rfl
@[simp] theorem reset_chunks : State.reset.chunks = [] := rfl
@[simp] theorem reset_port : State.reset.port = [] := rfl
@[simp] theorem reset_agenda : State.reset.agenda = [] := rfl
@[simp] theorem reset_readout : State.reset.readout = none := rfl
@[simp] theorem reset_marks : State.reset.marks = [] := rfl

/-! ### A change of the channel's error values -/

section Rename

variable {E' : Type} (f : E → E') (s : State E)

@[simp] theorem renameState_ust : (Safety.renameState f s).ust = s.ust := rfl
@[simp] theorem renameState_cmd : (Safety.renameState f s).cmd = s.cmd := rfl
@[simp] theorem renameState_dp : (Safety.renameState f s).dp = s.dp := rfl
@[simp] theorem renameState_pend : (Safety.renameState f s).pend = s.pend := rfl
@[simp] theorem renameState_place : (Safety.renameState f s).place = s.place := rfl
@[simp] theorem renameState_rsp : (Safety.renameState f s).rsp =
    { s.rsp with err := s.rsp.err.map f } := rfl
@[simp] theorem renameState_chan : (Safety.renameState f s).chan =
    { s.chan with
      reads := s.chan.reads.map (Safety.renameRead f)
      writes := s.chan.writes.map (Safety.renameWrite f) } := rfl
@[simp] theorem renameState_chunks : (Safety.renameState f s).chunks = s.chunks := rfl
@[simp] theorem renameState_port : (Safety.renameState f s).port = s.port := rfl
@[simp] theorem renameState_agenda : (Safety.renameState f s).agenda = s.agenda := rfl
@[simp] theorem renameState_readout : (Safety.renameState f s).readout =
    s.readout.map (Safety.renameReading f) := rfl
@[simp] theorem renameState_marks : (Safety.renameState f s).marks = s.marks := rfl

end Rename

/-! ### `State.accept` -/

@[simp] theorem accept_ust (s : State E) (c : Command) (ws : List Command) :
    (s.accept c ws).ust = .busy := rfl
@[simp] theorem accept_cmd (s : State E) (c : Command) (ws : List Command) :
    (s.accept c ws).cmd = some c := rfl
@[simp] theorem accept_dp (s : State E) (c : Command) (ws : List Command) :
    (s.accept c ws).dp = s.dp := rfl
@[simp] theorem accept_pend (s : State E) (c : Command) (ws : List Command) :
    (s.accept c ws).pend = none := rfl
@[simp] theorem accept_place (s : State E) (c : Command) (ws : List Command) :
    (s.accept c ws).place = .start := rfl
@[simp] theorem accept_rsp (s : State E) (c : Command) (ws : List Command) :
    (s.accept c ws).rsp
      = { s.rsp with valid := false, value := none, pt := none, flags := none, len := none, err := none } := rfl
@[simp] theorem accept_chan (s : State E) (c : Command) (ws : List Command) :
    (s.accept c ws).chan = s.chan := rfl
@[simp] theorem accept_chunks (s : State E) (c : Command) (ws : List Command) :
    (s.accept c ws).chunks = s.chunks := rfl
@[simp] theorem accept_port (s : State E) (c : Command) (ws : List Command) :
    (s.accept c ws).port = ws := rfl
@[simp] theorem accept_agenda (s : State E) (c : Command) (ws : List Command) :
    (s.accept c ws).agenda = s.agenda := rfl
@[simp] theorem accept_readout (s : State E) (c : Command) (ws : List Command) :
    (s.accept c ws).readout = s.readout := rfl
@[simp] theorem accept_marks (s : State E) (c : Command) (ws : List Command) :
    (s.accept c ws).marks = s.marks := rfl

/-! ### `State.finish` -/

@[simp] theorem finish_ust (s : State E) (e : Ending E) : (s.finish e).ust = .idle := rfl
@[simp] theorem finish_cmd (s : State E) (e : Ending E) : (s.finish e).cmd = s.cmd := rfl
@[simp] theorem finish_dp (s : State E) (e : Ending E) : (s.finish e).dp = s.dp := rfl
@[simp] theorem finish_pend (s : State E) (e : Ending E) : (s.finish e).pend = none := rfl
@[simp] theorem finish_place (s : State E) (e : Ending E) : (s.finish e).place = .start := rfl
@[simp] theorem finish_rsp (s : State E) (e : Ending E) :
    (s.finish e).rsp
      = { s.rsp with valid := true, status := some e.code, err := e.errAfter s.rsp.err } := rfl
@[simp] theorem finish_chan (s : State E) (e : Ending E) : (s.finish e).chan = s.chan := rfl
@[simp] theorem finish_chunks (s : State E) (e : Ending E) : (s.finish e).chunks = s.chunks := rfl
@[simp] theorem finish_port (s : State E) (e : Ending E) : (s.finish e).port = s.port := rfl
@[simp] theorem finish_agenda (s : State E) (e : Ending E) : (s.finish e).agenda = s.agenda := rfl
@[simp] theorem finish_readout (s : State E) (e : Ending E) : (s.finish e).readout = s.readout := rfl
@[simp] theorem finish_marks (s : State E) (e : Ending E) :
    (s.finish e).marks = s.marks ++ e.marks := rfl

/-! ### `State.complete` -/

@[simp] theorem complete_ust (s : State E) : (s.complete).ust = .idle := rfl
@[simp] theorem complete_cmd (s : State E) : (s.complete).cmd = s.cmd := rfl
@[simp] theorem complete_dp (s : State E) : (s.complete).dp = s.dp := rfl
@[simp] theorem complete_pend (s : State E) : (s.complete).pend = none := rfl
@[simp] theorem complete_place (s : State E) : (s.complete).place = .start := rfl
@[simp] theorem complete_rsp (s : State E) :
    (s.complete).rsp = { s.rsp with valid := true, status := some 0 } := rfl
@[simp] theorem complete_chan (s : State E) : (s.complete).chan = s.chan := rfl
@[simp] theorem complete_chunks (s : State E) : (s.complete).chunks = s.chunks := rfl
@[simp] theorem complete_port (s : State E) : (s.complete).port = s.port := rfl
@[simp] theorem complete_agenda (s : State E) : (s.complete).agenda = s.agenda := rfl
@[simp] theorem complete_readout (s : State E) : (s.complete).readout = s.readout := rfl
@[simp] theorem complete_marks (s : State E) : (s.complete).marks = s.marks := by simp [State.complete, State.finish, Ending.marks]

/-! ### `State.setValue` -/

@[simp] theorem setValue_ust (s : State E) (v : Word) : (s.setValue v).ust = s.ust := rfl
@[simp] theorem setValue_cmd (s : State E) (v : Word) : (s.setValue v).cmd = s.cmd := rfl
@[simp] theorem setValue_dp (s : State E) (v : Word) : (s.setValue v).dp = s.dp := rfl
@[simp] theorem setValue_pend (s : State E) (v : Word) : (s.setValue v).pend = s.pend := rfl
@[simp] theorem setValue_place (s : State E) (v : Word) : (s.setValue v).place = s.place := rfl
@[simp] theorem setValue_rsp (s : State E) (v : Word) :
    (s.setValue v).rsp = { s.rsp with value := some v } := rfl
@[simp] theorem setValue_chan (s : State E) (v : Word) : (s.setValue v).chan = s.chan := rfl
@[simp] theorem setValue_chunks (s : State E) (v : Word) : (s.setValue v).chunks = s.chunks := rfl
@[simp] theorem setValue_port (s : State E) (v : Word) : (s.setValue v).port = s.port := rfl
@[simp] theorem setValue_agenda (s : State E) (v : Word) : (s.setValue v).agenda = s.agenda := rfl
@[simp] theorem setValue_readout (s : State E) (v : Word) : (s.setValue v).readout = s.readout := rfl
@[simp] theorem setValue_marks (s : State E) (v : Word) : (s.setValue v).marks = s.marks := rfl

/-! ### `State.setPt` -/

@[simp] theorem setPt_ust (s : State E) (t : Nibble) : (s.setPt t).ust = s.ust := rfl
@[simp] theorem setPt_cmd (s : State E) (t : Nibble) : (s.setPt t).cmd = s.cmd := rfl
@[simp] theorem setPt_dp (s : State E) (t : Nibble) : (s.setPt t).dp = s.dp := rfl
@[simp] theorem setPt_pend (s : State E) (t : Nibble) : (s.setPt t).pend = s.pend := rfl
@[simp] theorem setPt_place (s : State E) (t : Nibble) : (s.setPt t).place = s.place := rfl
@[simp] theorem setPt_rsp (s : State E) (t : Nibble) :
    (s.setPt t).rsp = { s.rsp with pt := some t } := rfl
@[simp] theorem setPt_chan (s : State E) (t : Nibble) : (s.setPt t).chan = s.chan := rfl
@[simp] theorem setPt_chunks (s : State E) (t : Nibble) : (s.setPt t).chunks = s.chunks := rfl
@[simp] theorem setPt_port (s : State E) (t : Nibble) : (s.setPt t).port = s.port := rfl
@[simp] theorem setPt_agenda (s : State E) (t : Nibble) : (s.setPt t).agenda = s.agenda := rfl
@[simp] theorem setPt_readout (s : State E) (t : Nibble) : (s.setPt t).readout = s.readout := rfl
@[simp] theorem setPt_marks (s : State E) (t : Nibble) : (s.setPt t).marks = s.marks := rfl

/-! ### `State.setHeader` -/

@[simp] theorem setHeader_ust (s : State E) (t f : Nibble) (v : Word) :
    (s.setHeader t f v).ust = s.ust := rfl
@[simp] theorem setHeader_cmd (s : State E) (t f : Nibble) (v : Word) :
    (s.setHeader t f v).cmd = s.cmd := rfl
@[simp] theorem setHeader_dp (s : State E) (t f : Nibble) (v : Word) :
    (s.setHeader t f v).dp = s.dp := rfl
@[simp] theorem setHeader_pend (s : State E) (t f : Nibble) (v : Word) :
    (s.setHeader t f v).pend = s.pend := rfl
@[simp] theorem setHeader_place (s : State E) (t f : Nibble) (v : Word) :
    (s.setHeader t f v).place = s.place := rfl
@[simp] theorem setHeader_rsp (s : State E) (t f : Nibble) (v : Word) :
    (s.setHeader t f v).rsp = { s.rsp with pt := some t, flags := some f, len := some v } := rfl
@[simp] theorem setHeader_chan (s : State E) (t f : Nibble) (v : Word) :
    (s.setHeader t f v).chan = s.chan := rfl
@[simp] theorem setHeader_chunks (s : State E) (t f : Nibble) (v : Word) :
    (s.setHeader t f v).chunks = s.chunks := rfl
@[simp] theorem setHeader_port (s : State E) (t f : Nibble) (v : Word) :
    (s.setHeader t f v).port = s.port := rfl
@[simp] theorem setHeader_agenda (s : State E) (t f : Nibble) (v : Word) :
    (s.setHeader t f v).agenda = s.agenda := rfl
@[simp] theorem setHeader_readout (s : State E) (t f : Nibble) (v : Word) :
    (s.setHeader t f v).readout = s.readout := rfl
@[simp] theorem setHeader_marks (s : State E) (t f : Nibble) (v : Word) :
    (s.setHeader t f v).marks = s.marks := rfl

/-! ### `State.issue` -/

@[simp] theorem issue_ust (s : State E) (r : Request) (p : Place) : (s.issue r p).ust = s.ust := rfl
@[simp] theorem issue_cmd (s : State E) (r : Request) (p : Place) : (s.issue r p).cmd = s.cmd := rfl
@[simp] theorem issue_dp (s : State E) (r : Request) (p : Place) : (s.issue r p).dp = s.dp := rfl
@[simp] theorem issue_pend (s : State E) (r : Request) (p : Place) :
    (s.issue r p).pend = some r := rfl
@[simp] theorem issue_place (s : State E) (r : Request) (p : Place) : (s.issue r p).place = p := rfl
@[simp] theorem issue_rsp (s : State E) (r : Request) (p : Place) : (s.issue r p).rsp = s.rsp := rfl
@[simp] theorem issue_chan (s : State E) (r : Request) (p : Place) :
    (s.issue r p).chan = s.chan := rfl
@[simp] theorem issue_chunks (s : State E) (r : Request) (p : Place) :
    (s.issue r p).chunks = s.chunks := rfl
@[simp] theorem issue_port (s : State E) (r : Request) (p : Place) :
    (s.issue r p).port = s.port := rfl
@[simp] theorem issue_agenda (s : State E) (r : Request) (p : Place) :
    (s.issue r p).agenda = s.agenda := rfl
@[simp] theorem issue_readout (s : State E) (r : Request) (p : Place) :
    (s.issue r p).readout = s.readout := rfl
@[simp] theorem issue_marks (s : State E) (r : Request) (p : Place) :
    (s.issue r p).marks = s.marks := rfl

/-! ### `State.answered` -/

@[simp] theorem answered_ust (s : State E) (c : Channel E) : (s.answered c).ust = s.ust := rfl
@[simp] theorem answered_cmd (s : State E) (c : Channel E) : (s.answered c).cmd = s.cmd := rfl
@[simp] theorem answered_dp (s : State E) (c : Channel E) : (s.answered c).dp = s.dp := rfl
@[simp] theorem answered_pend (s : State E) (c : Channel E) : (s.answered c).pend = none := rfl
@[simp] theorem answered_place (s : State E) (c : Channel E) : (s.answered c).place = s.place := rfl
@[simp] theorem answered_rsp (s : State E) (c : Channel E) : (s.answered c).rsp = s.rsp := rfl
@[simp] theorem answered_chan (s : State E) (c : Channel E) : (s.answered c).chan = c := rfl
@[simp] theorem answered_chunks (s : State E) (c : Channel E) : (s.answered c).chunks = s.chunks := rfl
@[simp] theorem answered_port (s : State E) (c : Channel E) : (s.answered c).port = s.port := rfl
@[simp] theorem answered_agenda (s : State E) (c : Channel E) : (s.answered c).agenda = s.agenda := rfl
@[simp] theorem answered_readout (s : State E) (c : Channel E) :
    (s.answered c).readout = s.readout := rfl
@[simp] theorem answered_marks (s : State E) (c : Channel E) : (s.answered c).marks = s.marks := rfl

/-! ### `State.issueField` -/

@[simp] theorem issueField_ust (s : State E) (bs : List Byte) : (s.issueField bs).ust = s.ust := rfl
@[simp] theorem issueField_cmd (s : State E) (bs : List Byte) : (s.issueField bs).cmd = s.cmd := rfl
@[simp] theorem issueField_dp (s : State E) (bs : List Byte) : (s.issueField bs).dp = s.dp := rfl
@[simp] theorem issueField_pend (s : State E) (bs : List Byte) :
    (s.issueField bs).pend = some (.write (bs.take (s.chunkSize bs.length))) := rfl
@[simp] theorem issueField_place (s : State E) (bs : List Byte) :
    (s.issueField bs).place = .field (bs.drop (s.chunkSize bs.length)) := rfl
@[simp] theorem issueField_rsp (s : State E) (bs : List Byte) : (s.issueField bs).rsp = s.rsp := rfl
@[simp] theorem issueField_chan (s : State E) (bs : List Byte) :
    (s.issueField bs).chan = s.chan := rfl
@[simp] theorem issueField_chunks (s : State E) (bs : List Byte) :
    (s.issueField bs).chunks = s.chunks.tail := rfl
@[simp] theorem issueField_port (s : State E) (bs : List Byte) :
    (s.issueField bs).port = s.port := rfl
@[simp] theorem issueField_agenda (s : State E) (bs : List Byte) :
    (s.issueField bs).agenda = s.agenda := rfl
@[simp] theorem issueField_readout (s : State E) (bs : List Byte) :
    (s.issueField bs).readout = s.readout := rfl
@[simp] theorem issueField_marks (s : State E) (bs : List Byte) :
    (s.issueField bs).marks = s.marks := rfl

/-! ### `State.issueDigits` -/

@[simp] theorem issueDigits_ust (s : State E) : (s.issueDigits).ust = s.ust := rfl
@[simp] theorem issueDigits_cmd (s : State E) : (s.issueDigits).cmd = s.cmd := rfl
@[simp] theorem issueDigits_dp (s : State E) :
    (s.issueDigits).dp = { s.dp with veX := (vbiChunk (s.chunkSize 1) s.dp.veX).2 } := rfl
@[simp] theorem issueDigits_pend (s : State E) :
    (s.issueDigits).pend = some (.write (vbiChunk (s.chunkSize 1) s.dp.veX).1) := rfl
@[simp] theorem issueDigits_place (s : State E) : (s.issueDigits).place = .digit := rfl
@[simp] theorem issueDigits_rsp (s : State E) : (s.issueDigits).rsp = s.rsp := rfl
@[simp] theorem issueDigits_chan (s : State E) : (s.issueDigits).chan = s.chan := rfl
@[simp] theorem issueDigits_chunks (s : State E) : (s.issueDigits).chunks = s.chunks.tail := rfl
@[simp] theorem issueDigits_port (s : State E) : (s.issueDigits).port = s.port := rfl
@[simp] theorem issueDigits_agenda (s : State E) : (s.issueDigits).agenda = s.agenda := rfl
@[simp] theorem issueDigits_readout (s : State E) : (s.issueDigits).readout = s.readout := rfl
@[simp] theorem issueDigits_marks (s : State E) : (s.issueDigits).marks = s.marks := rfl

/-! ### `State.accumulate` -/

@[simp] theorem accumulate_ust (s : State E) (e : Byte) : (s.accumulate e).ust = s.ust := rfl
@[simp] theorem accumulate_cmd (s : State E) (e : Byte) : (s.accumulate e).cmd = s.cmd := rfl
@[simp] theorem accumulate_dp (s : State E) (e : Byte) :
    (s.accumulate e).dp = { s.dp with vdValue := s.dp.vdValue + digitOf e * s.dp.vdMult } := rfl
@[simp] theorem accumulate_pend (s : State E) (e : Byte) : (s.accumulate e).pend = s.pend := rfl
@[simp] theorem accumulate_place (s : State E) (e : Byte) : (s.accumulate e).place = s.place := rfl
@[simp] theorem accumulate_rsp (s : State E) (e : Byte) : (s.accumulate e).rsp = s.rsp := rfl
@[simp] theorem accumulate_chan (s : State E) (e : Byte) : (s.accumulate e).chan = s.chan := rfl
@[simp] theorem accumulate_chunks (s : State E) (e : Byte) : (s.accumulate e).chunks = s.chunks := rfl
@[simp] theorem accumulate_port (s : State E) (e : Byte) : (s.accumulate e).port = s.port := rfl
@[simp] theorem accumulate_agenda (s : State E) (e : Byte) : (s.accumulate e).agenda = s.agenda := rfl
@[simp] theorem accumulate_readout (s : State E) (e : Byte) :
    (s.accumulate e).readout = s.readout := rfl
@[simp] theorem accumulate_marks (s : State E) (e : Byte) : (s.accumulate e).marks = s.marks := rfl

/-! ### `State.scale` -/

@[simp] theorem scale_ust (s : State E) : (s.scale).ust = s.ust := rfl
@[simp] theorem scale_cmd (s : State E) : (s.scale).cmd = s.cmd := rfl
@[simp] theorem scale_dp (s : State E) :
    (s.scale).dp = { s.dp with vdMult := s.dp.vdMult * 128 } := rfl
@[simp] theorem scale_pend (s : State E) : (s.scale).pend = s.pend := rfl
@[simp] theorem scale_place (s : State E) : (s.scale).place = s.place := rfl
@[simp] theorem scale_rsp (s : State E) : (s.scale).rsp = s.rsp := rfl
@[simp] theorem scale_chan (s : State E) : (s.scale).chan = s.chan := rfl
@[simp] theorem scale_chunks (s : State E) : (s.scale).chunks = s.chunks := rfl
@[simp] theorem scale_port (s : State E) : (s.scale).port = s.port := rfl
@[simp] theorem scale_agenda (s : State E) : (s.scale).agenda = s.agenda := rfl
@[simp] theorem scale_readout (s : State E) : (s.scale).readout = s.readout := rfl
@[simp] theorem scale_marks (s : State E) : (s.scale).marks = s.marks := rfl

/-! ### `State.beginDecode` -/

@[simp] theorem beginDecode_ust (s : State E) : (s.beginDecode).ust = s.ust := rfl
@[simp] theorem beginDecode_cmd (s : State E) : (s.beginDecode).cmd = s.cmd := rfl
@[simp] theorem beginDecode_dp (s : State E) :
    (s.beginDecode).dp = { s.dp with vdValue := 0, vdMult := 1 } := rfl
@[simp] theorem beginDecode_pend (s : State E) : (s.beginDecode).pend = some (.read .u8) := rfl
@[simp] theorem beginDecode_place (s : State E) : (s.beginDecode).place = .digit := rfl
@[simp] theorem beginDecode_rsp (s : State E) : (s.beginDecode).rsp = s.rsp := rfl
@[simp] theorem beginDecode_chan (s : State E) : (s.beginDecode).chan = s.chan := rfl
@[simp] theorem beginDecode_chunks (s : State E) : (s.beginDecode).chunks = s.chunks := rfl
@[simp] theorem beginDecode_port (s : State E) : (s.beginDecode).port = s.port := rfl
@[simp] theorem beginDecode_agenda (s : State E) : (s.beginDecode).agenda = s.agenda := rfl
@[simp] theorem beginDecode_readout (s : State E) : (s.beginDecode).readout = s.readout := rfl
@[simp] theorem beginDecode_marks (s : State E) : (s.beginDecode).marks = s.marks := rfl

/-! ### `State.latchControl` -/

@[simp] theorem latchControl_ust (s : State E) (c : Byte) : (s.latchControl c).ust = s.ust := rfl
@[simp] theorem latchControl_cmd (s : State E) (c : Byte) : (s.latchControl c).cmd = s.cmd := rfl
@[simp] theorem latchControl_dp (s : State E) (c : Byte) :
    (s.latchControl c).dp
      = { s.dp with hdrPt := (PacketType.fromBits (c >>> 4)).code, hdrFlags := flagsNibble c } := rfl
@[simp] theorem latchControl_pend (s : State E) (c : Byte) : (s.latchControl c).pend = s.pend := rfl
@[simp] theorem latchControl_place (s : State E) (c : Byte) :
    (s.latchControl c).place = s.place := rfl
@[simp] theorem latchControl_rsp (s : State E) (c : Byte) : (s.latchControl c).rsp = s.rsp := rfl
@[simp] theorem latchControl_chan (s : State E) (c : Byte) : (s.latchControl c).chan = s.chan := rfl
@[simp] theorem latchControl_chunks (s : State E) (c : Byte) :
    (s.latchControl c).chunks = s.chunks := rfl
@[simp] theorem latchControl_port (s : State E) (c : Byte) : (s.latchControl c).port = s.port := rfl
@[simp] theorem latchControl_agenda (s : State E) (c : Byte) :
    (s.latchControl c).agenda = s.agenda := rfl
@[simp] theorem latchControl_readout (s : State E) (c : Byte) :
    (s.latchControl c).readout = s.readout := rfl
@[simp] theorem latchControl_marks (s : State E) (c : Byte) :
    (s.latchControl c).marks = s.marks := rfl

/-! ### `State.resetUnit` -/

@[simp] theorem resetUnit_ust (s : State E) (d : Datapath) (k : Nat) :
    (s.resetUnit d k).ust = .idle := rfl
@[simp] theorem resetUnit_cmd (s : State E) (d : Datapath) (k : Nat) :
    (s.resetUnit d k).cmd = none := rfl
@[simp] theorem resetUnit_dp (s : State E) (d : Datapath) (k : Nat) : (s.resetUnit d k).dp = d := rfl
@[simp] theorem resetUnit_pend (s : State E) (d : Datapath) (k : Nat) :
    (s.resetUnit d k).pend = none := rfl
@[simp] theorem resetUnit_place (s : State E) (d : Datapath) (k : Nat) :
    (s.resetUnit d k).place = .start := rfl
@[simp] theorem resetUnit_rsp (s : State E) (d : Datapath) (k : Nat) :
    (s.resetUnit d k).rsp = ⟨false, none, none, none, none, none, none⟩ := rfl
@[simp] theorem resetUnit_chan (s : State E) (d : Datapath) (k : Nat) :
    (s.resetUnit d k).chan = s.chan.abandon s.pend k := rfl
@[simp] theorem resetUnit_chunks (s : State E) (d : Datapath) (k : Nat) :
    (s.resetUnit d k).chunks = s.chunks := rfl
@[simp] theorem resetUnit_port (s : State E) (d : Datapath) (k : Nat) :
    (s.resetUnit d k).port = [] := rfl
@[simp] theorem resetUnit_agenda (s : State E) (d : Datapath) (k : Nat) :
    (s.resetUnit d k).agenda = s.agenda := rfl
@[simp] theorem resetUnit_readout (s : State E) (d : Datapath) (k : Nat) :
    (s.resetUnit d k).readout = s.readout := rfl
@[simp] theorem resetUnit_marks (s : State E) (d : Datapath) (k : Nat) :
    (s.resetUnit d k).marks = s.marks := rfl

/-! ### Ending a command -/

/-- `return` is `Sys2Proof.Safety.ended` with the response made valid and OK. -/
theorem complete_eq_ended (s : State E) :
    s.complete = Safety.ended s { s.rsp with valid := true, status := some 0 } := by
  simp [State.complete, State.finish, Safety.ended, Ending.code, Ending.errAfter, Ending.marks]

/-- MalformedPacket ends a command with code 1 and nothing else. -/
theorem finish_malformed_eq_ended (s : State E) :
    s.finish .malformed = Safety.ended s { s.rsp with valid := true, status := some 1 } := by
  simp [State.finish, Safety.ended, Ending.code, Ending.errAfter, Ending.marks]

/-- Transport(e) ends a command with code 2 and e. -/
theorem finish_transport_eq_ended (s : State E) (e : E) :
    s.finish (.transport e)
      = Safety.ended s { s.rsp with valid := true, status := some 2, err := some e } := by
  simp [State.finish, Safety.ended, Ending.code, Ending.errAfter, Ending.marks]

/-- Between its last answer and its end a command has nothing pending. -/
theorem ended_answered (s : State E) (c : Channel E) (r : Response E) :
    Safety.ended (s.answered c) r = Safety.ended { s with chan := c } r := rfl

end Sys2Proof.Machine
end

