-- ==== Sys2Proof/Laws/Ops.lean ====
section
/-!
SUPPORT. What the shared operations can do, said once each: the channel's answers, waiting on a request,
and the caller's reads. Meanings are proved about through these lemmas.
-/
namespace Sys2Proof.Machine

variable {E : Type}

/-! ### The channel -/

/-- A width has at least one byte and at most four. -/
theorem Width.bytes_pos (w : Width) : 0 < w.bytes := by cases w <;> decide

/-- Everything a read request can come to: no answer and at most a passed turn, all the bytes asked
for from the front of the stream, or an error and at most that many bytes gone. -/
theorem answerRead_cases (n : Nat) (c : Channel E) :
    (∃ r, r <:+ c.reads ∧ c.answerRead n = (none, { c with reads := r })) ∨
    (∃ r, c.reads = .serve :: r ∧ n ≤ c.input.length ∧
      c.answerRead n = (some (.ok (c.input.take n)), { c with input := c.input.drop n, reads := r })) ∨
    (∃ k r, c.reads = .eof k :: r ∧
      c.answerRead n = (some .eof, { c with input := c.input.drop (min k n), reads := r })) ∨
    (∃ e k r, c.reads = .err e k :: r ∧
      c.answerRead n = (some (.err e), { c with input := c.input.drop (min k n), reads := r })) := by
  unfold Channel.answerRead
  split
  · exact .inl ⟨c.reads, List.suffix_refl _, rfl⟩
  · next r h => exact .inl ⟨r, h ▸ List.suffix_cons _ _, rfl⟩
  · next r h =>
    split
    · next hn => exact .inr (.inl ⟨r, h, hn, rfl⟩)
    · exact .inl ⟨c.reads, List.suffix_refl _, rfl⟩
  · next k r h => exact .inr (.inr (.inl ⟨k, r, h, rfl⟩))
  · next e k r h => exact .inr (.inr (.inr ⟨e, k, r, h, rfl⟩))

/-- Everything a write request can come to: no answer and at most a passed turn, all its bytes on the
stream, or an error and some first ones of them. -/
theorem answerWrite_cases (bs : List Byte) (c : Channel E) :
    (∃ r, r <:+ c.writes ∧ c.answerWrite bs = (none, { c with writes := r })) ∨
    (∃ r, c.writes = .accept :: r ∧
      c.answerWrite bs = (some .ok, { c with output := c.output ++ bs, writes := r })) ∨
    (∃ e k r, c.writes = .err e k :: r ∧
      c.answerWrite bs = (some (.err e), { c with output := c.output ++ bs.take k, writes := r })) := by
  unfold Channel.answerWrite
  split
  · exact .inl ⟨c.writes, List.suffix_refl _, rfl⟩
  · next r h => exact .inl ⟨r, h ▸ List.suffix_cons _ _, rfl⟩
  · next r h => exact .inr (.inl ⟨r, h, rfl⟩)
  · next e k r h => exact .inr (.inr ⟨e, k, r, h, rfl⟩)

/-! ### Waiting on a request -/

variable {s t : State E} {w : Width} {bs : List Byte}

/-- A channel with no answer to give leaves the state as it is. -/
theorem awaitRead_silent (k : List Byte → State E → Result E) (hp : s.pend = some (.read w))
    (hr : s.chan.reads = []) : awaitRead s k = .next s := by
  simp only [awaitRead, hp, Channel.answerRead, hr]; rw [← hp]

/-- A turn the channel lets pass is used up, and that is all. -/
theorem awaitRead_wait (k : List Byte → State E → Result E) {more : List (ReadVerdict E)}
    (hp : s.pend = some (.read w)) (hr : s.chan.reads = .wait :: more) :
    awaitRead s k = .next { s with chan := { s.chan with reads := more } } := by
  simp [awaitRead, hp, Channel.answerRead, hr]

/-- Served bytes go to the rest of the command (rule R37, `Ok`). -/
theorem awaitRead_serve (k : List Byte → State E → Result E) {more : List (ReadVerdict E)} {rest : List Byte}
    (hp : s.pend = some (.read w)) (hr : s.chan.reads = .serve :: more)
    (hi : s.chan.input = bs ++ rest) (hl : bs.length = w.bytes) :
    awaitRead s k = k bs (s.answered { s.chan with input := rest, reads := more }) := by
  simp [awaitRead, hp, Channel.answerRead, hr, Channel.take, hi, ← hl]

/-- `Eof` ends the command with MalformedPacket (rule R37). -/
theorem awaitRead_eof (k : List Byte → State E → Result E) {more : List (ReadVerdict E)} {n : Nat}
    (hp : s.pend = some (.read w)) (hr : s.chan.reads = .eof n :: more) :
    awaitRead s k = raise .malformed (s.answered
      { s.chan with input := s.chan.input.drop (min n w.bytes), reads := more }) := by
  simp [awaitRead, hp, Channel.answerRead, hr, Channel.take]

/-- `Err(e)` ends the command with Transport(e) (rule R37). -/
theorem awaitRead_err (k : List Byte → State E → Result E) {more : List (ReadVerdict E)} {n : Nat}
    {e : E} (hp : s.pend = some (.read w)) (hr : s.chan.reads = .err e n :: more) :
    awaitRead s k = raise (.transport e) (s.answered
      { s.chan with input := s.chan.input.drop (min n w.bytes), reads := more }) := by
  simp [awaitRead, hp, Channel.answerRead, hr, Channel.take]

/-- A channel with no answer to give leaves the state as it is. -/
theorem awaitWrite_silent (k : State E → Result E) (hp : s.pend = some (.write bs))
    (hr : s.chan.writes = []) : awaitWrite s k = .next s := by
  simp only [awaitWrite, hp, Channel.answerWrite, hr]; rw [← hp]

/-- A turn the channel lets pass is used up, and that is all. -/
theorem awaitWrite_wait (k : State E → Result E) {more : List (WriteVerdict E)}
    (hp : s.pend = some (.write bs)) (hr : s.chan.writes = .wait :: more) :
    awaitWrite s k = .next { s with chan := { s.chan with writes := more } } := by
  simp [awaitWrite, hp, Channel.answerWrite, hr]

/-- Accepted bytes are on the output stream, and the command goes on (rule R38, `Ok`). -/
theorem awaitWrite_accept (k : State E → Result E) {more : List (WriteVerdict E)}
    (hp : s.pend = some (.write bs)) (hr : s.chan.writes = .accept :: more) :
    awaitWrite s k
      = k (s.answered { s.chan with output := s.chan.output ++ bs, writes := more }) := by
  simp [awaitWrite, hp, Channel.answerWrite, hr, Channel.put]

/-- `Err(e)` ends the command with Transport(e) (rule R38). -/
theorem awaitWrite_err (k : State E → Result E) {more : List (WriteVerdict E)} {n : Nat} {e : E}
    (hp : s.pend = some (.write bs)) (hr : s.chan.writes = .err e n :: more) :
    awaitWrite s k = raise (.transport e) (s.answered
      { s.chan with output := s.chan.output ++ bs.take n, writes := more }) := by
  simp [awaitWrite, hp, Channel.answerWrite, hr, Channel.put]

/-- Everything a wait on a read can come to: a fault when none is pending, the same state but for
passed turns, the rest of the command, or one of the two errors. -/
theorem awaitRead_cases (s : State E) (k : List Byte → State E → Result E) :
    awaitRead s k = .fault .lostPlace ∧ (∀ w, s.pend ≠ some (.read w)) ∨
    ∃ w, s.pend = some (.read w) ∧
      ((∃ r, r <:+ s.chan.reads ∧
          awaitRead s k = .next { s with chan := { s.chan with reads := r } }) ∨
       (∃ bs rest r, s.chan.reads = .serve :: r ∧ s.chan.input = bs ++ rest ∧ bs.length = w.bytes ∧
          awaitRead s k = k bs (s.answered { s.chan with input := rest, reads := r })) ∨
       (∃ n r, s.chan.reads = .eof n :: r ∧ awaitRead s k = raise .malformed (s.answered
          { s.chan with input := s.chan.input.drop (min n w.bytes), reads := r })) ∨
       (∃ e n r, s.chan.reads = .err e n :: r ∧ awaitRead s k = raise (.transport e) (s.answered
          { s.chan with input := s.chan.input.drop (min n w.bytes), reads := r }))) := by
  rcases hp : s.pend with _ | (w | bs)
  · exact .inl ⟨by simp [awaitRead, hp], by simp⟩
  · refine .inr ⟨w, rfl, ?_⟩
    rcases answerRead_cases w.bytes s.chan with ⟨r, hr, h⟩ | ⟨r, hr, hn, h⟩ | ⟨n, r, hr, -⟩ |
      ⟨e, n, r, hr, -⟩
    · exact .inl ⟨r, hr, by simp [awaitRead, hp, h]⟩
    · have hl : (s.chan.input.take w.bytes).length = w.bytes := by simp [hn]
      exact .inr (.inl ⟨_, _, r, hr, (List.take_append_drop w.bytes _).symm, hl,
        awaitRead_serve k hp hr (List.take_append_drop w.bytes _).symm hl⟩)
    · exact .inr (.inr (.inl ⟨n, r, hr, awaitRead_eof k hp hr⟩))
    · exact .inr (.inr (.inr ⟨e, n, r, hr, awaitRead_err k hp hr⟩))
  · exact .inl ⟨by simp [awaitRead, hp], by simp⟩

/-- Everything a wait on a write can come to: a fault when none is pending, the same state but for
passed turns, the rest of the command, or Transport(e). -/
theorem awaitWrite_cases (s : State E) (k : State E → Result E) :
    awaitWrite s k = .fault .lostPlace ∧ (∀ bs, s.pend ≠ some (.write bs)) ∨
    ∃ bs, s.pend = some (.write bs) ∧
      ((∃ r, r <:+ s.chan.writes ∧
          awaitWrite s k = .next { s with chan := { s.chan with writes := r } }) ∨
       (∃ r, s.chan.writes = .accept :: r ∧ awaitWrite s k = k (s.answered
          { s.chan with output := s.chan.output ++ bs, writes := r })) ∨
       (∃ e n r, s.chan.writes = .err e n :: r ∧ awaitWrite s k = raise (.transport e) (s.answered
          { s.chan with output := s.chan.output ++ bs.take n, writes := r }))) := by
  rcases hp : s.pend with _ | (w | bs)
  · exact .inl ⟨by simp [awaitWrite, hp], by simp⟩
  · exact .inl ⟨by simp [awaitWrite, hp], by simp⟩
  · refine .inr ⟨bs, rfl, ?_⟩
    rcases answerWrite_cases bs s.chan with ⟨r, hr, h⟩ | ⟨r, hr, -⟩ | ⟨e, n, r, hr, -⟩
    · exact .inl ⟨r, hr, by simp [awaitWrite, hp, h]⟩
    · exact .inr (.inl ⟨r, hr, awaitWrite_accept k hp hr⟩)
    · exact .inr (.inr ⟨e, n, r, hr, awaitWrite_err k hp hr⟩)

/-! ### Turns -/

/-- A unit's turn is what a turn is when the caller has nothing to do or lets the turn pass. -/
theorem turn_of_unitMoves (run : Instr → State E → Result E) {rest : List CallerAct} (h : Safety.UnitMoves s rest) :
    turn run s = unitTurn run { s with agenda := rest } := by
  rcases h with ⟨h, rfl⟩ | h
  · cases s; simp_all [turn]
  · simp [turn, h, callerTurn]

/-- Everything a turn can be: a unit's turn, a presented command, a read, a reset. -/
theorem turn_cases (run : Instr → State E → Result E) (s : State E) :
    (∃ rest, Safety.UnitMoves s rest ∧ turn run s = unitTurn run { s with agenda := rest }) ∨
    (∃ c rest, s.agenda = .present c :: rest ∧
      turn run s = .next { s with agenda := rest, port := s.port ++ [c] }) ∨
    (∃ r rest, s.agenda = .read r :: rest ∧
      ((∃ v, s.readRsp r = .next v ∧
          turn run s = .next { s with agenda := rest, readout := some v }) ∨
       ((∃ f, s.readRsp r = .fault f ∧ turn run s = .fault f) ∨
        (∃ f, s.readRsp r = .refused f ∧ turn run s = .refused f)))) ∨
    (∃ d k rest, s.agenda = .reset d k :: rest ∧
      turn run s = .next (State.resetUnit d k { s with agenda := rest })) := by
  rcases h : s.agenda with _ | ⟨act, rest⟩
  · exact .inl ⟨[], .inl ⟨h, rfl⟩, turn_of_unitMoves run (.inl ⟨h, rfl⟩)⟩
  · cases act with
    | present c => exact .inr (.inl ⟨c, rest, rfl, by simp [turn, h, callerTurn]⟩)
    | read r =>
      refine .inr (.inr (.inl ⟨r, rest, rfl, ?_⟩))
      have e : State.readRsp r { s with agenda := rest } = s.readRsp r := rfl
      rcases hr : s.readRsp r with v | f | f
      · exact .inl ⟨v, rfl, by simp [turn, h, callerTurn, e, hr]⟩
      · exact .inr (.inl ⟨f, rfl, by simp [turn, h, callerTurn, e, hr]⟩)
      · exact .inr (.inr ⟨f, rfl, by simp [turn, h, callerTurn, e, hr]⟩)
    | reset d k => exact .inr (.inr (.inr ⟨d, k, rest, rfl, by simp [turn, h, callerTurn]⟩))
    | pass => exact .inl ⟨rest, .inr h, turn_of_unitMoves run (.inr h)⟩

/-! ### Steps -/

@[simp] theorem stopAtMarks_fault (s : State E) (f : Fault) :
    stopAtMarks s (.fault f) = .fault f := rfl
@[simp] theorem stopAtMarks_refused (s : State E) (r : Refusal) :
    stopAtMarks s (.refused r) = .refused r := rfl

/-- A turn that leaves no mark is a step. -/
theorem stopAtMarks_next (h : t.marks = s.marks) : stopAtMarks s (.next t) = .next t := by
  simp [stopAtMarks, h]

/-- A turn that leaves the mark of an IllegalCommand is refused (rule R106). -/
theorem stopAtMarks_illegalCommand (h : t.marks = s.marks ++ [.illegalCommand]) :
    stopAtMarks s (.next t) = .refused .illegalCommand := by
  simp [stopAtMarks, h]

/-- A turn that leaves the mark of an EncDomain is a fault (rule R107). -/
theorem stopAtMarks_encDomain (h : t.marks = s.marks ++ [.encDomain]) :
    stopAtMarks s (.next t) = .fault .encDomain := by
  simp [stopAtMarks, h]

/-- A step that answers a next state is the turn, and no mark came up. -/
theorem stopAtMarks_eq_next {r : Result E} :
    stopAtMarks s r = .next t ↔ r = .next t ∧ t.marks.drop s.marks.length = [] := by
  rcases r with u | f | f
  · constructor
    · intro h
      simp only [stopAtMarks] at h
      split at h
      · cases h; exact ⟨rfl, ‹_›⟩
      · cases h
      · cases h
    · rintro ⟨h, hm⟩
      cases h
      simp [stopAtMarks, hm]
  · simp
  · simp

/-- A step is the unit's turn, stopped at its marks, when the caller has nothing to do or lets the
turn pass. -/
theorem step_of_unitMoves {s : State} {rest : List CallerAct} (h : Safety.UnitMoves s rest) :
    step s = stopAtMarks s (unitTurn exec { s with agenda := rest }) := by
  rw [step, turn_of_unitMoves exec h]

/-- Everything a step can be: a unit's turn stopped at its marks, a presented command, a read, a
reset. -/
theorem step_cases (s : State) :
    (∃ rest, Safety.UnitMoves s rest ∧
      step s = stopAtMarks s (unitTurn exec { s with agenda := rest })) ∨
    (∃ c rest, s.agenda = .present c :: rest ∧
      step s = .next { s with agenda := rest, port := s.port ++ [c] }) ∨
    (∃ r rest, s.agenda = .read r :: rest ∧
      ((∃ v, s.readRsp r = .next v ∧
          step s = .next { s with agenda := rest, readout := some v }) ∨
       ((∃ f, s.readRsp r = .fault f ∧ step s = .fault f) ∨
        (∃ f, s.readRsp r = .refused f ∧ step s = .refused f)))) ∨
    (∃ d k rest, s.agenda = .reset d k :: rest ∧
      step s = .next (State.resetUnit d k { s with agenda := rest })) := by
  rcases turn_cases exec s with ⟨rest, h, e⟩ | ⟨c, rest, h, e⟩ | ⟨r, rest, h, e⟩ | ⟨d, k, rest, h, e⟩
  · exact .inl ⟨rest, h, by rw [step, e]⟩
  · exact .inr (.inl ⟨c, rest, h, by rw [step, e]; exact stopAtMarks_next rfl⟩)
  · refine .inr (.inr (.inl ⟨r, rest, h, ?_⟩))
    rcases e with ⟨v, hv, e⟩ | ⟨f, hf, e⟩ | ⟨f, hf, e⟩
    · exact .inl ⟨v, hv, by rw [step, e]; exact stopAtMarks_next rfl⟩
    · exact .inr (.inl ⟨f, hf, by rw [step, e, stopAtMarks_fault]⟩)
    · exact .inr (.inr ⟨f, hf, by rw [step, e, stopAtMarks_refused]⟩)
  · exact .inr (.inr (.inr ⟨d, k, rest, h, by rw [step, e]; exact stopAtMarks_next rfl⟩))

/-! ### Several units -/

/-- Everything a step of the system that answers a next state can be: the channels are apart, the
unit is there, and its own turn is put in its place. -/
theorem System.step_eq_next {numUnits k : Nat} {sys sys' : System E numUnits} :
    sys.step k = .next sys' ↔ sys.channelsApart = true ∧ ∃ (h : k < numUnits) (t : State E),
      stepOf sys.units[k] = .next t ∧ sys' = { sys with units := sys.units.set k t } := by
  unfold System.step
  split
  next ha =>
    split
    next hk =>
      rcases he : stepOf sys.units[k] with t | f | r
      · simp [ha, hk, he, eq_comm]
      · simp [he]
      · simp [he]
    next hk => simp [hk]
  next ha => simp [ha]

end Sys2Proof.Machine
end

