-- ==== Sys2Proof/Laws/Wire.lean ====
section
/-!
SUPPORT. Lemmas of the wire formats: one VBI byte, and runs of them.
-/
namespace Sys2Proof.Machine

open Sys2Proof.Safety

variable {E : Type}

/-! ### One VBI byte -/

/-- The remaining quotient after one byte is the quotient by 128. -/
theorem toNat_shift_seven (x : Word) : (x >>> 7).toNat = x.toNat / 128 := by
  simp [BitVec.toNat_ushiftRight, Nat.shiftRight_eq_div_pow]

/-- The quotient is 0 exactly below 128. -/
theorem shift_seven_eq_zero {x : Word} : x >>> 7 = 0 ↔ x.toNat < 128 := by
  rw [← BitVec.toNat_inj, toNat_shift_seven]; simp

/-- The last byte of an encoding is the quotient itself (rule R84). -/
theorem vbiByte_last {x : Word} (h : x.toNat < 128) : (vbiByte x).toNat = x.toNat := by
  have hx := shift_seven_eq_zero.mpr h
  simp only [vbiByte, hx, if_true]
  simp [BitVec.extractLsb'_toNat, Nat.mod_eq_of_lt h]
  omega

/-- Every other byte is its digit with bit 7 set (rule R84). -/
theorem vbiByte_more {x : Word} (h : ¬ x.toNat < 128) :
    (vbiByte x).toNat = 128 + x.toNat % 128 := by
  have hx : ¬ x >>> 7 = 0 := fun e => h (shift_seven_eq_zero.mp e)
  simp only [vbiByte, hx, if_false]
  have hd : x.toNat % 128 < 2 ^ 7 := Nat.mod_lt _ (by decide)
  have h2 := Nat.two_pow_add_eq_or_of_lt hd 1
  have h3 : x.toNat % 128 % 256 = x.toNat % 128 := Nat.mod_eq_of_lt (by omega)
  simp [BitVec.extractLsb'_toNat, h3]
  simpa using h2.symm

/-- The continuation bit is the top bit (rule R56). -/
theorem continues_iff (e : Byte) : continues e = true ↔ 128 ≤ e.toNat := by
  have h := e.isLt
  rw [continues, BitVec.getLsbD, Nat.testBit_eq_decide_div_mod_eq]
  simp
  omega

/-- The encoder's byte asks for another exactly when the quotient does not vanish (rule R84). -/
theorem continues_vbiByte (x : Word) : continues (vbiByte x) = true ↔ ¬ x.toNat < 128 := by
  rw [continues_iff]
  by_cases h : x.toNat < 128
  · simp [vbiByte_last h, h]
  · simp [vbiByte_more h, h]

/-- The encoder's byte carries the low digit (rule R84). -/
theorem vbiByte_digit (x : Word) : (vbiByte x).toNat % 128 = x.toNat % 128 := by
  by_cases h : x.toNat < 128
  · rw [vbiByte_last h]
  · rw [vbiByte_more h]; omega

/-- The digit as a number. -/
theorem toNat_digitOf (e : Byte) : (digitOf e).toNat = e.toNat % 128 := by
  have h : e.toNat % 128 < 128 := Nat.mod_lt _ (by decide)
  simp [digitOf, BitVec.extractLsb'_toNat]
  omega

/-! ### Runs of VBI bytes -/

/-- One more byte (rule R84). -/
theorem vbiChunk_succ (n : Nat) (x : Word) :
    vbiChunk (n + 1) x =
      if x.toNat < 128 then ([vbiByte x], (0 : Word))
      else (vbiByte x :: (vbiChunk n (x >>> 7)).1, (vbiChunk n (x >>> 7)).2) := by
  simp [vbiChunk, ← shift_seven_eq_zero]

/-- Enough bytes use the quotient up. -/
theorem vbiChunk_exhausts {n : Nat} {x : Word} (h : x.toNat < 128 ^ (n + 1)) :
    (vbiChunk (n + 1) x).2 = 0 := by
  induction n generalizing x with
  | zero => rw [vbiChunk_succ, if_pos (by simpa using h)]
  | succ n ih =>
    rw [vbiChunk_succ]
    split
    · rfl
    · apply ih
      rw [toNat_shift_seven, Nat.div_lt_iff_lt_mul (by decide), ← Nat.pow_succ]
      exact h

/-- The quotient never grows (rule R87). -/
theorem vbiChunk_le (n : Nat) (x : Word) : (vbiChunk n x).2.toNat ≤ x.toNat := by
  induction n generalizing x with
  | zero => exact Nat.le_refl _
  | succ n ih =>
    rw [vbiChunk_succ]
    split
    · simp
    · exact Nat.le_trans (ih _) (by rw [toNat_shift_seven]; omega)

/-- A run of at least one byte is not empty. -/
theorem vbiChunk_ne_nil (n : Nat) (x : Word) : (vbiChunk (n + 1) x).1 ≠ [] := by
  rw [vbiChunk_succ]; split <;> simp

/-- A run of `m + 1 + n` bytes is one of `m + 1` and, if that leaves a quotient, one of `n`. -/
theorem vbiChunk_add (m n : Nat) (x : Word) :
    vbiChunk (m + 1 + n) x =
      if (vbiChunk (m + 1) x).2 = 0 then ((vbiChunk (m + 1) x).1, (0 : Word))
      else ((vbiChunk (m + 1) x).1 ++ (vbiChunk n (vbiChunk (m + 1) x).2).1,
        (vbiChunk n (vbiChunk (m + 1) x).2).2) := by
  induction m generalizing x with
  | zero =>
    rw [show 0 + 1 + n = n + 1 by omega, vbiChunk_succ, vbiChunk_succ]
    by_cases h : x.toNat < 128
    · simp [h]
    · have hx : ¬ x >>> 7 = 0 := fun e => h (shift_seven_eq_zero.mp e)
      simp only [h, if_false, vbiChunk, hx, List.cons_append, List.nil_append]
  | succ m ih =>
    rw [show m + 1 + 1 + n = (m + 1 + n) + 1 by omega, vbiChunk_succ, vbiChunk_succ (m + 1), ih]
    by_cases h : x.toNat < 128
    · simp [h]
    · simp only [h, if_false]
      split <;> simp

/-- Bytes beyond those the quotient needs add none. -/
theorem vbiChunk_stable {n : Nat} {x : Word} (h : x.toNat < 128 ^ (n + 1)) (j : Nat) :
    vbiChunk (n + 1 + j) x = vbiChunk (n + 1) x := by
  rw [vbiChunk_add, if_pos (vbiChunk_exhausts h)]
  exact Prod.ext rfl (vbiChunk_exhausts h).symm

/-- Each byte divides the quotient by 128. -/
theorem vbiChunk_quotient_le (n : Nat) (x : Word) :
    (vbiChunk n x).2.toNat ≤ x.toNat / 128 ^ n := by
  induction n generalizing x with
  | zero => simp [vbiChunk]
  | succ n ih =>
    rw [vbiChunk_succ]
    split
    · simp
    · refine Nat.le_trans (ih _) ?_
      rw [toNat_shift_seven, Nat.div_div_eq_div_mul, Nat.pow_succ, Nat.mul_comm]

/-- An encoding is the bytes of its first request, however many, and what the quotient they leave
still needs (rules R45, R84). -/
theorem vbiEncoding_split (n : Nat) (x : Word) (h : x.toNat ≤ Config.vbiMax) :
    (vbiChunk (n + 1) x).1 ++ vbiRest (vbiChunk (n + 1) x).2 = vbiEncoding x := by
  have hx : x.toNat < 128 ^ (3 + 1) := by simp [Config.vbiMax] at h; omega
  have henc : vbiEncoding x = (vbiChunk (3 + 1) x).1 := rfl
  by_cases hn : 3 ≤ n
  · obtain ⟨j, rfl⟩ := Nat.exists_eq_add_of_le hn
    rw [show 3 + j + 1 = 3 + 1 + j by omega, vbiChunk_stable hx, henc, vbiChunk_exhausts hx]
    simp [vbiRest]
  · obtain ⟨j, hj⟩ : ∃ j, 3 + 1 = n + 1 + (j + 1) := ⟨2 - n, by omega⟩
    rw [henc, hj, vbiChunk_add]
    split
    · next h0 => simp [vbiRest, h0]
    · next h0 =>
      have hq := vbiChunk_quotient_le (n + 1) x
      have hz : (vbiChunk (n + 1) x).2.toNat < 128 ^ (j + 1) := by
        refine Nat.lt_of_le_of_lt hq ?_
        rw [Nat.div_lt_iff_lt_mul (by positivity), ← Nat.pow_add]
        rwa [hj, Nat.add_comm] at hx
      have : vbiEncoding (vbiChunk (n + 1) x).2 = (vbiChunk (j + 1) (vbiChunk (n + 1) x).2).1 := by
        have e := vbiChunk_stable hz (n + 1)
        rw [show j + 1 + (n + 1) = 3 + 1 by omega] at e
        exact congrArg Prod.fst e
      rw [vbiRest, if_neg h0, this]

/-! ### Fixed-width fields -/

/-- One more byte of a field, its bits below those of `v` (rule R55). -/
theorem toNat_field_byte (v : Word) (b : Byte) (h : v.toNat < 2 ^ 24) :
    ((v <<< 8) ||| b.setWidth 32).toNat = v.toNat * 256 + b.toNat := by
  have hb : b.toNat < 2 ^ 8 := b.isLt
  have h2 := Nat.two_pow_add_eq_or_of_lt hb v.toNat
  have h3 : v.toNat <<< 8 % 4294967296 = 2 ^ 8 * v.toNat := by rw [Nat.shiftLeft_eq]; omega
  rw [BitVec.toNat_or]
  simp only [BitVec.toNat_shiftLeft, BitVec.toNat_setWidth]
  rw [show (2 : Nat) ^ 32 = 4294967296 from rfl, h3, Nat.mod_eq_of_lt (a := b.toNat) (by omega),
    ← h2]
  omega

/-- One more byte at the low end. -/
theorem toNat_append_byte {n : Nat} (x : BitVec n) (b : Byte) :
    (x ++ b).toNat = x.toNat * 256 + b.toNat := by
  have hb : b.toNat < 2 ^ 8 := b.isLt
  have h2 := Nat.two_pow_add_eq_or_of_lt hb x.toNat
  rw [BitVec.toNat_append, Nat.shiftLeft_eq, Nat.mul_comm, ← h2]

/-- An 8-bit field is its byte (rule R54). -/
theorem fieldValue_one (b0 : Byte) : fieldValue [b0] = b0.setWidth 32 := by simp [fieldValue]

/-- A 16-bit field (rule R55). -/
theorem fieldValue_two (b0 b1 : Byte) : fieldValue [b0, b1] = (b0 ++ b1).setWidth 32 := by
  apply BitVec.eq_of_toNat_eq
  have hz : ∀ x : Word, (0 : Word) <<< 8 ||| x = x := fun x => by simp
  have h0 := b0.isLt
  have e0 : (b0.setWidth 32).toNat = b0.toNat := by simp; omega
  simp only [fieldValue, List.foldl_cons, List.foldl_nil, hz]
  rw [toNat_field_byte _ _ (by rw [e0]; omega), e0, BitVec.toNat_setWidth, toNat_append_byte]
  omega

/-- A 32-bit field (rule R55). -/
theorem fieldValue_four (b0 b1 b2 b3 : Byte) :
    fieldValue [b0, b1, b2, b3] = (b0 ++ b1 ++ b2 ++ b3).setWidth 32 := by
  apply BitVec.eq_of_toNat_eq
  have hz : ∀ x : Word, (0 : Word) <<< 8 ||| x = x := fun x => by simp
  have h0 := b0.isLt
  have h1 := b1.isLt
  have h2 := b2.isLt
  have e0 : (b0.setWidth 32).toNat = b0.toNat := by simp; omega
  have e1 := toNat_field_byte (b0.setWidth 32) b1 (by rw [e0]; omega)
  have e2 := toNat_field_byte _ b2 (by rw [e1, e0]; omega)
  have e3 := toNat_field_byte _ b3 (by rw [e2, e1, e0]; omega)
  simp only [fieldValue, List.foldl_cons, List.foldl_nil, hz]
  rw [e3, e2, e1, e0, BitVec.toNat_setWidth, toNat_append_byte, toNat_append_byte,
    toNat_append_byte]
  omega

/-- Reading the bytes of a field gives back every value that the width holds (rule R79). -/
theorem fieldValue_fieldBytes (w : Width) (v : Word) (h : v.toNat < 2 ^ (8 * w.bytes)) :
    fieldValue (fieldBytes w v) = v := by
  apply BitVec.eq_of_toNat_eq
  cases w <;> simp only [Width.bytes] at h <;>
    simp only [fieldBytes, fieldValue_one, fieldValue_two, fieldValue_four] <;>
    simp [BitVec.toNat_setWidth, BitVec.extractLsb'_toNat, Nat.shiftRight_eq_div_pow,
      toNat_append_byte] <;>
    omega

/-! ### VBI encodings as data -/

/-- A run of VBI bytes of any length: the continuation bit set in all but the last (rule R57). -/
inductive VbiRun : List Byte → Prop where
  | last (e : Byte) : continues e = false → VbiRun [e]
  | more (e : Byte) (es : List Byte) : continues e = true → VbiRun es → VbiRun (e :: es)

/-- A run has a first byte. -/
theorem VbiRun.ne_nil {es : List Byte} (h : VbiRun es) : es ≠ [] := by cases h <;> simp

/-- A run has at least one byte. -/
theorem VbiRun.exists_length {es : List Byte} (h : VbiRun es) : ∃ n, es.length = n + 1 := by
  cases h <;> simp

/-- An encoding is a run of at most four bytes. -/
theorem isVbi_iff (es : List Byte) : IsVbi es ↔ VbiRun es ∧ es.length ≤ 4 := by
  constructor
  · rintro ⟨h1, h4, hc, hl⟩
    refine ⟨?_, h4⟩
    clear h4
    induction es with
    | nil => simp at h1
    | cons e es ih =>
      cases es with
      | nil => exact .last e (hl e (by simp))
      | cons f fs =>
        exact .more e _ (hc e (by simp)) (ih (by simp) (fun x hx => hc x (by simp [hx]))
          (fun x hx => hl x (by simpa using hx)))
  · rintro ⟨hv, h4⟩
    refine ⟨by obtain ⟨n, hn⟩ := hv.exists_length; omega, h4, ?_, ?_⟩ <;> clear h4
    · induction hv with
      | last e h => simp
      | more e es h hv ih =>
        obtain ⟨f, fs, rfl⟩ := List.exists_cons_of_ne_nil hv.ne_nil
        intro x hx
        simp at hx
        rcases hx with rfl | hx
        · exact h
        · exact ih x hx
    · induction hv with
      | last e h => simpa using h
      | more e es h hv ih =>
        obtain ⟨f, fs, rfl⟩ := List.exists_cons_of_ne_nil hv.ne_nil
        simpa using ih

/-- A run of k bytes is worth less than 128^k (rule R87). -/
theorem vbiValue_lt {es : List Byte} (h : VbiRun es) : vbiValue es < 128 ^ es.length := by
  induction h with
  | last e h => simp [vbiValue]; omega
  | more e es h hv ih => simp only [vbiValue, List.length_cons, Nat.pow_succ]; omega

/-- The value of an encoding fits its register and the range of a VBI (rules R29, R87). -/
theorem toNat_vbiValue {es : List Byte} (hv : VbiRun es) (h4 : es.length ≤ 4) :
    (BitVec.ofNat 32 (vbiValue es)).toNat = vbiValue es ∧ vbiValue es ≤ Config.vbiMax := by
  have := vbiValue_lt hv
  have h : 128 ^ es.length ≤ 128 ^ 4 := Nat.pow_le_pow_right (by decide) h4
  simp [Config.vbiMax]
  omega

/-- What the encoder emits of a quotient it can use up: a canonical run worth the quotient. -/
theorem vbiChunk_run (n : Nat) (x : Word) (h : x.toNat < 128 ^ (n + 1)) :
    VbiRun (vbiChunk (n + 1) x).1 ∧ vbiValue (vbiChunk (n + 1) x).1 = x.toNat ∧
      (vbiChunk (n + 1) x).1.length ≤ n + 1 ∧ Canonical (vbiChunk (n + 1) x).1 := by
  have one : ∀ y : Word, y.toNat < 128 →
      VbiRun [vbiByte y] ∧ vbiValue [vbiByte y] = y.toNat := fun y hy => by
    refine ⟨.last _ ?_, by simp [vbiValue, vbiByte_last hy, Nat.mod_eq_of_lt hy]⟩
    simpa [hy] using (continues_vbiByte y).not
  induction n generalizing x with
  | zero =>
    have hx : x.toNat < 128 := by simpa using h
    rw [vbiChunk_succ, if_pos hx]
    exact ⟨(one x hx).1, (one x hx).2, by simp, by simp [Canonical]⟩
  | succ n ih =>
    by_cases hx : x.toNat < 128
    · rw [vbiChunk_succ, if_pos hx]
      exact ⟨(one x hx).1, (one x hx).2, by simp, by simp [Canonical]⟩
    · rw [vbiChunk_succ, if_neg hx]
      have hy : (x >>> 7).toNat < 128 ^ (n + 1) := by
        rw [toNat_shift_seven, Nat.div_lt_iff_lt_mul (by decide), ← Nat.pow_succ]; exact h
      obtain ⟨hv, he, hl, hc⟩ := ih (x >>> 7) hy
      refine ⟨.more _ _ ((continues_vbiByte x).mpr hx) hv, ?_, by simpa using hl, .inr ?_⟩
      · simp only [vbiValue, vbiByte_digit, he, toNat_shift_seven]; omega
      · obtain ⟨f, fs, hf⟩ := List.exists_cons_of_ne_nil hv.ne_nil
        rw [hf] at hc he ⊢
        simp only [List.getLast?_cons_cons]
        rcases hc with hc | hc
        · simp at hc
          subst hc
          simp [vbiValue] at he ⊢
          intro e0
          subst e0
          simp at he
          omega
        · exact hc

/-- A canonical run of n + 1 bytes is worth at least 128^n, unless it is one byte (rule R58). -/
theorem VbiRun.le_value {es : List Byte} {n : Nat} (h : VbiRun es) (hc : Canonical es)
    (hl : es.length = n + 1) : n = 0 ∨ 128 ^ n ≤ vbiValue es := by
  induction h generalizing n with
  | last e h => left; simpa using hl.symm
  | more e es h hv ih =>
    right
    obtain ⟨f, fs, rfl⟩ := List.exists_cons_of_ne_nil hv.ne_nil
    have hc' : (f :: fs).getLast? ≠ some 0 := by
      rcases hc with hc | hc
      · simp at hc
      · simpa using hc
    simp only [List.length_cons] at hl ih
    obtain ⟨m, rfl⟩ : ∃ m, n = m + 1 := ⟨n - 1, by omega⟩
    rcases ih (n := m) (.inr hc') (by omega) with rfl | h'
    · have : fs = [] := by simpa using hl
      subst this
      simp [vbiValue] at hc' ⊢
      have : f.toNat ≠ 0 := fun h0 => hc' (BitVec.eq_of_toNat_eq (by simpa using h0))
      have h2 := f.isLt
      cases hv with
      | last _ hf =>
        have := (continues_iff f).not
        simp [hf] at this
        omega
      | more _ _ _ hh => exact absurd rfl hh.ne_nil
    · simp only [vbiValue] at h' ⊢
      rw [Nat.pow_succ]
      omega

/-- Runs of one length and one value are the same bytes. -/
theorem VbiRun.unique {es fs : List Byte} (h : VbiRun es) (h' : VbiRun fs)
    (hl : es.length = fs.length) (he : vbiValue es = vbiValue fs) : es = fs := by
  induction h generalizing fs with
  | last e h =>
    cases h' with
    | last f h' =>
      simp [vbiValue] at he
      have h1 := (continues_iff e).not
      have h2 := (continues_iff f).not
      simp [h, h'] at h1 h2
      congr 1
      apply BitVec.eq_of_toNat_eq
      omega
    | more f fs _ hv => have := hv.ne_nil; simp at hl; simp_all
  | more e es h hv ih =>
    cases h' with
    | last f h' => have := hv.ne_nil; simp at hl; simp_all
    | more f fs h' hv' =>
      simp only [vbiValue] at he
      have h1 := (continues_iff e).mp h
      have h2 := (continues_iff f).mp h'
      have : e = f := by
        apply BitVec.eq_of_toNat_eq
        have a1 := e.isLt
        have a2 := f.isLt
        omega
      subst this
      rw [ih hv' (by simpa using hl) (by omega)]

/-- A canonical encoding has the length the table of rule R58 gives its value. -/
theorem VbiRun.length_eq {es : List Byte} (hv : VbiRun es) (hc : Canonical es)
    (h4 : es.length ≤ 4) : es.length = vbiLength (vbiValue es) := by
  have hlt := vbiValue_lt hv
  obtain ⟨n, hn⟩ := hv.exists_length
  have := hv.le_value hc hn
  rw [hn] at hlt
  unfold vbiLength
  have : n = 0 ∨ n = 1 ∨ n = 2 ∨ n = 3 := by omega
  rcases this with rfl | rfl | rfl | rfl <;> simp at * <;> (repeat' split) <;> omega

/-- The step-down of a value in the domain is its canonical encoding (rules R84, R86). -/
theorem canonical_vbiEncoding (v : Word) (h : v.toNat ≤ Config.vbiMax) :
    CanonicalEncoding v.toNat (vbiEncoding v) := by
  obtain ⟨hv, he, hl, hc⟩ := vbiChunk_run 3 v (by simp [Config.vbiMax] at h; omega)
  exact ⟨(isVbi_iff _).mpr ⟨hv, hl⟩, hc, he, he ▸ hv.length_eq hc hl⟩

end Sys2Proof.Machine
end

