-- ==== Sys2Proof/Laws/Drive.lean ====
section
/-!
SUPPORT. What the loops of the commands come to when the channel answers every request: the decoder,
the encoder and the fixed-width fields, from any point of theirs.
-/
namespace Sys2Proof.Machine

open Sys2Proof.Safety
open Sys2Proof.Config (vbiMax)

variable {E : Type}

/-! ### The decoder -/

/-- The digit as the number the sum of rule R57 has. -/
theorem digitOf_eq (e : Byte) : digitOf e = BitVec.ofNat 32 (e.toNat % 128) := by
  apply BitVec.eq_of_toNat_eq
  rw [toNat_digitOf]
  simp
  omega

/-- The decoder, asking for a byte with at most `n` more to come, over a run it can read whole. -/
theorem driveDecode_serve (report : State E → State E) {es : List Byte} {n : Nat} {s : State E}
    {rest : List Byte} {more : List (ReadVerdict E)} (hv : VbiRun es) (hn : es.length ≤ n) (h4 : n ≤ 4)
    (hm : s.dp.vdMult = BitVec.ofNat 32 (128 ^ (4 - n))) (hp : s.pend = some (.read .u8))
    (hpl : s.place = .digit) (hi : s.chan.input = es ++ rest)
    (hr : s.chan.reads = List.replicate es.length .serve ++ more) :
    driveDecode report n s = .next (report { s with
      pend := none
      dp := { s.dp with
        vdValue := s.dp.vdValue + BitVec.ofNat 32 (vbiValue es) * s.dp.vdMult
        vdMult := s.dp.vdMult * BitVec.ofNat 32 (128 ^ (es.length - 1)) }
      chan := { s.chan with input := rest, reads := more } }).complete := by
  induction hv generalizing n s with
  | last e h =>
    obtain ⟨n, rfl⟩ : ∃ m, n = m + 1 := ⟨n - 1, by simp at hn; omega⟩
    rw [driveDecode, awaitRead_serve (bs := [e]) (rest := rest) (more := more) _ hp
      (by simpa using hr) (by simpa using hi) rfl]
    simp [h, vbiValue, State.accumulate, State.answered, digitOf_eq]
  | more e es h hv ih =>
    obtain ⟨n, rfl⟩ : ∃ m, n = m + 1 := ⟨n - 1, by simp at hn; omega⟩
    obtain ⟨k, hk⟩ := hv.exists_length
    have hn' : n = 1 ∨ n = 2 ∨ n = 3 := by simp at hn; omega
    have hne : s.dp.vdMult ≠ Config.topMult := by
      rw [hm]; rcases hn' with rfl | rfl | rfl <;> decide
    rw [driveDecode, awaitRead_serve (bs := [e]) (rest := es ++ rest)
      (more := List.replicate es.length .serve ++ more) _ hp
      (by simpa [List.replicate_succ] using hr) (by simpa using hi) rfl]
    simp only [List.headD_cons, h, Bool.true_eq_false, if_false, accumulate_dp, answered_dp, hne]
    rw [ih (by simpa using hn) (by omega) (by
      simp only [issue_dp, scale_dp, accumulate_dp, answered_dp, hm]
      rcases hn' with rfl | rfl | rfl <;> decide) rfl rfl rfl rfl]
    have a1 : ∀ m v : Word, v + digitOf e * m + BitVec.ofNat 32 (vbiValue es) * (m * 128#32)
        = v + BitVec.ofNat 32 (vbiValue (e :: es)) * m := by
      intro m v
      rw [vbiValue, BitVec.ofNat_add, BitVec.ofNat_mul, digitOf_eq]; ring
    have a2 : ∀ m : Word, m * 128#32 * 128#32 ^ (es.length - 1) = m * 128#32 ^ es.length := by
      intro m; rw [hk]; simp [pow_succ]; ring
    simp [State.issue, State.scale, State.accumulate, State.answered, a1, a2, hpl]

/-! ### The encoder -/

/-- A write request carries at least one byte (rule R45). -/
theorem chunkSize_pos (s : State E) {r : Nat} (h : 0 < r) : ∃ c, s.chunkSize r = c + 1 := by
  unfold State.chunkSize
  split
  · exact ⟨r - 1, by omega⟩
  · next m _ _ => exact ⟨max 1 m - 1, by omega⟩

/-- The encoder, its next bytes pending and `n` more requests enough for the rest, whose requests
the channel accepts, under every chunking. -/
theorem driveEncode_accept {n : Nat} {s : State E} {now : List Byte} {more : List (WriteVerdict E)}
    (hp : s.pend = some (.write now)) (hx : s.dp.veX.toNat < 128 ^ n) (hn : n ≤ 4)
    (hw : s.chan.writes = List.replicate (n + 1) .accept ++ more) :
    ∃ k ch, k ≤ n ∧ driveEncode (n + 1) s = .next (ended
      { s with
        dp := { s.dp with veX := 0 }, chunks := ch
        chan := { s.chan with
          output := s.chan.output ++ now ++ vbiRest s.dp.veX
          writes := List.replicate k .accept ++ more } }
      { s.rsp with valid := true, status := some 0 }) := by
  induction n generalizing s now with
  | zero =>
    have h0 : s.dp.veX = 0 := BitVec.eq_of_toNat_eq (by simpa using hx)
    refine ⟨0, s.chunks, Nat.le_refl _, ?_⟩
    rw [driveEncode, awaitWrite_accept (bs := now) (more := more) _ hp (by simpa using hw)]
    simp [h0, complete_eq_ended, vbiRest, State.answered, ended]
    rw [show (0#32 : Word) = s.dp.veX from h0.symm]
  | succ n ih =>
    have hw' : s.chan.writes = .accept :: (List.replicate (n + 1) .accept ++ more) := by
      simpa [List.replicate_succ] using hw
    by_cases h0 : s.dp.veX = 0
    · refine ⟨n + 1, s.chunks, Nat.le_refl _, ?_⟩
      rw [driveEncode, awaitWrite_accept _ hp hw']
      simp [h0, complete_eq_ended, vbiRest, State.answered, ended]
      rw [show (0#32 : Word) = s.dp.veX from h0.symm]
    · let u := s.answered { s.chan with
        output := s.chan.output ++ now, writes := List.replicate (n + 1) .accept ++ more }
      obtain ⟨c, hc⟩ := chunkSize_pos u (r := 1) (by decide)
      have hmax : s.dp.veX.toNat ≤ vbiMax := by
        have : 128 ^ (n + 1) ≤ 128 ^ 4 := Nat.pow_le_pow_right (by decide) hn
        simp [vbiMax]; omega
      have hb : (vbiChunk (c + 1) s.dp.veX).2.toNat < 128 ^ n := by
        refine Nat.lt_of_le_of_lt (vbiChunk_quotient_le (c + 1) s.dp.veX) ?_
        rw [Nat.div_lt_iff_lt_mul (by positivity), ← Nat.pow_add]
        exact Nat.lt_of_lt_of_le hx (Nat.pow_le_pow_right (by decide) (by omega))
      obtain ⟨k, ch, hk, e⟩ := ih (s := u.issueDigits) (now := (vbiChunk (c + 1) s.dp.veX).1)
        (by simp [hc]; rfl) (by simp [hc]; exact hb) (by omega) rfl
      refine ⟨k, ch, by omega, ?_⟩
      rw [driveEncode, awaitWrite_accept _ hp hw']
      have hne : ¬ u.dp.veX = 0 := h0
      rw [if_neg hne, e]
      have hs := vbiEncoding_split c s.dp.veX hmax
      have hu : u.dp = s.dp := rfl
      simp [ended, hc, hu, vbiRest, ← hs]
      simp [u]
      exact fun h => absurd h h0

/-- `vbi_encode` of a value in the domain, whose requests the channel accepts, under every
chunking. -/
theorem beginEncode_accept (s : State E) (v : Word) {more : List (WriteVerdict E)} (hv : v.toNat ≤ vbiMax)
    (hw : s.chan.writes = List.replicate 4 .accept ++ more) :
    ∃ k ch, k ≤ 3 ∧ driveEncode 4 (s.beginEncode v) = .next (ended
      { s with
        dp := { s.dp with veX := 0 }, chunks := ch
        chan := { s.chan with
          output := s.chan.output ++ vbiEncoding v
          writes := List.replicate k .accept ++ more } }
      { s.rsp with valid := true, status := some 0 }) := by
  obtain ⟨c, hc⟩ := chunkSize_pos { s with dp := { s.dp with veX := v } } (r := 1) (by decide)
  have hb : (vbiChunk (c + 1) v).2.toNat < 128 ^ 3 := by
    refine Nat.lt_of_le_of_lt (vbiChunk_quotient_le (c + 1) v) ?_
    rw [Nat.div_lt_iff_lt_mul (by positivity), ← Nat.pow_add]
    have : 128 ^ 4 ≤ 128 ^ (3 + (c + 1)) := Nat.pow_le_pow_right (by decide) (by omega)
    simp [vbiMax] at hv
    omega
  obtain ⟨k, ch, hk, e⟩ := driveEncode_accept (n := 3) (s := s.beginEncode v)
    (now := (vbiChunk (c + 1) v).1) (more := more) (by simp [State.beginEncode, hc])
    (by simp [State.beginEncode, hc]; exact hb) (by omega) (by simpa [State.beginEncode] using hw)
  refine ⟨k, ch, hk, ?_⟩
  rw [e]
  have hs := vbiEncoding_split c v hv
  simp [State.beginEncode, ended, hc, ← hs]

/-- The encoder under the reference chunking: one request and one answer a byte (rule R92). -/
theorem driveEncode_reference {n : Nat} {s : State E} {e : Byte} {more : List (WriteVerdict E)}
    (hp : s.pend = some (.write [e])) (hx : s.dp.veX.toNat < 128 ^ n) (hn : n ≤ 4)
    (hc : s.chunks = [])
    (hw : s.chan.writes = List.replicate (1 + (vbiRest s.dp.veX).length) .accept ++ more) :
    driveEncode (n + 1) s = .next (ended
      { s with
        dp := { s.dp with veX := 0 }
        chan := { s.chan with
          output := s.chan.output ++ e :: vbiRest s.dp.veX, writes := more } }
      { s.rsp with valid := true, status := some 0 }) := by
  induction n generalizing s e with
  | zero =>
    have h0 : s.dp.veX = 0 := BitVec.eq_of_toNat_eq (by simpa using hx)
    rw [driveEncode, awaitWrite_accept (bs := [e]) (more := more) _ hp
      (by simpa [h0, vbiRest] using hw)]
    simp [h0, complete_eq_ended, vbiRest, State.answered, ended]
    rw [show (0#32 : Word) = s.dp.veX from h0.symm]
  | succ n ih =>
    by_cases h0 : s.dp.veX = 0
    · rw [driveEncode, awaitWrite_accept (bs := [e]) (more := more) _ hp
        (by simpa [h0, vbiRest] using hw)]
      simp [h0, complete_eq_ended, vbiRest, State.answered, ended]
      rw [show (0#32 : Word) = s.dp.veX from h0.symm]
    · have hmax : s.dp.veX.toNat ≤ vbiMax := by
        have : 128 ^ (n + 1) ≤ 128 ^ 4 := Nat.pow_le_pow_right (by decide) hn
        simp [vbiMax]; omega
      have hs := vbiEncoding_split 0 s.dp.veX hmax
      obtain ⟨f, hf⟩ : ∃ f, (vbiChunk 1 s.dp.veX).1 = [f] := by
        rw [vbiChunk_succ]; split <;> simp [vbiChunk]
      have hb : (vbiChunk 1 s.dp.veX).2.toNat < 128 ^ n := by
        refine Nat.lt_of_le_of_lt (vbiChunk_quotient_le 1 s.dp.veX) ?_
        rw [Nat.div_lt_iff_lt_mul (by positivity), ← Nat.pow_add]
        exact hx
      rw [hf] at hs
      have hr : vbiRest s.dp.veX = f :: vbiRest (vbiChunk 1 s.dp.veX).2 := by
        rw [vbiRest, if_neg h0, ← hs]; rfl
      let u := s.answered { s.chan with
        output := s.chan.output ++ [e]
        writes := List.replicate (1 + (vbiRest (vbiChunk 1 s.dp.veX).2).length) .accept ++ more }
      have hcs : u.chunkSize 1 = 1 := by simp [u, State.chunkSize, State.answered, hc]
      rw [driveEncode, awaitWrite_accept (bs := [e])
        (more := List.replicate (1 + (vbiRest (vbiChunk 1 s.dp.veX).2).length) .accept ++ more) _ hp
        (by rw [hw, hr, List.length_cons, Nat.add_comm 1, List.replicate_succ]
            simp [Nat.add_comm]), if_neg (by exact h0)]
      show driveEncode (n + 1) u.issueDigits = _
      rw [ih (s := u.issueDigits) (e := f)
        (by simp only [issueDigits_pend, hcs]; simp [u, hf])
        (by simpa [hcs, u] using hb) (by omega) (by simp [u, hc]) (by simp [u, State.chunkSize, hc])]
      simp [u, ended, State.chunkSize, State.answered, hc, hr]

/-- `vbi_encode` of a value in the domain under the reference chunking. -/
theorem beginEncode_reference (s : State E) (v : Word) {more : List (WriteVerdict E)}
    (hv : v.toNat ≤ vbiMax) (hc : s.chunks = [])
    (hw : s.chan.writes = List.replicate (vbiEncoding v).length .accept ++ more) :
    driveEncode 4 (s.beginEncode v) = .next (ended
      { s with
        dp := { s.dp with veX := 0 }
        chan := { s.chan with output := s.chan.output ++ vbiEncoding v, writes := more } }
      { s.rsp with valid := true, status := some 0 }) := by
  have hs := vbiEncoding_split 0 v hv
  obtain ⟨f, hf⟩ : ∃ f, (vbiChunk 1 v).1 = [f] := by rw [vbiChunk_succ]; split <;> simp [vbiChunk]
  rw [show 0 + 1 = 1 from rfl, hf] at hs
  have hb : (vbiChunk 1 v).2.toNat < 128 ^ 3 := by
    have := vbiChunk_quotient_le 1 v
    simp [vbiMax] at hv
    omega
  have hcs : State.chunkSize 1 { s with dp := { s.dp with veX := v } } = 1 := by
    simp [State.chunkSize, hc]
  rw [driveEncode_reference (n := 3) (s := s.beginEncode v) (e := f) (more := more)
    (by simp only [State.beginEncode, issueDigits_pend, hcs, hf])
    (by simpa [State.beginEncode, hcs] using hb) (by omega) (by simp [State.beginEncode, hc])
    (by rw [State.beginEncode, issueDigits_chan, issueDigits_dp, hcs, hw, ← hs]
        simp [Nat.add_comm])]
  simp [State.beginEncode, State.chunkSize, hc, ended, ← hs]

/-! ### Fixed-width fields -/

/-- A field, some of its bytes pending and `n` more requests enough for `rest`, whose requests the
channel accepts, under every chunking. -/
theorem driveField_accept {n : Nat} {s : State E} {now rest : List Byte} {more : List (WriteVerdict E)}
    (hp : s.pend = some (.write now)) (hpl : s.place = .field rest) (hr : rest.length ≤ n)
    (hw : s.chan.writes = List.replicate (n + 1) .accept ++ more) :
    ∃ k ch, k ≤ n ∧ driveField (n + 1) s = .next (ended
      { s with
        chunks := ch
        chan := { s.chan with
          output := s.chan.output ++ now ++ rest, writes := List.replicate k .accept ++ more } }
      { s.rsp with valid := true, status := some 0 }) := by
  induction n generalizing s now rest with
  | zero =>
    obtain rfl : rest = [] := by simpa using hr
    refine ⟨0, s.chunks, Nat.le_refl _, ?_⟩
    rw [driveField, awaitWrite_accept (bs := now) (more := more) _ hp (by simpa using hw)]
    simp [hpl, complete_eq_ended, State.answered, ended]
  | succ n ih =>
    have hw' : s.chan.writes = .accept :: (List.replicate (n + 1) .accept ++ more) := by
      simpa [List.replicate_succ] using hw
    rcases rest with _ | ⟨b, bs⟩
    · refine ⟨n + 1, s.chunks, Nat.le_refl _, ?_⟩
      rw [driveField, awaitWrite_accept _ hp hw']
      simp [hpl, complete_eq_ended, State.answered, ended]
    · let u := s.answered { s.chan with
        output := s.chan.output ++ now, writes := List.replicate (n + 1) .accept ++ more }
      obtain ⟨c, hc⟩ := chunkSize_pos u (r := (b :: bs).length) (by simp)
      obtain ⟨k, ch, hk, e⟩ := ih (s := u.issueField (b :: bs)) (now := (b :: bs).take (c + 1))
        (rest := (b :: bs).drop (c + 1)) (by simp only [issueField_pend, hc])
        (by simp only [issueField_place, hc]) (by simp at hr ⊢; omega) rfl
      refine ⟨k, ch, by omega, ?_⟩
      rw [driveField, awaitWrite_accept _ hp hw']
      simp only [answered_place, hpl]
      show driveField (n + 1) (u.issueField (b :: bs)) = _
      rw [e]
      simp [ended, u, List.append_assoc]

/-- A fixed-width write whose requests the channel accepts, under every chunking. -/
theorem writeField_accept (s : State E) (w : Width) (a : Word) {more : List (WriteVerdict E)}
    (hpl : s.place = .start) (hw : s.chan.writes = List.replicate 4 .accept ++ more) :
    ∃ k ch, k ≤ 3 ∧ writeField w a s = .next (ended
      { s with
        chunks := ch
        chan := { s.chan with
          output := s.chan.output ++ fieldBytes w a
          writes := List.replicate k .accept ++ more } }
      { s.rsp with valid := true, status := some 0 }) := by
  have hl : 0 < (fieldBytes w a).length ∧ (fieldBytes w a).length ≤ 4 := by
    cases w <;> simp [fieldBytes]
  obtain ⟨c, hc⟩ := chunkSize_pos s hl.1
  obtain ⟨k, ch, hk, e⟩ := driveField_accept (n := 3) (s := s.issueField (fieldBytes w a))
    (now := (fieldBytes w a).take (c + 1)) (rest := (fieldBytes w a).drop (c + 1)) (more := more)
    (by simp only [issueField_pend, hc]) (by simp only [issueField_place, hc]) (by simp; omega) hw
  refine ⟨k, ch, hk, ?_⟩
  simp only [writeField, hpl]
  rw [e]
  simp [ended]

/-- A fixed-width read that the channel serves. -/
theorem readField_serve {s : State E} {w : Width} {bs rest : List Byte} {more : List (ReadVerdict E)}
    (hpl : s.place = .start) (hr : s.chan.reads = .serve :: more)
    (hi : s.chan.input = bs ++ rest) (hl : bs.length = w.bytes) :
    readField w s = .next (ended
      { s with chan := { s.chan with input := rest, reads := more } }
      { s.rsp with valid := true, status := some 0, value := some (fieldValue bs) }) := by
  simp only [readField, hpl, awaitField]
  rw [awaitRead_serve (s := s.issue (.read w) (.field [])) _ rfl hr hi hl]
  simp [complete_eq_ended, State.setValue, State.issue, State.answered, ended]

end Sys2Proof.Machine
end

