-- ==== Sys2Proof/Laws/Marks.lean ====
section
/-!
SUPPORT. Where marks come from (rules R106, R107; log 5): what a meaning and a turn leave in
`State.marks`, said once each.
-/
namespace Sys2Proof.Machine

open Sys2Proof.Safety

variable {E : Type}

/-- Waiting on a read leaves no mark that the rest of the command does not leave. -/
theorem awaitRead_marks {s t : State E} {k : List Byte → State E → Result E}
    (hk : ∀ bs u, u.marks = s.marks → k bs u = .next t → t.marks = s.marks)
    (h : awaitRead s k = .next t) : t.marks = s.marks := by
  rcases awaitRead_cases s k with ⟨e, -⟩ | ⟨w, hw, ⟨r, hr, e⟩ | ⟨bs, rest, r, hr, hi, hl, e⟩ |
      ⟨n, r, hr, e⟩ | ⟨x, n, r, hr, e⟩⟩ <;> rw [e] at h
  · cases h
  · cases h; rfl
  · exact hk _ _ (by simp) h
  · cases h; simp [Ending.marks]
  · cases h; simp [Ending.marks]

/-- Waiting on a write leaves no mark that the rest of the command does not leave. -/
theorem awaitWrite_marks {s t : State E} {k : State E → Result E}
    (hk : ∀ u, u.marks = s.marks → k u = .next t → t.marks = s.marks)
    (h : awaitWrite s k = .next t) : t.marks = s.marks := by
  rcases awaitWrite_cases s k with ⟨e, -⟩ | ⟨w, hw, ⟨r, hr, e⟩ | ⟨r, hr, e⟩ |
      ⟨x, n, r, hr, e⟩⟩ <;> rw [e] at h
  · cases h
  · cases h; rfl
  · exact hk _ (by simp) h
  · cases h; simp [Ending.marks]

/-- The decoder leaves no mark. -/
theorem driveDecode_marks {report : State E → State E} (hr : ∀ s, (report s).marks = s.marks)
    (n : Nat) : ∀ {s t : State E}, driveDecode report n s = .next t → t.marks = s.marks := by
  induction n with
  | zero => intro s t h; cases h; rfl
  | succ n ih =>
    intro s t h
    rw [driveDecode] at h
    refine awaitRead_marks (fun bs u hu h => ?_) h
    dsimp only at h
    split at h
    · cases h; simp [hr, hu]
    · split at h
      · cases h; simp [hu, Ending.marks]
      · have := ih h; rw [this]; simpa using hu

/-- The encoder, its operand checked, leaves no mark. -/
theorem driveEncode_marks (n : Nat) : ∀ {s t : State E}, driveEncode n s = .next t → t.marks = s.marks := by
  induction n with
  | zero => intro s t h; cases h; rfl
  | succ n ih =>
    intro s t h
    rw [driveEncode] at h
    refine awaitWrite_marks (fun u hu h => ?_) h
    split at h
    · cases h; simp [hu]
    · have := ih h; rw [this]; simpa using hu

/-- A fixed-width write, its operand checked, leaves no mark. -/
theorem driveField_marks (n : Nat) : ∀ {s t : State E}, driveField n s = .next t → t.marks = s.marks := by
  induction n with
  | zero => intro s t h; cases h; rfl
  | succ n ih =>
    intro s t h
    rw [driveField] at h
    refine awaitWrite_marks (fun u hu h => ?_) h
    split at h
    · cases h; simp [hu]
    · have := ih h; rw [this]; simpa using hu
    all_goals cases h

/-- The marks a meaning leaves are the ones its operands make it leave, from whatever place it runs and
whatever the channel answers. -/
theorem execOf_marks {i : Instr} {s t : State E} (h : execOf i s = .next t) :
    t.marks = s.marks ++ marksOf i := by
  have hrf : ∀ w, readField w s = .next t → t.marks = s.marks := by
    intro w h
    have hk : ∀ u : State E, u.marks = s.marks → awaitField u = .next t → t.marks = s.marks := by
      intro u hu h
      rw [awaitField] at h; rw [← hu]
      exact awaitRead_marks (fun bs v hv h => by cases h; simp [hv]) h
    unfold readField at h
    split at h
    · exact hk _ (by simp) h
    · exact hk _ rfl h
    all_goals cases h
  have hwf : ∀ w a, writeField w a s = .next t → t.marks = s.marks := by
    intro w a h
    unfold writeField at h
    split at h
    · have := driveField_marks _ h; simpa using this
    · exact driveField_marks _ h
    all_goals cases h
  cases i
  case rdu8 => simpa [marksOf, Instr.wellFormed, inDomain] using hrf .u8 h
  case rdu16 => simpa [marksOf, Instr.wellFormed, inDomain] using hrf .u16 h
  case rdu32 => simpa [marksOf, Instr.wellFormed, inDomain] using hrf .u32 h
  case rdvbi =>
    simp only [marksOf, Instr.wellFormed, inDomain, execOf, execRdvbi] at h ⊢
    simp
    split at h
    · have := driveDecode_marks (report := reportValue) (fun _ => rfl) _ h; exact this
    · exact driveDecode_marks (report := reportValue) (fun _ => rfl) _ h
    all_goals cases h
  case rdhdr =>
    have hk : ∀ u : State E, u.marks = s.marks → awaitControl u = .next t → t.marks = s.marks := by
      intro u hu h
      rw [awaitControl] at h; rw [← hu]
      refine awaitRead_marks (fun bs v hv h => ?_) h
      rw [driveDecode_marks (report := reportHeader) (fun _ => rfl) _ h, ← hv]; rfl
    simp only [marksOf, Instr.wellFormed, inDomain, execOf, execRdhdr] at h ⊢
    simp
    split at h
    · exact hk _ (by rfl) h
    · exact hk _ rfl h
    · exact driveDecode_marks (report := reportHeader) (fun _ => rfl) _ h
    · cases h
  case ptfrom a =>
    simp only [execOf, execPtfrom] at h
    split at h
    · next hf => cases h; simp [marksOf, Instr.wellFormed, hf, inDomain]
    · next hf => cases h; simp [marksOf, Instr.wellFormed, hf, Ending.marks]
  case ptto => cases h; simp [marksOf, Instr.wellFormed, inDomain]
  case wru8 a =>
    simp only [execOf, execWru8] at h
    split at h
    · next hf => simpa [marksOf, Instr.wellFormed, hf, inDomain] using hwf _ _ h
    · next hf => cases h; simp [marksOf, Instr.wellFormed, hf, Ending.marks]
  case wru16 a =>
    simp only [execOf, execWru16] at h
    split at h
    · next hf => simpa [marksOf, Instr.wellFormed, hf, inDomain] using hwf _ _ h
    · next hf => cases h; simp [marksOf, Instr.wellFormed, hf, Ending.marks]
  case wru32 a => simpa [marksOf, Instr.wellFormed, inDomain] using hwf _ _ h
  case wrvbi a =>
    simp only [execOf, execWrvbi] at h
    split at h
    · next hb =>
      have : inDomain (.wrvbi a) = false := by simpa [inDomain, beyondDomain] using hb
      cases h; simp [marksOf, Instr.wellFormed, this, Ending.marks]
    · next hb =>
      have : inDomain (.wrvbi a) = true := by simpa [inDomain, beyondDomain] using hb
      simp only [marksOf, Instr.wellFormed, this]; simp
      split at h
      · have := driveEncode_marks _ h; exact this
      · exact driveEncode_marks _ h
      all_goals cases h
  case wrhdr ty b a =>
    have hk : ∀ u : State E, u.marks = s.marks → awaitControlSent a u = .next t → t.marks = s.marks := by
      intro u hu h
      rw [awaitControlSent] at h; rw [← hu]
      refine awaitWrite_marks (fun v hv h => ?_) h
      rw [driveEncode_marks _ h, ← hv]; rfl
    simp only [execOf, execWrhdr] at h
    split at h
    · next hb =>
      have : inDomain (.wrhdr ty b a) = false := by simpa [inDomain, beyondDomain] using hb
      cases h; simp [marksOf, Instr.wellFormed, this, Ending.marks]
    · next hb =>
      have : inDomain (.wrhdr ty b a) = true := by simpa [inDomain, beyondDomain] using hb
      simp only [marksOf, Instr.wellFormed, this]; simp
      split at h
      · exact hk _ (by rfl) h
      · exact hk _ rfl h
      · exact driveEncode_marks _ h
      · cases h

/-- `execOf_marks` of the host's dispatch. -/
theorem exec_marks {i : Instr} {s t : State} (h : exec i s = .next t) :
    t.marks = s.marks ++ marksOf i := by
  refine execOf_marks (i := i) ?_
  cases i <;> exact h

/-- A legal command in the domain leaves no mark. -/
theorem marksOf_eq_nil {i : Instr} (hw : i.wellFormed = true) (hd : inDomain i = true) :
    marksOf i = [] := by
  simp [marksOf, hw, hd]

/-- A turn only adds marks, if `run` does. -/
theorem turn_marks {run : Instr → State E → Result E}
    (hr : ∀ i s t, run i s = .next t → s.marks <+: t.marks) {s t : State E}
    (h : turn run s = .next t) : s.marks <+: t.marks := by
  have hl : ∀ u : State E, runLatched run u = .next t → u.marks <+: t.marks := by
    intro u h
    unfold runLatched at h
    split at h
    · cases h
    · split at h
      · exact hr _ _ _ h
      · cases h; exact List.prefix_append _ _
  rcases turn_cases run s with ⟨rest, -, e⟩ | ⟨c, rest, -, e⟩ |
      ⟨r, rest, -, ⟨v, -, e⟩ | ⟨f, -, e⟩ | ⟨f, -, e⟩⟩ | ⟨d, k, rest, -, e⟩ <;> rw [e] at h
  · unfold unitTurn at h
    split at h
    · exact hl { s with agenda := rest } h
    · split at h
      · cases h; exact List.prefix_rfl
      · split at h
        · exact hl (State.accept _ _ { s with agenda := rest }) h
        · cases h
  · cases h; exact List.prefix_rfl
  · cases h; exact List.prefix_rfl
  · cases h
  · cases h
  · cases h; exact List.prefix_rfl

end Sys2Proof.Machine
end

