-- ==== Sys2Proof/Laws/Outcomes.lean ====
section
/-!
SUPPORT. Everything the loops of the commands can come to, whatever the channel answers, said once
each: still waiting, ended with OK, or ended with an error.
-/
namespace Sys2Proof.Machine

open Sys2Proof.Safety
open Sys2Proof.Config (TransportError vbiMax)

variable {E : Type}

/-! ### The decoder -/

/-- Accumulating a digit under the decoder's invariant: exact, and below 128 times the multiplier
(rule R87). -/
theorem toNat_accumulate {d : Datapath} (h : DecoderFits d) (e : Byte) :
    (d.vdValue + digitOf e * d.vdMult).toNat = d.vdValue.toNat + e.toNat % 128 * d.vdMult.toNat ∧
      d.vdValue.toNat + e.toNat % 128 * d.vdMult.toNat < 128 * d.vdMult.toNat ∧
      128 * d.vdMult.toNat ≤ 2 ^ 28 := by
  obtain ⟨hm, hv⟩ := h
  have hd : e.toNat % 128 < 128 := Nat.mod_lt _ (by decide)
  have hc : d.vdMult.toNat = 1 ∨ d.vdMult.toNat = 128 ∨ d.vdMult.toNat = 16384 ∨
      d.vdMult.toNat = 2097152 := by
    rcases hm with h | h | h | h <;> simp [h]
  rw [BitVec.toNat_add, BitVec.toNat_mul, toNat_digitOf]
  rcases hc with h | h | h | h <;> rw [h] at hv ⊢ <;> omega

/-- One turn of the decoder's loop keeps its invariant (rules R20, R87). -/
theorem decoderFits_scale {d : Datapath} (h : DecoderFits d) (e : Byte)
    (ht : d.vdMult ≠ Config.topMult) :
    DecoderFits { d with vdValue := d.vdValue + digitOf e * d.vdMult, vdMult := d.vdMult * 128 } := by
  obtain ⟨h1, h2, -⟩ := toNat_accumulate h e
  obtain ⟨hm, -⟩ := h
  refine ⟨?_, ?_⟩
  · rcases hm with h | h | h | h
    · right; left; simp [h]
    · right; right; left; simp [h]
    · right; right; right; simp [h]
    · exact absurd h ht
  · show (d.vdValue + digitOf e * d.vdMult).toNat < (d.vdMult * 128).toNat
    have : (d.vdMult * 128).toNat = 128 * d.vdMult.toNat := by
      rcases hm with h | h | h | h
      · simp [h]
      · simp [h]
      · simp [h]
      · exact absurd h ht
    omega

/-- Everything the decoder's loop can come to. -/
theorem driveDecode_cases (report : State E → State E) (n : Nat) (s : State E)
    (hp : s.pend = some (.read .u8)) (hpl : s.place = .digit) :
    ∃ v m input reads, input <:+ s.chan.input ∧ reads <:+ s.chan.reads ∧
      ∀ u : State E, u = { s with
        dp := { s.dp with vdValue := v, vdMult := m }
        chan := { s.chan with input := input, reads := reads } } →
      (driveDecode report n s = .next u ∧ (DecoderFits s.dp → DecoderFits u.dp)) ∨
      (driveDecode report n s = .next (report { u with pend := none }).complete ∧
        (DecoderFits s.dp → v.toNat ≤ vbiMax)) ∨
      driveDecode report n s = .next (u.finish .malformed) ∨
      ∃ e, driveDecode report n s = .next (u.finish (.transport e)) := by
  induction n generalizing s with
  | zero =>
    exact ⟨_, _, _, _, List.suffix_refl _, List.suffix_refl _, fun u hu =>
      .inl ⟨hu ▸ rfl, fun h => hu ▸ h⟩⟩
  | succ n ih =>
    rw [driveDecode]
    rcases awaitRead_cases s _ with ⟨-, h⟩ | ⟨w, hw, h⟩
    · exact absurd hp (h _)
    obtain rfl : w = .u8 := by rw [hp] at hw; simpa using hw.symm
    rcases h with ⟨r, hr, h⟩ | ⟨bs, rest, r, hr, hi, hl, h⟩ | ⟨k, r, hr, h⟩ | ⟨e, k, r, hr, h⟩
    · refine ⟨s.dp.vdValue, s.dp.vdMult, s.chan.input, r, List.suffix_refl _, hr, fun u hu => ?_⟩
      exact .inl ⟨by rw [h, hu], fun hd => hu ▸ hd⟩
    · obtain ⟨b, rfl⟩ : ∃ b, bs = [b] := List.length_eq_one_iff.mp hl
      have h1 : rest <:+ s.chan.input := hi ▸ List.suffix_append _ _
      have h2 : r <:+ s.chan.reads := hr ▸ List.suffix_cons _ _
      by_cases hc : continues b = false
      · refine ⟨s.dp.vdValue + digitOf b * s.dp.vdMult, s.dp.vdMult, rest, r, h1, h2,
          fun u hu => .inr (.inl ⟨?_, fun hd => ?_⟩)⟩
        · rw [h, hu]; simp only [List.headD_cons, hc, if_true]; rfl
        · obtain ⟨e1, e2, e3⟩ := toNat_accumulate hd b
          rw [e1, vbiMax]; omega
      · have hc : continues b = true := by simpa using hc
        by_cases ht : s.dp.vdMult = Config.topMult
        · refine ⟨s.dp.vdValue + digitOf b * s.dp.vdMult, s.dp.vdMult, rest, r, h1, h2,
            fun u hu => .inr (.inr (.inl ?_))⟩
          rw [h, hu]
          simp only [List.headD_cons, hc, Bool.true_eq_false, if_false]
          exact if_pos ht
        · let t := ((s.answered { s.chan with input := rest, reads := r }).accumulate b).scale.issue
            (.read .u8) .digit
          obtain ⟨v, m, i, r', hi', hr', hcase⟩ := ih t (issue_pend _ _ _) (issue_place _ _ _)
          refine ⟨v, m, i, r', hi'.trans h1, hr'.trans h2, fun u hu => ?_⟩
          have hf : DecoderFits s.dp → DecoderFits t.dp := fun hd => decoderFits_scale hd b ht
          rw [h.trans (c := driveDecode report n t) (by
            simp only [List.headD_cons, hc, Bool.true_eq_false, if_false]
            exact if_neg ht)]
          subst hu
          rcases hcase _ rfl with ⟨e, hd⟩ | ⟨e, hd⟩ | e | ⟨x, e⟩
          · exact .inl ⟨by rw [e]; simp [t, State.issue, State.scale, State.accumulate,
              State.answered, hp, hpl], fun h => hd (hf h)⟩
          · exact .inr (.inl ⟨by rw [e]; simp [t, State.issue, State.scale, State.accumulate,
              State.answered, hpl], fun h => hd (hf h)⟩)
          · exact .inr (.inr (.inl (by rw [e]; rfl)))
          · exact .inr (.inr (.inr ⟨x, by rw [e]; rfl⟩))
    · exact ⟨s.dp.vdValue, s.dp.vdMult, _, r, List.drop_suffix _ _, hr ▸ List.suffix_cons _ _,
        fun u hu => .inr (.inr (.inl (by rw [h, hu]; rfl)))⟩
    · exact ⟨s.dp.vdValue, s.dp.vdMult, _, r, List.drop_suffix _ _, hr ▸ List.suffix_cons _ _,
        fun u hu => .inr (.inr (.inr ⟨e, by rw [h, hu]; rfl⟩))⟩

/-! ### The encoder -/

/-- Everything the encoder's loop can come to: of the bytes `now` pending and those still to come,
`sent` are on the stream. -/
theorem driveEncode_cases (n : Nat) (s : State E) {now : List Byte} (hp : s.pend = some (.write now))
    (hpl : s.place = .digit) (hn : now ≠ []) (hx : s.dp.veX.toNat ≤ vbiMax) :
    ∃ sent now' x ch writes, writes <:+ s.chan.writes ∧ now' ≠ [] ∧ x.toNat ≤ vbiMax ∧
      sent ++ now' ++ vbiRest x = now ++ vbiRest s.dp.veX ∧
      ∀ u : State E, u = { s with
        pend := some (.write now'), chunks := ch, dp := { s.dp with veX := x }
        chan := { s.chan with output := s.chan.output ++ sent, writes := writes } } →
      driveEncode n s = .next u ∨
      (x = 0 ∧ driveEncode n s = .next (State.complete { u with
        chan := { u.chan with output := u.chan.output ++ now' } })) ∨
      ∃ e k, driveEncode n s = .next (State.finish (.transport e) { u with
        chan := { u.chan with output := u.chan.output ++ now'.take k } }) := by
  induction n generalizing s now with
  | zero =>
    refine ⟨[], now, s.dp.veX, s.chunks, s.chan.writes, List.suffix_refl _, hn, hx, rfl,
      fun u hu => .inl ?_⟩
    rw [hu]; simp [driveEncode, ← hp]
  | succ n ih =>
    rw [driveEncode]
    rcases awaitWrite_cases s _ with ⟨-, h⟩ | ⟨bs, hb, h⟩
    · exact absurd hp (h _)
    obtain rfl : bs = now := by rw [hp] at hb; simpa using hb.symm
    rcases h with ⟨r, hr, h⟩ | ⟨r, hr, h⟩ | ⟨e, k, r, hr, h⟩
    · refine ⟨[], bs, s.dp.veX, s.chunks, r, hr, hn, hx, rfl, fun u hu => .inl ?_⟩
      rw [h, hu]; simp [← hp]
    · rw [h]
      have h2 : r <:+ s.chan.writes := hr ▸ List.suffix_cons _ _
      split
      · next h0 =>
        refine ⟨[], bs, s.dp.veX, s.chunks, r, h2, hn, hx, rfl,
          fun u hu => .inr (.inl ⟨h0, ?_⟩)⟩
        rw [hu]; simp [State.complete, State.finish, State.answered]
      · next h0 =>
        let u := s.answered { s.chan with output := s.chan.output ++ bs, writes := r }
        have h0 : ¬ s.dp.veX = 0 := h0
        obtain ⟨c, hc⟩ := chunkSize_pos u (r := 1) (by decide)
        obtain ⟨sent, now', x, ch, ws, hw, hn', hx', he, hcase⟩ := ih u.issueDigits
          (now := (vbiChunk (c + 1) s.dp.veX).1) (by simp [hc]; rfl) (by simp)
          (vbiChunk_ne_nil _ _)
          (by simp [hc]; exact Nat.le_trans (vbiChunk_le _ _) hx)
        have hs := vbiEncoding_split c s.dp.veX hx
        refine ⟨bs ++ sent, now', x, ch, ws, hw.trans h2, hn', hx', ?_, fun t ht => ?_⟩
        · have hr : vbiRest s.dp.veX = vbiEncoding s.dp.veX := if_neg h0
          rw [hr, ← hs, List.append_assoc, List.append_assoc, ← List.append_assoc sent, he]
          simp [hc]; rfl
        · subst ht
          rcases hcase _ rfl with e | ⟨e0, e⟩ | ⟨e1, k, e⟩
          · exact .inl (by show driveEncode n u.issueDigits = _; rw [e]; simp [u, hpl])
          · refine .inr (.inl ⟨e0, ?_⟩)
            show driveEncode n u.issueDigits = _
            rw [e]; simp [u, complete_eq_ended, ended]
          · refine .inr (.inr ⟨e1, k, ?_⟩)
            show driveEncode n u.issueDigits = _
            rw [e]; simp [u, State.finish]
    · refine ⟨[], bs, s.dp.veX, s.chunks, r, hr ▸ List.suffix_cons _ _, hn, hx, rfl,
        fun u hu => .inr (.inr ⟨e, k, ?_⟩)⟩
      rw [h, hu]; simp [raise, State.finish, State.answered]

/-! ### Fixed-width fields -/

/-- Everything the requests of a field can come to: of the bytes `now` pending and `rest` to come,
`sent` are on the stream. -/
theorem driveField_cases (n : Nat) (s : State E) {now rest : List Byte}
    (hp : s.pend = some (.write now)) (hpl : s.place = .field rest) (hn : now ≠ []) :
    ∃ sent now' rest' ch writes, writes <:+ s.chan.writes ∧ now' ≠ [] ∧
      sent ++ now' ++ rest' = now ++ rest ∧
      ∀ u : State E, u = { s with
        pend := some (.write now'), place := .field rest', chunks := ch
        chan := { s.chan with output := s.chan.output ++ sent, writes := writes } } →
      driveField n s = .next u ∨
      (rest' = [] ∧ driveField n s = .next (State.complete { u with
        chan := { u.chan with output := u.chan.output ++ now' } })) ∨
      ∃ e k, driveField n s = .next (State.finish (.transport e) { u with
        chan := { u.chan with output := u.chan.output ++ now'.take k } }) := by
  induction n generalizing s now rest with
  | zero =>
    refine ⟨[], now, rest, s.chunks, s.chan.writes, List.suffix_refl _, hn, rfl,
      fun u hu => .inl ?_⟩
    rw [hu]; simp [driveField, ← hp, ← hpl]
  | succ n ih =>
    rw [driveField]
    rcases awaitWrite_cases s _ with ⟨-, h⟩ | ⟨bs, hb, h⟩
    · exact absurd hp (h _)
    obtain rfl : bs = now := by rw [hp] at hb; simpa using hb.symm
    rcases h with ⟨r, hr, h⟩ | ⟨r, hr, h⟩ | ⟨e, k, r, hr, h⟩
    · refine ⟨[], bs, rest, s.chunks, r, hr, hn, rfl, fun u hu => .inl ?_⟩
      rw [h, hu]; simp [← hp, ← hpl]
    · rw [h]
      have h2 : r <:+ s.chan.writes := hr ▸ List.suffix_cons _ _
      simp only [answered_place, hpl]
      rcases rest with _ | ⟨b, tl⟩
      · refine ⟨[], bs, [], s.chunks, r, h2, hn, rfl, fun u hu => .inr (.inl ⟨rfl, ?_⟩)⟩
        rw [hu]; simp [State.complete, State.finish, State.answered]
      · let u := s.answered { s.chan with output := s.chan.output ++ bs, writes := r }
        obtain ⟨c, hc⟩ := chunkSize_pos u (r := (b :: tl).length) (by simp)
        obtain ⟨sent, now', rest', ch, ws, hw, hn', he, hcase⟩ := ih (u.issueField (b :: tl))
          (now := (b :: tl).take (c + 1)) (rest := (b :: tl).drop (c + 1))
          (by simp only [issueField_pend, hc]) (by simp only [issueField_place, hc]) (by simp)
        refine ⟨bs ++ sent, now', rest', ch, ws, hw.trans h2, hn', ?_, fun t ht => ?_⟩
        · rw [List.append_assoc, List.append_assoc, ← List.append_assoc sent, he,
            List.take_append_drop]
        · subst ht
          rcases hcase _ rfl with e | ⟨e0, e⟩ | ⟨e1, k, e⟩
          · exact .inl (by show driveField n (u.issueField (b :: tl)) = _; rw [e]; simp [u])
          · refine .inr (.inl ⟨e0, ?_⟩)
            show driveField n (u.issueField (b :: tl)) = _
            rw [e]; simp [u, complete_eq_ended, ended]
          · refine .inr (.inr ⟨e1, k, ?_⟩)
            show driveField n (u.issueField (b :: tl)) = _
            rw [e]; simp [u, State.finish]
    · refine ⟨[], bs, rest, s.chunks, r, hr ▸ List.suffix_cons _ _, hn, rfl,
        fun u hu => .inr (.inr ⟨e, k, ?_⟩)⟩
      rw [h, hu]; simp [raise, State.finish, State.answered]

end Sys2Proof.Machine
end

