-- ==== Sys2Proof/Laws/PerInstr.lean ====
section
/-!
SUPPORT. Statements about every instruction, one lemma a constructor. The family `EncodeLegal`: the
pseudocode `legal(W, A)` of rule R69, run on a command's own encoding, answers what the width check
of rule R68 says of its operand.
-/
namespace Sys2Proof.Laws.EncodeLegal

/-- The encoding of `i` is legal exactly when `i` passes the width check (rules R68, R69). -/
def Statement (i : Instr) : Prop := legal (encode i) = i.wellFormed

theorem rdu8 : Statement .rdu8 := by unfold Statement; decide
theorem rdu16 : Statement .rdu16 := by unfold Statement; decide
theorem rdu32 : Statement .rdu32 := by unfold Statement; decide
theorem rdvbi : Statement .rdvbi := by unfold Statement; decide
theorem rdhdr : Statement .rdhdr := by unfold Statement; decide
theorem ptfrom (a : Word) : Statement (.ptfrom a) := by
  simp [Statement, legal, encode, Instr.word, Instr.wellFormed, fits_eight]
theorem wru8 (a : Word) : Statement (.wru8 a) := by
  simp [Statement, legal, encode, Instr.word, Instr.wellFormed, fits_eight]
theorem wru16 (a : Word) : Statement (.wru16 a) := by
  simp [Statement, legal, encode, Instr.word, Instr.wellFormed, fits_sixteen]
theorem wru32 (a : Word) : Statement (.wru32 a) := by
  simp [Statement, legal, encode, Instr.word, Instr.wellFormed]
theorem wrvbi (a : Word) : Statement (.wrvbi a) := by
  simp [Statement, legal, encode, Instr.word, Instr.wellFormed]
theorem wrhdr (t : Nibble) (b : Byte) (a : Word) : Statement (.wrhdr t b a) := by
  simp [Statement, legal, encode, Instr.word, Instr.wellFormed]
theorem ptto (t : Nibble) : Statement (.ptto t) := by
  simp [Statement, legal, encode, Instr.word, Instr.wellFormed]

end Sys2Proof.Laws.EncodeLegal
end

