-- ==== Sys2Proof/Tests/Slice0.lean ====
section
/-!
SUPPORT. Tests: the checks of WellFormed, words written out from the spec's encoding, vectors of
95_test_vectors.md (each named in its docstring), and for every obligation with hypotheses a state
and operands that meet them.
-/
namespace Sys2Proof.Tests

open Sys2Proof.Machine Sys2Proof.Safety

/-! ### Small states -/

/-- The unit after reset, its channel with this input and these answers to reads. -/
def onInput (bs : List Byte) (rs : List ReadVerdict) : State :=
  { State.reset with chan := ⟨some 0, bs, rs, [], []⟩ }

/-- The unit after reset, its channel with these answers to writes. -/
def onOutput (ws : List WriteVerdict) : State :=
  { State.reset with chan := ⟨some 0, [], [], [], ws⟩ }

/-- This command presented to the unit. -/
def presented (c : Command) (s : State) : State := { s with port := [c] }

/-- The command `i` presented and accepted, the unit at its first line. -/
def accepted (i : Instr) (s : State) : State := s.accept (encode i) []

/-- An outcome is a next state of which `p` holds. -/
def nextIs {E : Type} (r : Result E) (p : State E → Bool) : Bool :=
  match r with
  | .next t => p t
  | .fault _ | .refused _ => false

/-- The channel's error value of the vectors. -/
def noSpace : Config.TransportError := ⟨7⟩

/-! ### WellFormed (rule R68) -/

theorem test_wellFormed_refuses_wru8 : (Instr.wru8 0x100).wellFormed = false := by decide
theorem test_wellFormed_refuses_wru16 : (Instr.wru16 0x10000).wellFormed = false := by decide
theorem test_wellFormed_refuses_ptfrom : (Instr.ptfrom 0x80000000).wellFormed = false := by decide
theorem test_wellFormed_accepts_the_widest :
    (Instr.wru8 0xFF).wellFormed && (Instr.wru16 0xFFFF).wellFormed &&
      (Instr.ptfrom 0xFF).wellFormed && (Instr.wru32 0xFFFFFFFF).wellFormed = true := by decide

/-! ### Decoding: `Z ++ D ++ K` as the table of rule R67 has them -/

theorem test_decode_rdu8 :
    decode ⟨0b0000#4 ++ 0b0#1 ++ 0b001#3, 9, 9, 9⟩ = .instr .rdu8 := by decide
theorem test_decode_rdu16 :
    decode ⟨0b0000#4 ++ 0b0#1 ++ 0b010#3, 9, 9, 9⟩ = .instr .rdu16 := by decide
theorem test_decode_rdu32 :
    decode ⟨0b0000#4 ++ 0b0#1 ++ 0b011#3, 9, 9, 9⟩ = .instr .rdu32 := by decide
theorem test_decode_rdvbi :
    decode ⟨0b0000#4 ++ 0b0#1 ++ 0b100#3, 9, 9, 9⟩ = .instr .rdvbi := by decide
theorem test_decode_rdhdr :
    decode ⟨0b0000#4 ++ 0b0#1 ++ 0b101#3, 9, 9, 9⟩ = .instr .rdhdr := by decide
theorem test_decode_ptfrom :
    decode ⟨0b0000#4 ++ 0b0#1 ++ 0b110#3, 0xA5, 9, 9⟩ = .instr (.ptfrom 0xA5) := by decide
theorem test_decode_wru8 :
    decode ⟨0b0000#4 ++ 0b1#1 ++ 0b001#3, 0x3D, 9, 9⟩ = .instr (.wru8 0x3D) := by decide
theorem test_decode_wru16 :
    decode ⟨0b0000#4 ++ 0b1#1 ++ 0b010#3, 0xABCD, 9, 9⟩ = .instr (.wru16 0xABCD) := by decide
theorem test_decode_wru32 :
    decode ⟨0b0000#4 ++ 0b1#1 ++ 0b011#3, 0xDEADBEEF, 9, 9⟩ = .instr (.wru32 0xDEADBEEF) := by
  decide
theorem test_decode_wrvbi :
    decode ⟨0b0000#4 ++ 0b1#1 ++ 0b100#3, 321, 9, 9⟩ = .instr (.wrvbi 321) := by decide
theorem test_decode_wrhdr :
    decode ⟨0b0000#4 ++ 0b1#1 ++ 0b101#3, 321, 0xF2, 8⟩ = .instr (.wrhdr 8 0xF2 321) := by decide
theorem test_decode_ptto :
    decode ⟨0b0000#4 ++ 0b1#1 ++ 0b110#3, 9, 9, 15⟩ = .instr (.ptto 15) := by decide

/-- The reserved words of V-ILL-1 to V-ILL-7. -/
theorem test_decode_reserved :
    ([0x00, 0x07, 0x08, 0x0F, 0x10, 0x81, 0xFF].all fun w =>
      decode ⟨w, 0, 0, 0⟩ == .reserved w) = true := by decide

/-- The tuple of program P2's first command (rule R71). -/
theorem test_encode_wrhdr : encode (.wrhdr 8 0xF2 321) = ⟨0x0D, 0x00000141, 0xF2, 0x8⟩ := by decide

/-! ### One step a command -/

/-- V-FW-2: never signed. -/
theorem test_rdu8 : nextIs (step (presented ⟨1, 0, 0, 0⟩ (onInput [0xFF] [.serve])))
    (fun t => t.rsp.value == some 255 && t.rsp.status == some 0 && t.chan.input == []) = true := by
  decide

/-- V-FW-4: the channel's error is passed on. -/
theorem test_rdu8_transport :
    nextIs (step (presented ⟨1, 0, 0, 0⟩ (onInput [0x01] [.err noSpace 0])))
      (fun t => t.rsp.status == some 2 && t.rsp.err == some noSpace && t.rsp.value == none) = true := by
  decide

/-- V-FW-6: 1, not 256. -/
theorem test_rdu16 : nextIs (step (presented ⟨2, 0, 0, 0⟩ (onInput [0x00, 0x01] [.serve])))
    (fun t => t.rsp.value == some 1) = true := by decide

/-- V-FW-7: too few bytes. -/
theorem test_rdu16_eof : nextIs (step (presented ⟨2, 0, 0, 0⟩ (onInput [0x12] [.eof 0])))
    (fun t => t.rsp.status == some 1 && t.rsp.value == none) = true := by decide

/-- V-FW-9. -/
theorem test_rdu32 :
    nextIs (step (presented ⟨3, 0, 0, 0⟩ (onInput [0xDE, 0xAD, 0xBE, 0xEF] [.serve])))
      (fun t => t.rsp.value == some 3735928559) = true := by decide

/-- V-VBI-D20: a non-canonical encoding, its last digit 0. -/
theorem test_rdvbi :
    nextIs (step (presented ⟨4, 0, 0, 0⟩ (onInput [0xFF, 0x80, 0x00] [.serve, .serve, .serve])))
      (fun t => t.rsp.value == some 127 && t.rsp.status == some 0 && t.chan.input == []) = true := by
  decide

/-- V-VBI-D13: four bytes consumed, the fifth unread. -/
theorem test_rdvbi_four_continued :
    nextIs (step (presented ⟨4, 0, 0, 0⟩
        (onInput [0x80, 0x80, 0x80, 0x80, 0x00] [.serve, .serve, .serve, .serve, .serve])))
      (fun t => t.rsp.status == some 1 && t.rsp.value == none && t.chan.input == [0x00]) = true := by
  decide

/-- V-HDR-R5. -/
theorem test_rdhdr :
    nextIs (step (presented ⟨5, 0, 0, 0⟩ (onInput [0x82, 0x80, 0x01] [.serve, .serve, .serve])))
      (fun t => t.rsp.pt == some 8 && t.rsp.flags == some 2 && t.rsp.len == some 128) = true := by
  decide

/-- V-HDR-R10: no partial header. -/
theorem test_rdhdr_truncated :
    nextIs (step (presented ⟨5, 0, 0, 0⟩ (onInput [0x3D] [.serve, .eof 0])))
      (fun t => t.rsp.status == some 1 && t.rsp.pt == none && t.rsp.flags == none) = true := by
  decide

/-- V-PT-4. -/
theorem test_ptfrom : nextIs (step (presented ⟨6, 0xA5, 0, 0⟩ State.reset))
    (fun t => t.rsp.pt == some 5 && t.ust == .idle) = true := by decide

/-- V-PT-6, and rule R106. -/
theorem test_ptfrom_illegal :
    nextIs (turn exec (presented ⟨6, 0x100, 0, 0⟩ State.reset))
      (fun t => t.rsp.status == some 3 && t.rsp.pt == none) = true ∧
    step (presented ⟨6, 0x100, 0, 0⟩ State.reset) = .refused .illegalCommand := ⟨by decide, rfl⟩

/-- V-FW-12. -/
theorem test_wru8 : nextIs (step (presented ⟨9, 0x3D, 0, 0⟩ (onOutput [.accept])))
    (fun t => t.chan.output == [0x3D] && t.rsp.status == some 0) = true := by decide

/-- V-FW-14, and rule R106. -/
theorem test_wru8_illegal :
    nextIs (turn exec (presented ⟨9, 0x100, 0, 0⟩ (onOutput [.accept])))
      (fun t => t.chan.output == [] && t.rsp.status == some 3) = true ∧
    step (presented ⟨9, 0x100, 0, 0⟩ (onOutput [.accept])) = .refused .illegalCommand :=
  ⟨by decide, rfl⟩

/-- V-FW-15, the two bytes in requests of their own. -/
theorem test_wru16_chunked :
    nextIs (step { presented ⟨10, 0xABCD, 0, 0⟩ (onOutput [.accept, .accept]) with chunks := [1] })
      (fun t => t.chan.output == [0xAB, 0xCD] && t.rsp.status == some 0) = true := by decide

/-- V-FW-17, a channel that keeps one byte of the failed request. -/
theorem test_wru16_transport :
    nextIs (step (presented ⟨10, 0xABCD, 0, 0⟩ (onOutput [.err noSpace 1])))
      (fun t => t.chan.output == [0xAB] && t.rsp.err == some noSpace) = true := by decide

/-- V-FW-19. -/
theorem test_wru32 : nextIs (step (presented ⟨11, 0xDEADBEEF, 0, 0⟩ (onOutput [.accept])))
    (fun t => t.chan.output == [0xDE, 0xAD, 0xBE, 0xEF]) = true := by decide

/-- V-VBI-E15: the fourth byte is never requested. -/
theorem test_wrvbi_transport :
    nextIs (step (presented ⟨12, 2097152, 0, 0⟩ (onOutput [.accept, .accept, .err noSpace 0])))
      (fun t => t.chan.output == [0x80, 0x80] && t.rsp.status == some 2) = true := by decide

/-- V-VBI-E12, and rule R107. -/
theorem test_wrvbi_domain :
    nextIs (turn exec (presented ⟨12, 268435456, 0, 0⟩ (onOutput [.accept])))
      (fun t => t.chan.output == [] && t.rsp.status == some 4) = true ∧
    step (presented ⟨12, 268435456, 0, 0⟩ (onOutput [.accept])) = .fault .encDomain :=
  ⟨by decide, rfl⟩

/-- V-HDR-W2: B[7:4] masked. -/
theorem test_wrhdr :
    nextIs (step (presented ⟨13, 321, 0xF2, 8⟩ (onOutput [.accept, .accept, .accept])))
      (fun t => t.chan.output == [0x82, 0xC1, 0x02] && t.rsp.status == some 0) = true := by decide

/-- V-HDR-W8: the control byte stays. -/
theorem test_wrhdr_transport :
    nextIs (step (presented ⟨13, 200, 0, 3⟩ (onOutput [.accept, .err noSpace 0])))
      (fun t => t.chan.output == [0x30] && t.rsp.status == some 2) = true := by decide

/-- V-PT-8. -/
theorem test_ptto : nextIs (step (presented ⟨14, 0, 0, 8⟩ State.reset))
    (fun t => t.rsp.value == some 8) = true := by decide

/-- V-ILL-6, and rule R106: Z is not 0 over RDU8's low bits. -/
theorem test_reserved_word :
    nextIs (turn exec (presented ⟨0x81, 0, 0, 0⟩ (onInput [0xFF] [.serve])))
      (fun t => t.chan.input == [0xFF] && t.rsp.status == some 3 && t.rsp.value == none) = true ∧
    step (presented ⟨0x81, 0, 0, 0⟩ (onInput [0xFF] [.serve])) = .refused .illegalCommand :=
  ⟨by decide, rfl⟩

/-! ### Handshake, reads and reset -/

/-- V-ST-4's unit: RDVBI has 0x80 and waits for the next byte. -/
def betweenBytes : State :=
  { State.reset with
    ust := .busy, cmd := some ⟨4, 0, 0, 0⟩, dp := ⟨0, 128, 0, 0, 0⟩, pend := some (.read .u8)
    place := .digit }

/-- A step leads there. -/
theorem test_between_bytes : nextIs (step (presented ⟨4, 0, 0, 0⟩ (onInput [0x80] [.serve])))
    (fun t => t == betweenBytes) = true := by decide

/-- V-ST-1: an unwritten register after OK. -/
theorem test_read_unwritten :
    step { State.reset with
        rsp := ⟨true, some 0, none, some 3, some 13, some 127, none⟩, agenda := [.read .value] }
      = .fault (.unwrittenRead .value) := rfl

/-- V-ST-3: a read after reset. -/
theorem test_read_before_valid :
    step { State.reset with agenda := [.read .status] } = .fault (.unwrittenRead .status) := rfl

/-- V-ST-4: the command presented meanwhile is held. -/
theorem test_hold :
    nextIs (step { betweenBytes with agenda := [.present ⟨1, 0, 0, 0⟩] })
      (fun t => t.ust == .busy && t.rsp.valid == false && t.port == [⟨1, 0, 0, 0⟩]
        && t.pend == some (.read .u8)) = true := by decide

/-- V-ST-4: the answer ends RDVBI with 128, and RDU8 is still held. -/
theorem test_resume :
    nextIs (step { betweenBytes with
        port := [⟨1, 0, 0, 0⟩], chan := ⟨some 0, [0x01], [.serve], [], []⟩ })
      (fun t => t.ust == .idle && t.rsp.value == some 128 && t.port == [⟨1, 0, 0, 0⟩]) = true := by
  decide

/-- V-ST-5: reset instead of an answer. -/
theorem test_reset_abandons :
    nextIs (step { betweenBytes with
        port := [⟨1, 0, 0, 0⟩], agenda := [.reset ⟨1, 2, 3, 4, 5⟩ 0] })
      (fun t => t.ust == .idle && t.rsp.valid == false && t.cmd == none && t.port == []
        && t.pend == none && t.chan.input == []) = true := by decide

/-- V-ST-6: a channel that never answers. -/
theorem test_hang : step betweenBytes = .next betweenBytes := rfl

/-- Rule R127: a shared channel. -/
theorem test_shared_channel :
    System.step 0 ⟨#v[State.reset, State.reset], by decide⟩ = .refused .sharedChannel := rfl

/-- Rules R124, R127: after reset no two units share a channel, and any of them can move. -/
theorem test_units_apart_after_reset :
    (System.initial Config.TransportError 3 (by decide)).channelsApart = true ∧
    (System.initial Config.TransportError 3 (by decide)).step 2
      = .next (System.initial Config.TransportError 3 (by decide)) := ⟨by decide, rfl⟩

/-! ### Witnesses: states and operands that meet the hypotheses of the obligations -/

theorem witness_UnusedOperandsAreIgnored :
    ∀ p ∈ ([(⟨0x01, 1, 2, 3⟩, ⟨0x01, 4, 5, 6⟩), (⟨0x06, 1, 2, 3⟩, ⟨0x06, 1, 5, 6⟩),
        (⟨0x0D, 1, 2, 3⟩, ⟨0x0D, 1, 2, 3⟩), (⟨0x0E, 1, 2, 3⟩, ⟨0x0E, 4, 5, 3⟩)] :
        List (Command × Command)),
      p.1.w = p.2.w ∧ (p.1.w ∈ [0x06, 0x09, 0x0A, 0x0B, 0x0C, 0x0D] → p.1.a = p.2.a) ∧
        (p.1.w = 0x0D → p.1.b = p.2.b) ∧ (p.1.w ∈ [0x0D, 0x0E] → p.1.t = p.2.t) := by decide

theorem witness_MaskedOperandBitsAreIgnored :
    (0xF2 : Byte).extractLsb' 0 4 = (0x02 : Byte).extractLsb' 0 4 ∧
    (0xFF : Word).toNat < 256 ∧ (0x0F : Word).toNat < 256 ∧
      (0xFF : Word).extractLsb' 0 4 = (0x0F : Word).extractLsb' 0 4 := by decide

/-- An IDLE unit to which RDU8 is presented. -/
def presentedRdu8 : State := presented ⟨1, 0, 0, 0⟩ (onInput [0xFF] [.serve])

theorem witness_StepAcceptsAndRunsTheDecodedCommand :
    UnitMoves presentedRdu8 [] ∧
    UnitMoves { presentedRdu8 with agenda := [.pass, .pass] } [.pass] ∧
    presentedRdu8.ust = .idle ∧ presentedRdu8.port = ⟨1, 0, 0, 0⟩ :: [] ∧
    presentedRdu8.chan.id ≠ none ∧ decode ⟨1, 0, 0, 0⟩ = .instr .rdu8 ∧
    Instr.rdu8.wellFormed = true ∧ inDomain .rdu8 = true :=
  ⟨.inl ⟨rfl, rfl⟩, .inr rfl, rfl, rfl, by decide, by decide, rfl, rfl⟩

theorem witness_StepResumesTheLatchedCommand :
    UnitMoves betweenBytes [] ∧ betweenBytes.ust = .busy ∧
    betweenBytes.cmd = some ⟨4, 0, 0, 0⟩ ∧ decode ⟨4, 0, 0, 0⟩ = .instr .rdvbi ∧
    Instr.rdvbi.wellFormed = true ∧ inDomain .rdvbi = true :=
  ⟨.inl ⟨rfl, rfl⟩, rfl, rfl, by decide, rfl, rfl⟩

theorem witness_CommandsAreHeldWhileBusy :
    { State.reset with agenda := [.present ⟨1, 0, 0, 0⟩] }.agenda = .present ⟨1, 0, 0, 0⟩ :: [] ∧
    UnitMoves betweenBytes [] ∧ betweenBytes.ust = .busy ∧ step betweenBytes = .next betweenBytes :=
  ⟨rfl, .inl ⟨rfl, rfl⟩, rfl, rfl⟩

/-- A waiting RDVBI meets the invariant, whatever its channel is about to answer. -/
theorem inv_betweenBytes (c : Channel Config.TransportError) : Inv { betweenBytes with chan := c } where
  idle h := absurd h (by simp [betweenBytes])
  busy _ := ⟨rfl, ⟨4, 0, 0, 0⟩, .rdvbi, rfl, by decide, rfl, rfl, rfl, rfl, .inr (.inl rfl),
    (by decide : (0 : Word).toNat < (128 : Word).toNat)⟩
  cleared _ := ⟨rfl, rfl, rfl, rfl, rfl⟩
  answered h := absurd h (by simp [betweenBytes, State.reset, State.initial])
  status := by simp [betweenBytes, State.reset, State.initial]

/-- WRU16 0xABCD, its two bytes asked for in one request. -/
def writing : State :=
  { State.reset with
    ust := .busy, cmd := some ⟨10, 0xABCD, 0, 0⟩, pend := some (.write [0xAB, 0xCD])
    place := .field [] }

/-- A waiting WRU16 stands at its suspension point. -/
theorem waits_writing (c : Channel Config.TransportError) : WaitsAt (.wru16 0xABCD) { writing with chan := c } :=
  ⟨by decide, rfl, [], [0xAB, 0xCD], [], by decide, by decide, rfl, rfl⟩

/-- A waiting WRU16 meets the invariant. -/
theorem inv_writing (c : Channel Config.TransportError) : Inv { writing with chan := c } where
  idle h := absurd h (by simp [writing])
  busy _ := ⟨rfl, ⟨10, 0xABCD, 0, 0⟩, .wru16 0xABCD, rfl, by decide, waits_writing c⟩
  cleared _ := ⟨rfl, rfl, rfl, rfl, rfl⟩
  answered h := absurd h (by simp [writing, State.reset, State.initial])
  status := by simp [writing, State.reset, State.initial]

theorem witness_SilentChannelLeavesTheUnitWaiting :
    Inv betweenBytes ∧ betweenBytes.ust = .busy ∧ betweenBytes.agenda = [] ∧
      betweenBytes.chan.reads = [] ∧ betweenBytes.chan.writes = [] :=
  ⟨inv_betweenBytes betweenBytes.chan, rfl, rfl, rfl, rfl⟩

/-- The answers to requests of the other kind are any list. -/
theorem witness_WaitingChangesNothingOfTheUnit :
    ∀ c : Channel Config.TransportError,
      (c.reads = .wait :: [] → Inv { betweenBytes with chan := c } ∧ betweenBytes.ust = .busy ∧
        UnitMoves betweenBytes [] ∧ betweenBytes.pend = some (.read .u8)) ∧
      (c.writes = .wait :: [] → Inv { writing with chan := c } ∧ writing.ust = .busy ∧
        UnitMoves writing [] ∧ writing.pend = some (.write [0xAB, 0xCD])) :=
  fun c => ⟨fun _ => ⟨inv_betweenBytes c, rfl, .inl ⟨rfl, rfl⟩, rfl⟩,
    fun _ => ⟨inv_writing c, rfl, .inl ⟨rfl, rfl⟩, rfl⟩⟩

theorem witness_IdleUnitWaitsForACommand :
    State.reset.ust = .idle ∧ State.reset.port = [] ∧ State.reset.agenda = [] := by decide

theorem witness_UnboundUnitRefusesCommands :
    let s : State := { presentedRdu8 with chan := ⟨none, [], [], [], []⟩ }
    UnitMoves s [] ∧ s.ust = .idle ∧ s.port = ⟨1, 0, 0, 0⟩ :: [] ∧ s.chan.id = none :=
  ⟨.inl ⟨rfl, rfl⟩, rfl, rfl, rfl⟩

/-- An IDLE unit to which RDU8 is presented, its caller about to present RDU16 too. -/
def presentingNext : State := { presentedRdu8 with agenda := [.present ⟨2, 0, 0, 0⟩] }

theorem witness_ResponseStaysUntilAcceptanceOrReset :
    (State.reset.ust = .idle ∧ step State.reset = .next State.reset ∧
      (∀ d k rest, State.reset.agenda ≠ .reset d k :: rest) ∧ State.reset.port = []) ∧
    presentingNext.ust = .idle ∧ (∃ t, step presentingNext = .next t) ∧
      (∀ d k rest, presentingNext.agenda ≠ .reset d k :: rest) ∧
      presentingNext.agenda = .present ⟨2, 0, 0, 0⟩ :: [] ∧
      CallerAct.present ⟨2, 0, 0, 0⟩ ≠ .pass :=
  ⟨⟨rfl, rfl, fun _ _ _ h => by simp [State.reset, State.initial] at h, rfl⟩, rfl, ⟨_, rfl⟩,
    fun _ _ _ h => by simp [presentingNext] at h, rfl, by decide⟩

theorem witness_FixedWidthReadsGiveBigEndianValues :
    (onInput [1, 2, 3, 4] [.serve]).place = .start ∧
    (onInput [1, 2, 3, 4] [.serve]).chan.reads = .serve :: [] ∧
    (onInput [1, 2, 3, 4] [.serve]).chan.input = 1 :: [2, 3, 4] ∧
    (onInput [1, 2, 3, 4] [.serve]).chan.input = 1 :: 2 :: [3, 4] ∧
    (onInput [1, 2, 3, 4] [.serve]).chan.input = 1 :: 2 :: 3 :: 4 :: [] := by decide

theorem witness_FixedWidthWritesPutBigEndianBytes :
    (onOutput [.accept]).place = .start ∧ (onOutput [.accept]).chunks = [] ∧
    (onOutput [.accept]).chan.writes = .accept :: [] ∧
    (0xFF : Word).toNat < 2 ^ 8 ∧ (0xFFFF : Word).toNat < 2 ^ 16 := by decide

/-- The widest value of each width meets the hypotheses of the round trip. -/
theorem witness_FixedWidthRoundTrip :
    ∀ p ∈ ([(.u8, 0xFF), (.u16, 0xFFFF), (.u32, 0xFFFFFFFF)] : List (Width × Word)),
      p.2.toNat < 2 ^ (8 * p.1.bytes) ∧
      ∃ t, exec (writeOf p.1 p.2) (accepted (writeOf p.1 p.2) (onOutput [.accept])) = .next t ∧
        t.ust = .idle ∧ t.rsp.status = some 0 ∧ t.chan.output = [] ++ fieldBytes p.1 p.2 ∧
        (onInput (fieldBytes p.1 p.2) [.serve]).place = .start ∧
        (onInput (fieldBytes p.1 p.2) [.serve]).chan.input = fieldBytes p.1 p.2 ++ [] ∧
        (onInput (fieldBytes p.1 p.2) [.serve]).chan.reads = .serve :: [] := by
  intro p hp
  simp only [List.mem_cons, List.not_mem_nil, or_false] at hp
  rcases hp with rfl | rfl | rfl <;> exact ⟨by decide, _, rfl, rfl, rfl, rfl, rfl, rfl, rfl⟩

/-- The longest and the shortest encodings, canonical and not. -/
theorem isVbi_examples : IsVbi [0x7F] ∧ IsVbi [0xFF, 0xFF, 0xFF, 0x7F] ∧ IsVbi [0x80, 0x00] := by
  simp [IsVbi, Config.vbiMaxBytes, continues]

theorem witness_RdvbiReturnsTheValueOfEveryEncoding :
    (IsVbi [0x7F] ∧ (onInput [0x7F] [.serve]).place = .start ∧
      (onInput [0x7F] [.serve]).chan.input = [0x7F] ++ [] ∧
      (onInput [0x7F] [.serve]).chan.reads = List.replicate 1 .serve ++ []) ∧
    IsVbi [0xFF, 0xFF, 0xFF, 0x7F] ∧
    (onInput [0xFF, 0xFF, 0xFF, 0x7F, 9] (List.replicate 4 .serve)).chan.input
      = [0xFF, 0xFF, 0xFF, 0x7F] ++ [9] ∧
    (onInput [0xFF, 0xFF, 0xFF, 0x7F, 9] (List.replicate 4 .serve)).chan.reads
      = List.replicate 4 .serve ++ [] :=
  ⟨⟨isVbi_examples.1, rfl, rfl, rfl⟩, isVbi_examples.2.1, rfl, rfl⟩

theorem witness_RdvbiStopsAfterFourContinuedBytes :
    let s := onInput [0x80, 0x80, 0x80, 0xFF, 0x00] [.serve, .serve, .serve, .serve, .wait]
    continues 0x80 = true ∧ continues 0xFF = true ∧ s.place = .start ∧
    s.chan.input = 0x80 :: 0x80 :: 0x80 :: 0xFF :: [0x00] ∧
    s.chan.reads = List.replicate 4 .serve ++ [.wait] := by decide

theorem witness_RdvbiFailsOnTruncatedEncodings :
    (onInput [] [.eof 0]).place = .start ∧ (onInput [] [.eof 0]).chan.input = [] ∧
    (onInput [] [.eof 0]).chan.reads = List.replicate 0 .serve ++ .eof 0 :: [] ∧
    (∀ e ∈ ([0x80, 0x80, 0x80, 0xFF] : List Byte), continues e = true) ∧
    (onInput [0x80, 0x80, 0x80, 0xFF] [.serve, .serve, .serve, .serve, .eof 1]).chan.reads
      = List.replicate 4 .serve ++ .eof 1 :: [] := by decide

theorem witness_WrvbiWritesTheCanonicalEncoding :
    (0 : Word).toNat ≤ 127 ∧ (127 : Word).toNat ≤ 127 ∧
    (268435455 : Word).toNat ≤ Config.vbiMax ∧ ∀ n : Nat,
      (onOutput (List.replicate n .accept)).place = .start ∧
      (onOutput (List.replicate n .accept)).chunks = [] ∧
      (onOutput (List.replicate n .accept)).chan.writes = List.replicate n .accept ++ [] :=
  ⟨by decide, by decide, by decide, fun n => ⟨rfl, rfl, by simp [onOutput]⟩⟩

/-- WRVBI of the largest value, accepted; then the bytes it writes. -/
def writingLargest : State := accepted (.wrvbi 268435455) (onOutput (List.replicate 4 .accept))

theorem witness_VbiRoundTrip :
    (268435455 : Word).toNat ≤ Config.vbiMax ∧ writingLargest.ust = .busy ∧
    writingLargest.place = .start ∧
    nextIs (exec (.wrvbi 268435455) writingLargest) (fun t => t.ust == .idle
      && t.rsp.status == some 0 && t.chan.output == [] ++ [0xFF, 0xFF, 0xFF, 0x7F]) = true ∧
    (onInput [0xFF, 0xFF, 0xFF, 0x7F] (List.replicate 4 .serve)).place = .start ∧
    (onInput [0xFF, 0xFF, 0xFF, 0x7F] (List.replicate 4 .serve)).chan.input
      = [0xFF, 0xFF, 0xFF, 0x7F] ++ [] ∧
    (onInput [0xFF, 0xFF, 0xFF, 0x7F] (List.replicate 4 .serve)).chan.reads
      = List.replicate 4 .serve ++ [] :=
  ⟨by decide, rfl, rfl, by decide, rfl, rfl, rfl⟩

theorem witness_ReencodingIsTheIdentityExactlyOnCanonicalBytes :
    (IsVbi [0x7F] ∧ Canonical [0x7F]) ∧ IsVbi [0x80, 0x00] ∧ ¬ Canonical [0x80, 0x00] :=
  ⟨⟨isVbi_examples.1, .inl rfl⟩, isVbi_examples.2.2, by simp [Canonical]⟩

theorem witness_VbiArithmeticNeverWraps :
    DecoderFits ⟨2097151, 2097152, 0, 0, 0⟩ ∧ DecoderFits ⟨16383, 16384, 0, 0, 0⟩ ∧
      (16384 : Word) ≠ 2097152 := by simp [DecoderFits]

theorem witness_RdhdrReturnsEveryHeader :
    let s := onInput [0x32, 0xFF, 0xFF, 0xFF, 0x7F] (List.replicate 5 .serve)
    IsVbi [0xFF, 0xFF, 0xFF, 0x7F] ∧ s.place = .start ∧
    s.chan.input = 0x32 :: [0xFF, 0xFF, 0xFF, 0x7F] ++ [] ∧
    s.chan.reads = List.replicate (4 + 1) .serve ++ [] :=
  ⟨isVbi_examples.2.1, rfl, rfl, rfl⟩

theorem witness_RdhdrStopsAfterFourContinuedLengthBytes :
    let s := onInput [0x30, 0x80, 0x80, 0x80, 0x80] (List.replicate 5 .serve)
    continues 0x80 = true ∧ s.place = .start ∧
    s.chan.input = 0x30 :: 0x80 :: 0x80 :: 0x80 :: 0x80 :: [] ∧
    s.chan.reads = List.replicate 5 .serve ++ [] := by decide

theorem witness_FailedRdhdrReportsNoHeader :
    let s := accepted .rdhdr (onInput [0x3D] [.serve, .eof 0])
    s.ust = .busy ∧ Cleared s.rsp ∧
      nextIs (exec .rdhdr s) (fun t => t.rsp.status != some 0 && t.ust == .idle) = true :=
  ⟨rfl, ⟨rfl, rfl, rfl, rfl, rfl⟩, by decide⟩

theorem witness_WrhdrWritesTheHeader :
    (268435455 : Word).toNat ≤ Config.vbiMax ∧
    let s := onOutput (List.replicate ((vbiEncoding 268435455).length + 1) .accept)
    s.place = .start ∧ s.chunks = [] ∧
    s.chan.writes = List.replicate ((vbiEncoding 268435455).length + 1) .accept ++ [] := by decide

theorem witness_HeaderRoundTrip :
    let s := onInput [0x3D, 0x80, 0x00] (List.replicate 3 .serve)
    let w := onOutput (List.replicate 5 .accept)
    IsVbi [0x80, 0x00] ∧ s.place = .start ∧ s.chan.input = 0x3D :: [0x80, 0x00] ++ [] ∧
    s.chan.reads = List.replicate (2 + 1) .serve ++ [] ∧ w.place = .start ∧
    w.chan.writes = List.replicate 5 .accept ++ [] ∧ IsVbi [0x7F] ∧ Canonical [0x7F] :=
  ⟨isVbi_examples.2.2, rfl, rfl, rfl, rfl, rfl, isVbi_examples.1, .inl rfl⟩

theorem witness_PacketTypeConversionsComplete : (0xFF : Word).toNat < 2 ^ 8 := by decide

/-- A waiting RDVBI stands at its suspension point. -/
theorem waits_betweenBytes (c : Channel Config.TransportError) : WaitsAt .rdvbi { betweenBytes with chan := c } :=
  ⟨rfl, rfl, rfl, rfl, .inr (.inl rfl), (by decide : (0 : Word).toNat < (128 : Word).toNat)⟩

theorem witness_ReadFailuresEndTheCommand :
    readsChannel .rdvbi = true ∧
    (WaitsAt .rdvbi { betweenBytes with chan := ⟨some 0, [], [.eof 1], [], []⟩ }) ∧
    (WaitsAt .rdvbi { betweenBytes with chan := ⟨some 0, [], [.err noSpace 0], [], []⟩ }) :=
  ⟨rfl, waits_betweenBytes _, waits_betweenBytes _⟩

theorem witness_WriteFailuresEndTheCommand :
    let s := { writing with chan := ⟨some 0, [], [], [], [.err noSpace 1]⟩ }
    writesChannel (.wru16 0xABCD) = true ∧ WaitsAt (.wru16 0xABCD) s ∧
      s.chan.writes = .err noSpace 1 :: [] :=
  ⟨rfl, waits_writing _, rfl⟩

theorem witness_EncodersEndAboveTheDomain : Config.vbiMax < (268435456 : Word).toNat := by decide

/-- An IDLE unit to which the reserved word 0x81 is presented. -/
def presentedReserved : State := presented ⟨0x81, 0, 0, 0⟩ State.reset

theorem witness_IllegalCommandsEndAtOnce :
    2 ^ 8 ≤ (0x100 : Word).toNat ∧ 2 ^ 16 ≤ (0x10000 : Word).toNat ∧
    UnitMoves presentedReserved [] ∧ presentedReserved.ust = .idle ∧
    presentedReserved.port = ⟨0x81, 0, 0, 0⟩ :: [] ∧ presentedReserved.chan.id ≠ none ∧
    decode ⟨0x81, 0, 0, 0⟩ = .reserved 0x81 :=
  ⟨by decide, by decide, .inl ⟨rfl, rfl⟩, rfl, rfl, by decide, by decide⟩

theorem witness_ClaimsStopAtIllegalCommandsAndAboveTheDomain :
    (UnitMoves presentedReserved [] ∧ presentedReserved.ust = .idle ∧
      presentedReserved.port = ⟨0x81, 0, 0, 0⟩ :: [] ∧ presentedReserved.chan.id ≠ none ∧
      legal ⟨0x81, 0, 0, 0⟩ = false ∧ legal ⟨9, 0x100, 0, 0⟩ = false) ∧
    (decode ⟨12, 268435456, 0, 0⟩ = .instr (.wrvbi 268435456) ∧
      (Instr.wrvbi 268435456).wellFormed = true ∧ inDomain (.wrvbi 268435456) = false) ∧
    decode ⟨12, 268435455, 0, 0⟩ = .instr (.wrvbi 268435455) ∧
      (Instr.wrvbi 268435455).wellFormed = true ∧ inDomain (.wrvbi 268435455) = true :=
  ⟨⟨.inl ⟨rfl, rfl⟩, rfl, rfl, by decide, by decide, by decide⟩, by decide, by decide⟩

theorem witness_MarkedRunsStayMarked :
    (∃ t, turn exec presentedReserved = .next t ∧ ¬ Unmarked t) ∧
    (turn exec betweenBytes = .next betweenBytes ∧ Unmarked betweenBytes) ∧
    step betweenBytes = .next betweenBytes :=
  ⟨⟨_, rfl, fun h => nomatch (h : [Mark.illegalCommand] = [])⟩, ⟨rfl, rfl⟩, rfl⟩

theorem witness_CommandsReachOnlyTheirOutcomes :
    let s := accepted .rdu8 (onInput [0xFF] [.serve])
    s.ust = .busy ∧ nextIs (exec .rdu8 s) (fun t => t.ust == .idle) = true := by decide

theorem witness_CommandsKeepTheirFrame :
    (∃ t, exec .rdvbi betweenBytes = .next t) ∧ (∃ t, exec (.wru16 0xABCD) writing = .next t) ∧
    readsChannel (.wru16 0xABCD) = false ∧ writesChannel .rdvbi = false :=
  ⟨⟨_, rfl⟩, ⟨_, rfl⟩, rfl, rfl⟩

theorem witness_StreamsOnlyMoveForward : ∃ t, step presentedRdu8 = .next t := ⟨_, rfl⟩

theorem witness_WritesPutExactlyTheirEncodingUnderEveryChunking :
    let s := { onOutput (List.replicate 5 .accept) with chunks := [2, 0, 7] }
    writesChannel (.wrhdr 15 0xF 268435455) = true ∧ (Instr.wrhdr 15 0xF 268435455).wellFormed = true ∧
    inDomain (.wrhdr 15 0xF 268435455) = true ∧ s.place = .start ∧
    s.chan.writes = List.replicate 5 .accept ++ [] := by decide

theorem witness_ResetAbandonsTheRunningCommand :
    { betweenBytes with agenda := [.reset ⟨1, 2, 3, 4, 5⟩ 1] }.agenda = .reset ⟨1, 2, 3, 4, 5⟩ 1 :: [] ∧
    { State.reset with agenda := [.reset ⟨1, 2, 3, 4, 5⟩ 1] }.pend = none := ⟨rfl, rfl⟩

/-- A valid response, the registers in `r`, and a caller about to read `reg`. -/
def reading (r : Response Config.TransportError) (reg : RspReg) : State :=
  { State.reset with rsp := r, agenda := [.read reg] }

theorem witness_CallerReadsOnlyWrittenRegisters :
    let empty : Response Config.TransportError := ⟨true, some 4, none, none, none, none, none⟩
    let full : Response Config.TransportError :=
      ⟨true, some 0, some 1, some 2, some 3, some 4, some noSpace⟩
    (∀ reg : RspReg, (reading empty reg).agenda = .read reg :: []) ∧
    ((reading State.reset.rsp .status).rsp.valid = false ∧ RspReg.status ≠ .valid) ∧
    (empty.valid = true ∧ empty.status = some 4 ∧ (4 : BitVec 3).toNat ≤ 4) ∧
    (empty.value = none ∧ empty.pt = none ∧ empty.flags = none ∧ empty.len = none ∧
      empty.err = none) ∧
    full.valid = true ∧ full.value = some 1 ∧ full.pt = some 2 ∧ full.flags = some 3 ∧
      full.len = some 4 ∧ full.err = some noSpace :=
  ⟨fun _ => rfl, by decide, by decide, by decide, by decide⟩

theorem witness_StepKeepsTheInvariant :
    Inv betweenBytes ∧ step betweenBytes = .next betweenBytes ∧
      turn exec betweenBytes = .next betweenBytes :=
  ⟨inv_betweenBytes betweenBytes.chan, rfl, rfl⟩

theorem witness_UnitTurnsNeverFaultUnderTheInvariant : Inv writing ∧ UnitMoves writing [] :=
  ⟨inv_writing writing.chan, .inl ⟨rfl, rfl⟩⟩

theorem witness_CommandsDoNotReadLeftoverRegisters :
    (onInput [0x80] [.serve]).place = .start ∧
      nextIs (exec .rdvbi (onInput [0x80] [.serve])) (fun t => t.pend != none) = true := by decide

theorem witness_LateAnswersChangeNothing :
    let s := onInput [0x80] [.serve]
    s.place = .start ∧ .wait ∉ s.chan.reads ∧ .wait ∉ s.chan.writes ∧
      nextIs (exec .rdvbi s)
        (fun t => t.pend != none && t.chan.reads == [] && t.chan.writes == []) = true := by decide

/-- Over an error type of two values: a write that the channel refuses with one of them. -/
theorem witness_TransportErrorTypeDoesNotMatter :
    Nonempty Bool ∧
    nextIs (stepOf (E := Bool) { State.initial Bool with
        port := [⟨9, 5, 0, 0⟩], chan := ⟨some 0, [], [], [], [.err true 0]⟩ })
      (fun t => t.rsp.status == some 2 && t.rsp.err == some true) = true :=
  ⟨⟨true⟩, by decide⟩

/-- Two units, each on a channel of its own. -/
def twoUnits : System Config.TransportError 2 where
  units := #v[presentedRdu8, { writing with chan := ⟨some 1, [], [], [], [.accept]⟩ }]
  atLeastOne := by decide

theorem witness_UnitsAreIndependent :
    ∃ one two, twoUnits.step 0 = .next one ∧ one.step 1 = .next two := ⟨_, _, rfl, rfl⟩

/-- A unit beside `twoUnits`' second that is about to accept the reserved word 0x81, or WRVBI above
the domain. -/
theorem witness_SystemsStopAtIllegalCommandsAndAboveTheDomain :
    let sys : System Config.TransportError 2 :=
      ⟨#v[presentedReserved, twoUnits.units[1]], by decide⟩
    (sys.channelsApart = true ∧ sys.units[0]? = some presentedReserved ∧
      UnitMoves presentedReserved [] ∧ presentedReserved.ust = .idle ∧
      presentedReserved.port = ⟨0x81, 0, 0, 0⟩ :: [] ∧ presentedReserved.chan.id ≠ none ∧
      legal ⟨0x81, 0, 0, 0⟩ = false) ∧
    decode ⟨12, 268435456, 0, 0⟩ = .instr (.wrvbi 268435456) ∧
      (Instr.wrvbi 268435456).wellFormed = true ∧ inDomain (.wrvbi 268435456) = false :=
  ⟨⟨by decide, rfl, .inl ⟨rfl, rfl⟩, rfl, rfl, by decide, by decide⟩, by decide⟩

theorem witness_SharedChannelsAreRefused :
    let sys : System Config.TransportError 2 := ⟨#v[State.reset, State.reset], by decide⟩
    (0 : Nat) ≠ 1 ∧ sys.units[0]? = some State.reset ∧ sys.units[1]? = some State.reset ∧
      State.reset.chan.id = some 0 := by decide

end Sys2Proof.Tests
end

section
/-!
SUPPORT. The channel's error values pass through the unit (rules R8, R109): for each operation one
lemma, that it commutes with any change of them, up to the whole step; and the tokens of log 2 can
name all the error values of a state, which are finitely many.
-/
namespace Sys2Proof.ErrorValues

open Sys2Proof.Machine Sys2Proof.Safety
open Sys2Proof.Config (TransportError)

variable {E E' E'' : Type} (f : E → E')

/-! ### The channel and its answers -/

/-- The channel, every error value among its answers to come changed by `f`. -/
def renameChannel (c : Channel E) : Channel E' :=
  { c with reads := c.reads.map (renameRead f), writes := c.writes.map (renameWrite f) }

/-- An answer to a read request, its error value changed by `f`. -/
def renameReadAnswer : ReadAnswer E → ReadAnswer E'
  | .err e => .err (f e)
  | .ok bs => .ok bs
  | .eof => .eof

/-- An answer to a write request, its error value changed by `f`. -/
def renameWriteAnswer : WriteAnswer E → WriteAnswer E'
  | .err e => .err (f e)
  | .ok => .ok

theorem chan_renameState (s : State E) : (renameState f s).chan = renameChannel f s.chan := rfl

theorem answerRead_renameChannel (n : Nat) (c : Channel E) :
    (renameChannel f c).answerRead n
      = ((c.answerRead n).1.map (renameReadAnswer f), renameChannel f (c.answerRead n).2) := by
  obtain ⟨id, input, reads, output, writes⟩ := c
  rcases reads with _ | ⟨v, more⟩
  · rfl
  · cases v with
    | serve =>
      by_cases h : n ≤ input.length
      · simp [Channel.answerRead, renameChannel, renameRead, renameReadAnswer, Channel.take, h]
      · simp [Channel.answerRead, renameChannel, renameRead, h]
    | eof k => rfl
    | err e k => rfl
    | wait => rfl

theorem answerWrite_renameChannel (bs : List Byte) (c : Channel E) :
    (renameChannel f c).answerWrite bs
      = ((c.answerWrite bs).1.map (renameWriteAnswer f), renameChannel f (c.answerWrite bs).2) := by
  obtain ⟨id, input, reads, output, writes⟩ := c
  rcases writes with _ | ⟨v, more⟩
  · rfl
  · cases v <;> rfl

/-! ### Outcomes -/

@[simp] theorem mapNext_next (g : State E → State E') (t : State E) :
    mapNext g (.next t) = .next (g t) := rfl
@[simp] theorem mapNext_fault (g : State E → State E') (r : Fault) :
    mapNext g (.fault r) = .fault r := rfl
@[simp] theorem mapNext_refused (g : State E → State E') (r : Refusal) :
    mapNext g (.refused r) = .refused r := rfl

/-! ### Updates of the state

An update may copy or drop an error value, and computes nothing from one. -/

@[simp] theorem issue_renameState (s : State E) (r : Request) (p : Place) :
    (renameState f s).issue r p = renameState f (s.issue r p) := rfl

@[simp] theorem issueField_renameState (s : State E) (bs : List Byte) :
    (renameState f s).issueField bs = renameState f (s.issueField bs) := rfl

@[simp] theorem issueDigits_renameState (s : State E) :
    (renameState f s).issueDigits = renameState f s.issueDigits := rfl

@[simp] theorem beginEncode_renameState (s : State E) (v : Word) :
    (renameState f s).beginEncode v = renameState f (s.beginEncode v) := rfl

@[simp] theorem beginDecode_renameState (s : State E) :
    (renameState f s).beginDecode = renameState f s.beginDecode := rfl

@[simp] theorem accumulate_renameState (s : State E) (e : Byte) :
    (renameState f s).accumulate e = renameState f (s.accumulate e) := rfl

@[simp] theorem scale_renameState (s : State E) :
    (renameState f s).scale = renameState f s.scale := rfl

@[simp] theorem latchControl_renameState (s : State E) (c : Byte) :
    (renameState f s).latchControl c = renameState f (s.latchControl c) := rfl

@[simp] theorem setValue_renameState (s : State E) (v : Word) :
    (renameState f s).setValue v = renameState f (s.setValue v) := rfl

@[simp] theorem setPt_renameState (s : State E) (t : Nibble) :
    (renameState f s).setPt t = renameState f (s.setPt t) := rfl

@[simp] theorem reportValue_renameState (s : State E) :
    reportValue (renameState f s) = renameState f (reportValue s) := rfl

@[simp] theorem reportHeader_renameState (s : State E) :
    reportHeader (renameState f s) = renameState f (reportHeader s) := rfl

@[simp] theorem complete_renameState (s : State E) :
    (renameState f s).complete = renameState f s.complete := rfl

@[simp] theorem accept_renameState (s : State E) (c : Command) (ws : List Command) :
    (renameState f s).accept c ws = renameState f (s.accept c ws) := rfl

@[simp] theorem resetUnit_renameState (s : State E) (d : Datapath) (k : Nat) :
    (renameState f s).resetUnit d k = renameState f (s.resetUnit d k) := by
  rcases hp : s.pend with _ | w | bs <;>
    simp [State.resetUnit, hp, Channel.abandon, renameState, Channel.take, Channel.put]

@[simp] theorem raise_malformed_renameState (s : State E) :
    raise .malformed (renameState f s) = mapNext (renameState f) (raise .malformed s) := rfl

@[simp] theorem raise_transport_renameState (e : E) (s : State E) :
    raise (.transport (f e)) (renameState f s)
      = mapNext (renameState f) (raise (.transport e) s) := rfl

@[simp] theorem raise_illegalCommand_renameState (s : State E) :
    raise .illegalCommand (renameState f s)
      = mapNext (renameState f) (raise .illegalCommand s) := rfl

@[simp] theorem raise_encDomain_renameState (s : State E) :
    raise .encDomain (renameState f s) = mapNext (renameState f) (raise .encDomain s) := rfl

/-! ### Waiting on a request -/

theorem awaitRead_renameState (s : State E) {k : List Byte → State E → Result E}
    {k' : List Byte → State E' → Result E'}
    (hk : ∀ bs t, k' bs (renameState f t) = mapNext (renameState f) (k bs t)) :
    awaitRead (renameState f s) k' = mapNext (renameState f) (awaitRead s k) := by
  rcases hp : s.pend with _ | w | bs
  · simp [awaitRead, hp]
  · simp only [awaitRead, renameState_pend, hp, chan_renameState, answerRead_renameChannel]
    rcases s.chan.answerRead w.bytes with ⟨_ | bs | _ | e, c⟩
    · rfl
    · exact hk bs (s.answered c)
    · exact raise_malformed_renameState f (s.answered c)
    · exact raise_transport_renameState f e (s.answered c)
  · simp [awaitRead, hp]

theorem awaitWrite_renameState (s : State E) {k : State E → Result E}
    {k' : State E' → Result E'}
    (hk : ∀ t, k' (renameState f t) = mapNext (renameState f) (k t)) :
    awaitWrite (renameState f s) k' = mapNext (renameState f) (awaitWrite s k) := by
  rcases hp : s.pend with _ | w | bs
  · simp [awaitWrite, hp]
  · simp [awaitWrite, hp]
  · simp only [awaitWrite, renameState_pend, hp, chan_renameState, answerWrite_renameChannel]
    rcases s.chan.answerWrite bs with ⟨_ | _ | e, c⟩
    · rfl
    · exact hk (s.answered c)
    · exact raise_transport_renameState f e (s.answered c)

/-! ### The loops of the commands -/

@[simp] theorem driveField_renameState (n : Nat) (s : State E) :
    driveField n (renameState f s) = mapNext (renameState f) (driveField n s) := by
  induction n generalizing s with
  | zero => rfl
  | succ n ih =>
    refine awaitWrite_renameState f s fun t => ?_
    rcases hp : t.place with _ | (_ | ⟨b, bs⟩) | _ | _
    · simp [hp]
    · simp [hp]
    · simp [hp, ih]
    · simp [hp]
    · simp [hp]

theorem driveDecode_renameState {report : State E → State E} {report' : State E' → State E'}
    (hr : ∀ t, report' (renameState f t) = renameState f (report t)) (n : Nat) (s : State E) :
    driveDecode report' n (renameState f s)
      = mapNext (renameState f) (driveDecode report n s) := by
  induction n generalizing s with
  | zero => rfl
  | succ n ih =>
    refine awaitRead_renameState f s fun bs t => ?_
    simp only [accumulate_renameState, renameState_dp, hr, complete_renameState,
      raise_malformed_renameState, scale_renameState, issue_renameState, ih,
      apply_ite (mapNext (renameState f)), mapNext_next]

@[simp] theorem driveEncode_renameState (n : Nat) (s : State E) :
    driveEncode n (renameState f s) = mapNext (renameState f) (driveEncode n s) := by
  induction n generalizing s with
  | zero => rfl
  | succ n ih =>
    refine awaitWrite_renameState f s fun t => ?_
    simp only [renameState_dp, complete_renameState, issueDigits_renameState, ih,
      apply_ite (mapNext (renameState f)), mapNext_next]

/-! ### The commands -/

@[simp] theorem awaitField_renameState (s : State E) :
    awaitField (renameState f s) = mapNext (renameState f) (awaitField s) :=
  awaitRead_renameState f s fun bs t => by simp

@[simp] theorem readField_renameState (w : Width) (s : State E) :
    readField w (renameState f s) = mapNext (renameState f) (readField w s) := by
  cases hp : s.place with
  | start => simp [readField, hp]
  | field rest => simp [readField, hp]
  | control | digit => simp [readField, hp]

@[simp] theorem writeField_renameState (w : Width) (a : Word) (s : State E) :
    writeField w a (renameState f s) = mapNext (renameState f) (writeField w a s) := by
  cases hp : s.place with
  | start => simp [writeField, hp]
  | field rest => simp [writeField, hp]
  | control | digit => simp [writeField, hp]

/-- A write whose operand may be out of width. -/
theorem writeField_or_illegal_renameState (n : Nat) (w : Width) (a : Word) (s : State E) :
    (if fits n a then writeField w a (renameState f s) else raise .illegalCommand (renameState f s))
      = mapNext (renameState f)
          (if fits n a then writeField w a s else raise .illegalCommand s) := by
  split
  · exact writeField_renameState f w a s
  · exact raise_illegalCommand_renameState f s

@[simp] theorem execRdvbi_renameState (s : State E) :
    execRdvbi (renameState f s) = mapNext (renameState f) (execRdvbi s) := by
  have drive := driveDecode_renameState f (reportValue_renameState f) Config.vbiMaxBytes
  cases hp : s.place with
  | start => simp [execRdvbi, hp, drive]
  | digit => simp [execRdvbi, hp, drive]
  | field _ | control => simp [execRdvbi, hp]

@[simp] theorem execWrvbi_renameState (a : Word) (s : State E) :
    execWrvbi a (renameState f s) = mapNext (renameState f) (execWrvbi a s) := by
  unfold execWrvbi
  split
  · simp
  · cases hp : s.place with
    | start => simp [hp]
    | digit => simp [hp]
    | field _ | control => simp [hp]

@[simp] theorem awaitControl_renameState (s : State E) :
    awaitControl (renameState f s) = mapNext (renameState f) (awaitControl s) :=
  awaitRead_renameState f s fun bs t =>
    driveDecode_renameState f (reportHeader_renameState f) Config.vbiMaxBytes
      (t.latchControl (bs.headD 0)).beginDecode

@[simp] theorem execRdhdr_renameState (s : State E) :
    execRdhdr (renameState f s) = mapNext (renameState f) (execRdhdr s) := by
  cases hp : s.place with
  | start => simp [execRdhdr, hp]
  | control => simp [execRdhdr, hp]
  | digit => simp [execRdhdr, hp, driveDecode_renameState f (reportHeader_renameState f)]
  | field _ => simp [execRdhdr, hp]

@[simp] theorem awaitControlSent_renameState (a : Word) (s : State E) :
    awaitControlSent a (renameState f s) = mapNext (renameState f) (awaitControlSent a s) :=
  awaitWrite_renameState f s fun t =>
    driveEncode_renameState f Config.vbiMaxBytes (t.beginEncode a)

@[simp] theorem execWrhdr_renameState (t : Nibble) (b : Byte) (a : Word) (s : State E) :
    execWrhdr t b a (renameState f s) = mapNext (renameState f) (execWrhdr t b a s) := by
  unfold execWrhdr
  split
  · simp
  · cases hp : s.place with
    | start => simp [hp]
    | control => simp [hp]
    | digit => simp [hp]
    | field _ => simp [hp]

@[simp] theorem execPtfrom_renameState (a : Word) (s : State E) :
    execPtfrom a (renameState f s) = mapNext (renameState f) (execPtfrom a s) := by
  unfold execPtfrom
  split <;> simp

@[simp] theorem execOf_renameState (i : Instr) (s : State E) :
    execOf i (renameState f s) = mapNext (renameState f) (execOf i s) := by
  cases i with
  | rdu8 | rdu16 | rdu32 => exact readField_renameState f _ s
  | rdvbi => exact execRdvbi_renameState f s
  | rdhdr => exact execRdhdr_renameState f s
  | ptfrom a => exact execPtfrom_renameState f a s
  | wru8 a | wru16 a => exact writeField_or_illegal_renameState f _ _ a s
  | wru32 a => exact writeField_renameState f .u32 a s
  | wrvbi a => exact execWrvbi_renameState f a s
  | wrhdr t b a => exact execWrhdr_renameState f t b a s
  | ptto t => simp [execOf, execPtto]

/-! ### The turns and the step -/

@[simp] theorem runLatched_renameState (s : State E) :
    runLatched execOf (renameState f s) = mapNext (renameState f) (runLatched execOf s) := by
  rcases hc : s.cmd with _ | c
  · simp [runLatched, hc]
  · rcases hd : decode c with i | w
    · simp [runLatched, hc, hd]
    · simp [runLatched, hc, hd]

@[simp] theorem unitTurn_renameState (s : State E) :
    unitTurn execOf (renameState f s) = mapNext (renameState f) (unitTurn execOf s) := by
  cases hu : s.ust with
  | busy => simp [unitTurn, hu]
  | idle =>
    rcases hp : s.port with _ | ⟨c, waiting⟩
    · simp [unitTurn, hu, hp]
    · rcases hi : s.chan.id with _ | n
      · simp [unitTurn, hu, hp, hi]
      · simp [unitTurn, hu, hp, hi]

/-- What a read of a response register gave, its error value changed by `f`. -/
def renameReadOutcome :
    Host.Outcome (Reading E) Fault Refusal → Host.Outcome (Reading E') Fault Refusal
  | .next v => .next (renameReading f v)
  | .fault r => .fault r
  | .refused r => .refused r

theorem statusReading_rename (code : BitVec 3) :
    statusReading (E := E') code = renameReadOutcome f (statusReading code) := by
  unfold statusReading
  split <;> rfl

/-- A register's reading changes as its form does. -/
theorem readingOf_rename {α β : Type} (r : RspReg) {form : α → Reading E}
    {form' : β → Reading E'} (g : α → β) (h : ∀ x, form' (g x) = renameReading f (form x))
    (v : Option α) :
    readingOf r form' (v.map g) = renameReadOutcome f (readingOf r form v) := by
  cases v with
  | none => rfl
  | some x => simp [readingOf, renameReadOutcome, h]

@[simp] theorem readRsp_renameState (r : RspReg) (s : State E) :
    (renameState f s).readRsp r = renameReadOutcome f (s.readRsp r) := by
  cases hv : s.rsp.valid with
  | false => cases r <;> simp [State.readRsp, hv, renameReadOutcome, renameReading]
  | true =>
    cases r with
    | valid => simp [State.readRsp, renameReadOutcome, renameReading]
    | status =>
      rcases hs : s.rsp.status with _ | code
      · simp [State.readRsp, hv, hs, renameReadOutcome]
      · simpa [State.readRsp, hv, hs] using statusReading_rename f code
    | value =>
      simpa [State.readRsp, hv] using
        readingOf_rename f .value (form := .value) id (fun _ => rfl) s.rsp.value
    | pt =>
      simpa [State.readRsp, hv] using
        readingOf_rename f .pt (form := .pt) id (fun _ => rfl) s.rsp.pt
    | flags =>
      simpa [State.readRsp, hv] using
        readingOf_rename f .flags (form := .flags) id (fun _ => rfl) s.rsp.flags
    | len =>
      simpa [State.readRsp, hv] using
        readingOf_rename f .len (form := .len) id (fun _ => rfl) s.rsp.len
    | err =>
      simpa [State.readRsp, hv] using readingOf_rename f .err f (fun _ => rfl) s.rsp.err

@[simp] theorem callerTurn_renameState (act : CallerAct) (s : State E) :
    callerTurn execOf act (renameState f s)
      = mapNext (renameState f) (callerTurn execOf act s) := by
  cases act with
  | present c => rfl
  | read r =>
    simp only [callerTurn, readRsp_renameState]
    rcases s.readRsp r with v | e | e <;> rfl
  | reset d k => simp only [callerTurn, resetUnit_renameState, mapNext_next]
  | pass => exact unitTurn_renameState f s

@[simp] theorem turn_renameState (s : State E) :
    turn execOf (renameState f s) = mapNext (renameState f) (turn execOf s) := by
  rcases ha : s.agenda with _ | ⟨act, rest⟩
  · simp [turn, ha]
  · simp only [turn, renameState_agenda, ha]
    exact callerTurn_renameState f act { s with agenda := rest }

theorem stopAtMarks_renameState (s : State E) (r : Result E) :
    stopAtMarks (renameState f s) (mapNext (renameState f) r)
      = mapNext (renameState f) (stopAtMarks s r) := by
  rcases r with t | e | e
  · simp only [stopAtMarks, mapNext_next, renameState_marks]
    rcases t.marks.drop s.marks.length with _ | ⟨_ | _, _⟩ <;> rfl
  · rfl
  · rfl

@[simp] theorem stepOf_renameState (s : State E) :
    stepOf (renameState f s) = mapNext (renameState f) (stepOf s) := by
  rw [stepOf, turn_renameState, stopAtMarks_renameState, stepOf]

/-- Settles O49: no operation of a step looks at an error value (rule R109). -/
theorem transportErrorsAreNeverInspected : Obligations.TransportErrorsAreNeverInspected := by
  intro E E' f s
  exact stepOf_renameState f s

/-! ### The host's machine is the generic one at its error type -/

theorem exec_eq_execOf : exec = execOf (E := TransportError) := by
  funext i s
  cases i <;> rfl

theorem step_eq_stepOf (s : State) : step s = stepOf s := by rw [step, exec_eq_execOf, stepOf]

/-! ### The error values of a state -/

/-- The error value of an answer to a read. -/
def readError : ReadVerdict E → Option E
  | .err e _ => some e
  | .serve | .eof _ | .wait => none

/-- The error value of an answer to a write. -/
def writeError : WriteVerdict E → Option E
  | .err e _ => some e
  | .accept | .wait => none

/-- The error value that a caller read. -/
def readingError : Reading E → Option E
  | .err e => some e
  | .valid _ | .status _ | .value _ | .pt _ | .flags _ | .len _ => none

/-- All the error values in a state, every one that `renameState` changes. -/
def errorsOf (s : State E) : List E :=
  s.rsp.err.toList ++ s.chan.reads.filterMap readError ++ s.chan.writes.filterMap writeError
    ++ (s.readout.bind readingError).toList

theorem renameRead_comp (g : E' → E'') :
    renameRead g ∘ renameRead f = renameRead (g ∘ f) := by
  funext v
  cases v <;> rfl

theorem renameWrite_comp (g : E' → E'') :
    renameWrite g ∘ renameWrite f = renameWrite (g ∘ f) := by
  funext v
  cases v <;> rfl

theorem renameReading_comp (g : E' → E'') :
    renameReading g ∘ renameReading f = renameReading (g ∘ f) := by
  funext v
  cases v <;> rfl

theorem renameState_renameState (g : E' → E'') (s : State E) :
    renameState g (renameState f s) = renameState (g ∘ f) s := by
  simp [renameState, renameRead_comp, renameWrite_comp, renameReading_comp]

theorem renameRead_eq_self {h : E → E} {v : ReadVerdict E} (hv : ∀ e ∈ readError v, h e = e) :
    renameRead h v = v := by
  cases v with
  | err e k => simp [renameRead, hv e rfl]
  | serve | eof k | wait => rfl

theorem renameWrite_eq_self {h : E → E} {v : WriteVerdict E} (hv : ∀ e ∈ writeError v, h e = e) :
    renameWrite h v = v := by
  cases v with
  | err e k => simp [renameWrite, hv e rfl]
  | accept | wait => rfl

theorem renameReading_eq_self {h : E → E} {v : Reading E} (hv : ∀ e ∈ readingError v, h e = e) :
    renameReading h v = v := by
  cases v with
  | err e => simp [renameReading, hv e rfl]
  | valid _ | status _ | value _ | pt _ | flags _ | len _ => rfl

/-- A change that leaves the error values of a state leaves the state. -/
theorem renameState_eq_self {h : E → E} {s : State E} (hs : ∀ e ∈ errorsOf s, h e = e) :
    renameState h s = s := by
  simp only [errorsOf, List.mem_append, Option.mem_toList, List.mem_filterMap, or_imp,
    forall_and] at hs
  obtain ⟨⟨⟨herr, hreads⟩, hwrites⟩, hreadout⟩ := hs
  have err : s.rsp.err.map h = s.rsp.err :=
    (Option.map_congr (g := id) herr).trans Option.map_id'
  have reads : s.chan.reads.map (renameRead h) = s.chan.reads :=
    (List.map_congr_left (g := id) fun v hv =>
      renameRead_eq_self fun e he => hreads e ⟨v, hv, he⟩).trans (List.map_id _)
  have writes : s.chan.writes.map (renameWrite h) = s.chan.writes :=
    (List.map_congr_left (g := id) fun v hv =>
      renameWrite_eq_self fun e he => hwrites e ⟨v, hv, he⟩).trans (List.map_id _)
  have readout : s.readout.map (renameReading h) = s.readout :=
    (Option.map_congr (g := id) fun v hv =>
      renameReading_eq_self (v := v) fun e he =>
        hreadout e (Option.bind_eq_some_iff.2 ⟨v, hv, he⟩)).trans Option.map_id'
  simp only [renameState, err, reads, writes, readout]

/-- The tokens of log 2 can name any list of error values: the token `k` the `k`-th of them. -/
theorem exists_tokens [Nonempty E] (es : List E) :
    ∃ f : TransportError → E, ∀ e ∈ es, ∃ x, f x = e := by
  refine ⟨fun x => es.getD x.token (Classical.arbitrary E), fun e he => ?_⟩
  obtain ⟨k, hk, rfl⟩ := List.getElem_of_mem he
  exact ⟨⟨k⟩, by simp [hk]⟩

/-- Every state over an error type with a value is the image of one over the tokens. -/
theorem exists_renameState_eq [Nonempty E] (s : State E) :
    ∃ (f : TransportError → E) (t : State), renameState f t = s := by
  obtain ⟨f, hf⟩ := exists_tokens (errorsOf s)
  have : Nonempty TransportError := ⟨⟨0⟩⟩
  refine ⟨f, renameState (Function.invFun f) s, ?_⟩
  rw [renameState_renameState]
  exact renameState_eq_self fun e he => Function.invFun_eq (hf e he)

/-- Settles O54: `exec` has the arms of `execOf`; a state's error values are finitely many, so tokens
name them, and the step commutes with the naming (`stepOf_renameState`). -/
theorem transportErrorTypeDoesNotMatter : Obligations.TransportErrorTypeDoesNotMatter := by
  refine ⟨fun i s => by rw [exec_eq_execOf], step_eq_stepOf, fun E _ s => ?_⟩
  obtain ⟨f, t, rfl⟩ := exists_renameState_eq s
  exact ⟨f, t, rfl, by rw [step_eq_stepOf, stepOf_renameState]⟩

end Sys2Proof.ErrorValues
end

section
/-!
SUPPORT. What a command comes to in one turn, run from its first line or from a suspension point of
its: it waits at a suspension point, or it ends with an outcome of its row of rule R110 and the
response of that outcome. One lemma a loop, then one for every command.
-/
namespace Sys2Proof.CommandOutcomes

open Sys2Proof.Machine Sys2Proof.Safety
open Sys2Proof.Config (vbiMax)

variable {E : Type} {i : Instr} {s t u : State E}

/-- The command has got from `s` to a suspension point of its, its response untouched. -/
def Waits (i : Instr) (s t : State E) : Prop :=
  t.ust = s.ust ∧ t.cmd = s.cmd ∧ t.rsp = s.rsp ∧ WaitsAt i t

/-- The command has ended with an outcome it can reach, and with that outcome's response if its
result registers were unwritten. -/
def Ends (i : Instr) (s t : State E) : Prop :=
  ∃ (u : State E) (e : Ending E), t = u.finish e ∧ u.cmd = s.cmd ∧ reaches i e = true ∧
    (Cleared s.rsp → ResponseOf i t.rsp e)

/-- The run `r` of the command from `s` answers a next state, waiting or ended. -/
def Settles (i : Instr) (s : State E) (r : Result E) : Prop :=
  ∃ t, r = .next t ∧ (Waits i s t ∨ Ends i s t)

/-! ### Responses -/

theorem eq_bareResponse {r : Response E} (h : Cleared r) (code : BitVec 3) :
    { r with valid := true, status := some code } = bareResponse code := by
  obtain ⟨valid, status, value, pt, flags, len, err⟩ := r
  obtain ⟨rfl, rfl, rfl, rfl, rfl⟩ := h
  rfl

/-- An error leaves the result registers unwritten (rule R105). -/
theorem responseOf_finish {e : Ending E} (he : e ≠ .ok) (h : Cleared u.rsp) :
    ResponseOf i (u.finish e).rsp e := by
  have bare := eq_bareResponse h
  cases e with
  | ok => exact absurd rfl he
  | malformed => exact bare 1
  | transport x => exact congrArg (fun r : Response E => { r with err := some x }) (bare 2)
  | illegalCommand => exact bare 3
  | encDomain => exact bare 4

theorem settles_wait (h : Waits i s t) : Settles i s (.next t) := ⟨t, rfl, .inl h⟩

theorem settles_fail {e : Ending E} (he : e ≠ .ok) (hr : reaches i e = true)
    (hcmd : u.cmd = s.cmd) (hrsp : u.rsp = s.rsp) : Settles i s (raise e u) :=
  ⟨_, rfl, .inr ⟨u, e, rfl, hcmd, hr, fun h => responseOf_finish he (hrsp ▸ h)⟩⟩

theorem settles_complete (hr : reaches i (.ok : Ending E) = true) (hcmd : u.cmd = s.cmd)
    (hok : Cleared s.rsp → OkResponse i u.complete.rsp) : Settles i s (.next u.complete) :=
  ⟨_, rfl, .inr ⟨u, .ok, rfl, hcmd, hr, hok⟩⟩

/-! ### Waiting on a request -/

theorem wellFormed_of_waitsAt (h : WaitsAt i s) : i.wellFormed = true := h.1

theorem inDomain_of_waitsAt (h : WaitsAt i s) : inDomain i = true := h.2.1

/-- Where a command waits does not depend on the channel. -/
theorem waitsAt_chan (h : WaitsAt i s) (c : Channel E) : WaitsAt i { s with chan := c } := h

/-- A command that uses the channel can end with the channel's error (rule R110). -/
theorem reaches_transport (hu : (readsChannel i || writesChannel i) = true) (h : WaitsAt i s)
    (e : E) : reaches i (.transport e) = true := by
  simp [reaches, hu, wellFormed_of_waitsAt h, inDomain_of_waitsAt h]

/-- A waiting read settles if the rest of the command does. -/
theorem settles_awaitRead {w : Width} {k : List Byte → State E → Result E}
    (hi : readsChannel i = true) (hs : WaitsAt i s) (hp : s.pend = some (.read w))
    (hk : ∀ bs c, bs.length = w.bytes → Settles i s (k bs (s.answered c))) :
    Settles i s (awaitRead s k) := by
  rcases awaitRead_cases s k with ⟨-, h⟩ | ⟨w', hw, h⟩
  · exact absurd hp (h w)
  obtain rfl : w' = w := by rw [hp] at hw; simpa using hw.symm
  rcases h with ⟨r, -, h⟩ | ⟨bs, rest, r, -, -, hl, h⟩ | ⟨n, r, -, h⟩ | ⟨e, n, r, -, h⟩ <;> rw [h]
  · exact settles_wait ⟨rfl, rfl, rfl, waitsAt_chan hs _⟩
  · exact hk bs _ hl
  · exact settles_fail (by simp) hi rfl rfl
  · exact settles_fail (by simp) (reaches_transport (by simp [hi]) hs e) rfl rfl

/-- A waiting write settles if the rest of the command does. -/
theorem settles_awaitWrite {bs : List Byte} {k : State E → Result E}
    (hi : writesChannel i = true) (hs : WaitsAt i s) (hp : s.pend = some (.write bs))
    (hk : ∀ c, Settles i s (k (s.answered c))) : Settles i s (awaitWrite s k) := by
  rcases awaitWrite_cases s k with ⟨-, h⟩ | ⟨bs', -, h⟩
  · exact absurd hp (h bs)
  rcases h with ⟨r, -, h⟩ | ⟨r, -, h⟩ | ⟨e, n, r, -, h⟩ <;> rw [h]
  · exact settles_wait ⟨rfl, rfl, rfl, waitsAt_chan hs _⟩
  · exact hk _
  · exact settles_fail (by simp) (reaches_transport (by simp [hi]) hs e) rfl rfl

/-! ### Fixed-width commands -/

theorem waitsAt_readOf (w : Width) :
    WaitsAt (readOf w) s ↔ s.place = .field [] ∧ s.pend = some (.read w) := by
  cases w <;> simp [readOf, WaitsAt, Instr.wellFormed, inDomain]

theorem waitsAt_writeOf (w : Width) (a : Word) :
    WaitsAt (writeOf w a) s ↔ (writeOf w a).wellFormed = true ∧ FieldInFlight w a s := by
  cases w <;> simp [writeOf, WaitsAt, inDomain]

theorem execOf_writeOf (w : Width) (a : Word) (s : State E) :
    execOf (writeOf w a) s
      = if (writeOf w a).wellFormed then writeField w a s else raise .illegalCommand s := by
  cases w <;> rfl

/-- The value of a field is within its width and alone in its response (rules R73 to R75). -/
theorem okResponse_readOf {w : Width} {bs : List Byte} (hl : bs.length = w.bytes)
    (h : Cleared s.rsp) : OkResponse (readOf w) (s.setValue (fieldValue bs)).complete.rsp := by
  have hr : (s.setValue (fieldValue bs)).complete.rsp
      = { (bareResponse 0 : Response E) with value := some (fieldValue bs) } := by
    rw [← eq_bareResponse h]; rfl
  rw [hr]
  cases w with
  | u8 =>
    obtain ⟨b, rfl⟩ := List.length_eq_one_iff.mp hl
    refine ⟨_, ?_, rfl⟩
    rw [fieldValue_one, BitVec.toNat_setWidth]
    have := b.isLt
    omega
  | u16 =>
    obtain ⟨b, c, rfl⟩ := List.length_eq_two.mp hl
    refine ⟨_, ?_, rfl⟩
    rw [fieldValue_two, BitVec.toNat_setWidth]
    have := (b ++ c).isLt
    omega
  | u32 => exact ⟨_, rfl⟩

theorem awaitField_settles {w : Width} (h : WaitsAt (readOf w) s) :
    Settles (readOf w) s (awaitField s) := by
  have hi : readsChannel (readOf w) = true := by cases w <;> rfl
  refine settles_awaitRead hi h ((waitsAt_readOf w).mp h).2 fun bs c hl => ?_
  exact settles_complete (by cases w <;> rfl) rfl fun hc =>
    okResponse_readOf (s := s.answered c) hl hc

theorem readField_settles {w : Width} (h : s.place = .start ∨ WaitsAt (readOf w) s) :
    Settles (readOf w) s (readField w s) := by
  unfold readField
  rcases h with h | h
  · rw [h]
    exact awaitField_settles (s := s.issue (.read w) (.field [])) ((waitsAt_readOf w).mpr ⟨rfl, rfl⟩)
  · rw [((waitsAt_readOf w).mp h).1]
    exact awaitField_settles h

theorem place_of_fieldInFlight {w : Width} {a : Word} (h : FieldInFlight w a s) :
    ∃ rest, s.place = .field rest := by
  obtain ⟨-, -, rest, -, -, -, hpl⟩ := h
  exact ⟨rest, hpl⟩

theorem driveField_settles {w : Width} {a : Word} (n : Nat)
    (hw : (writeOf w a).wellFormed = true) (h : FieldInFlight w a s) :
    Settles (writeOf w a) s (driveField n s) := by
  obtain ⟨before, now, rest, hn, hb, hp, hpl⟩ := h
  have hi : writesChannel (writeOf w a) = true := by cases w <;> rfl
  have hd : inDomain (writeOf w a) = true := by cases w <;> rfl
  obtain ⟨sent, now', rest', ch, ws, -, hn', he, h⟩ := driveField_cases n s hp hpl hn
  rcases h _ rfl with e | ⟨-, e⟩ | ⟨x, k, e⟩ <;> rw [e]
  · refine settles_wait ⟨rfl, rfl, rfl, (waitsAt_writeOf w a).mpr ⟨hw, ?_⟩⟩
    exact ⟨before ++ sent, now', rest', hn', by rw [← hb]; simpa using he, rfl, rfl⟩
  · refine settles_complete (by simp [reaches, hw, hd]) rfl fun hc => ?_
    cases w <;> exact eq_bareResponse hc 0
  · exact settles_fail (by simp) (by simp [reaches, hi, hw, hd]) rfl rfl

/-- The first request of a field, whatever its chunk (rule R45). -/
theorem fieldInFlight_issueField (w : Width) (a : Word) (s : State E) :
    FieldInFlight w a (s.issueField (fieldBytes w a)) := by
  have hl : 0 < (fieldBytes w a).length := by cases w <;> simp [fieldBytes]
  obtain ⟨c, hc⟩ := chunkSize_pos s hl
  refine ⟨[], (fieldBytes w a).take (c + 1), (fieldBytes w a).drop (c + 1), ?_, by simp,
    by rw [issueField_pend, hc], by rw [issueField_place, hc]⟩
  rw [← List.length_pos_iff, List.length_take]
  omega

theorem writeField_settles {w : Width} {a : Word} (hw : (writeOf w a).wellFormed = true)
    (h : s.place = .start ∨ WaitsAt (writeOf w a) s) :
    Settles (writeOf w a) s (writeField w a s) := by
  unfold writeField
  rcases h with h | h
  · rw [h]
    exact driveField_settles (s := s.issueField (fieldBytes w a)) 4 hw
      (fieldInFlight_issueField w a s)
  · have hf := ((waitsAt_writeOf w a).mp h).2
    obtain ⟨rest, hpl⟩ := place_of_fieldInFlight hf
    rw [hpl]
    exact driveField_settles 4 hw hf

theorem writeOf_settles {w : Width} {a : Word} (h : s.place = .start ∨ WaitsAt (writeOf w a) s) :
    Settles (writeOf w a) s (execOf (writeOf w a) s) := by
  rw [execOf_writeOf]
  split
  next hw => exact writeField_settles hw h
  next hw => exact settles_fail (by simp) (by simp [reaches, hw]) rfl rfl

/-! ### The decoder -/

/-- The decoder's loop, for the command whose report and whose wait for a byte these are. -/
theorem driveDecode_settles {report : State E → State E} (n : Nat)
    (hi : readsChannel i = true) (hok : reaches i (.ok : Ending E) = true)
    (hcmd : ∀ u : State E, (report u).cmd = u.cmd)
    (hrep : ∀ u : State E, Cleared u.rsp → u.dp.vdValue.toNat ≤ vbiMax →
      OkResponse i (report u).complete.rsp)
    (hwait : ∀ u : State E, u.pend = some (.read .u8) → u.place = .digit → DecoderFits u.dp →
      WaitsAt i u)
    (hp : s.pend = some (.read .u8)) (hpl : s.place = .digit) (hd : DecoderFits s.dp) :
    Settles i s (driveDecode report n s) := by
  have hs := hwait s hp hpl hd
  obtain ⟨v, m, input, reads, -, -, h⟩ := driveDecode_cases report n s hp hpl
  rcases h _ rfl with ⟨e, hf⟩ | ⟨e, hv⟩ | e | ⟨x, e⟩ <;> rw [e]
  · exact settles_wait ⟨rfl, rfl, rfl, hwait _ hp hpl (hf hd)⟩
  · exact settles_complete hok (hcmd _) fun hc => hrep _ hc (hv hd)
  · exact settles_fail (by simp) hi rfl rfl
  · exact settles_fail (by simp) (reaches_transport (by simp [hi]) hs x) rfl rfl

/-- The decoder starts within its invariant (rule R81). -/
theorem decoderFits_beginDecode (s : State E) : DecoderFits s.beginDecode.dp :=
  ⟨.inl rfl, by simp⟩

theorem reportValue_okResponse (h : Cleared u.rsp) (hv : u.dp.vdValue.toNat ≤ vbiMax) :
    OkResponse .rdvbi (reportValue u).complete.rsp := by
  refine ⟨u.dp.vdValue, hv, ?_⟩
  rw [← eq_bareResponse h]
  rfl

theorem reportHeader_okResponse (h : Cleared u.rsp) (hv : u.dp.vdValue.toNat ≤ vbiMax) :
    OkResponse .rdhdr (reportHeader u).complete.rsp := by
  refine ⟨u.dp.hdrPt, u.dp.hdrFlags, u.dp.vdValue, hv, ?_⟩
  rw [← eq_bareResponse h]
  rfl

theorem decodeValue_settles (n : Nat) (hp : s.pend = some (.read .u8)) (hpl : s.place = .digit)
    (hd : DecoderFits s.dp) : Settles .rdvbi s (driveDecode reportValue n s) :=
  driveDecode_settles n rfl rfl (fun _ => rfl) (fun _ => reportValue_okResponse)
    (fun _ hp hpl hd => ⟨rfl, rfl, hpl, hp, hd⟩) hp hpl hd

theorem decodeLength_settles (n : Nat) (hp : s.pend = some (.read .u8)) (hpl : s.place = .digit)
    (hd : DecoderFits s.dp) : Settles .rdhdr s (driveDecode reportHeader n s) :=
  driveDecode_settles n rfl rfl (fun _ => rfl) (fun _ => reportHeader_okResponse)
    (fun _ hp hpl hd => ⟨rfl, rfl, hp, .inr ⟨hpl, hd⟩⟩) hp hpl hd

theorem execRdvbi_settles (h : s.place = .start ∨ WaitsAt .rdvbi s) :
    Settles .rdvbi s (execRdvbi s) := by
  unfold execRdvbi
  rcases h with h | ⟨-, -, hpl, hp, hd⟩
  · rw [h]
    exact decodeValue_settles (s := s.beginDecode) _ rfl rfl (decoderFits_beginDecode s)
  · rw [hpl]
    exact decodeValue_settles _ hp hpl hd

theorem awaitControl_settles (hp : s.pend = some (.read .u8)) (hpl : s.place = .control) :
    Settles .rdhdr s (awaitControl s) :=
  settles_awaitRead rfl ⟨rfl, rfl, hp, .inl hpl⟩ hp fun bs c _ =>
    let u := (s.answered c).latchControl (bs.headD 0)
    decodeLength_settles (s := u.beginDecode) _ rfl rfl (decoderFits_beginDecode u)

theorem execRdhdr_settles (h : s.place = .start ∨ WaitsAt .rdhdr s) :
    Settles .rdhdr s (execRdhdr s) := by
  unfold execRdhdr
  rcases h with h | ⟨-, -, hp, hpl | ⟨hpl, hd⟩⟩
  · rw [h]
    exact awaitControl_settles (s := s.issue (.read .u8) .control) rfl rfl
  · rw [hpl]
    exact awaitControl_settles hp hpl
  · rw [hpl]
    exact decodeLength_settles _ hp hpl hd

/-! ### The encoder -/

theorem place_of_vbiInFlight {a : Word} (h : VbiInFlight a s) : s.place = .digit := by
  obtain ⟨-, -, -, -, -, -, hpl⟩ := h
  exact hpl

/-- The encoder's loop, for the command whose wait within the encoding of `a` this is. -/
theorem driveEncode_settles {a : Word} (n : Nat) (hi : writesChannel i = true)
    (hok : reaches i (.ok : Ending E) = true) 
    (hrep : ∀ r : Response E, Cleared r → OkResponse i { r with valid := true, status := some 0 })
    (hwait : ∀ u : State E, VbiInFlight a u → WaitsAt i u) (h : VbiInFlight a s) :
    Settles i s (driveEncode n s) := by
  have hs := hwait s h
  obtain ⟨before, now, hn, hb, hx, hp, hpl⟩ := h
  obtain ⟨sent, now', x, ch, ws, -, hn', hx', he, h⟩ := driveEncode_cases n s hp hpl hn hx
  rcases h _ rfl with e | ⟨-, e⟩ | ⟨y, k, e⟩ <;> rw [e]
  · refine settles_wait ⟨rfl, rfl, rfl, hwait _ ?_⟩
    exact ⟨before ++ sent, now', hn', by rw [← hb]; simpa using he, hx', rfl, hpl⟩
  · exact settles_complete hok rfl (hrep _)
  · exact settles_fail (by simp) (reaches_transport (by simp [hi]) hs y) rfl rfl

/-- The first request of a VBI, whatever its chunk (rules R45, R84). -/
theorem vbiInFlight_beginEncode {a : Word} (ha : a.toNat ≤ vbiMax) (s : State E) :
    VbiInFlight a (s.beginEncode a) := by
  obtain ⟨c, hc⟩ := chunkSize_pos { s with dp := { s.dp with veX := a } } (r := 1) (by decide)
  simp only [VbiInFlight, State.beginEncode, issueDigits_pend, issueDigits_dp, hc]
  exact ⟨[], _, vbiChunk_ne_nil c a, vbiEncoding_split c a ha, (vbiChunk_le _ a).trans ha, rfl, rfl⟩

theorem beyondDomain_eq_false {a : Word} : beyondDomain a = false ↔ a.toNat ≤ vbiMax := by
  simp [beyondDomain]

/-- The outcome of an encoder whose operand may be above the domain (rule R85). -/
theorem settles_domain {a : Word} {r : Result E} (hd : inDomain i = decide (a.toNat ≤ vbiMax))
    (h : a.toNat ≤ vbiMax → Settles i s r) :
    Settles i s (if beyondDomain a then raise .encDomain s else r) := by
  split
  next hb => exact settles_fail (by simp) (by simp_all [reaches, beyondDomain]) rfl rfl
  next hb => exact h (beyondDomain_eq_false.mp (by simpa using hb))

theorem reaches_ok_wrvbi {a : Word} (ha : a.toNat ≤ vbiMax) :
    reaches (.wrvbi a) (.ok : Ending E) = true := by simpa [reaches, Instr.wellFormed, inDomain]

theorem reaches_ok_wrhdr {ty : Nibble} {b : Byte} {a : Word} (ha : a.toNat ≤ vbiMax) :
    reaches (.wrhdr ty b a) (.ok : Ending E) = true := by
  simpa [reaches, Instr.wellFormed, inDomain]

theorem encodeValue_settles {a : Word} (n : Nat) (ha : a.toNat ≤ vbiMax) (h : VbiInFlight a s) :
    Settles (.wrvbi a) s (driveEncode n s) :=
  driveEncode_settles n rfl (reaches_ok_wrvbi ha) (fun _ h => eq_bareResponse h 0)
    (fun _ hu => ⟨rfl, by simpa [inDomain], hu⟩) h

theorem encodeLength_settles {ty : Nibble} {b : Byte} {a : Word} (n : Nat)
    (ha : a.toNat ≤ vbiMax) (h : VbiInFlight a s) :
    Settles (.wrhdr ty b a) s (driveEncode n s) :=
  driveEncode_settles n rfl (reaches_ok_wrhdr ha) (fun _ h => eq_bareResponse h 0)
    (fun _ hu => ⟨rfl, by simpa [inDomain], .inr hu⟩) h

theorem execWrvbi_settles {a : Word} (h : s.place = .start ∨ WaitsAt (.wrvbi a) s) :
    Settles (.wrvbi a) s (execWrvbi a s) := by
  refine settles_domain rfl fun ha => ?_
  rcases h with h | ⟨-, -, hf⟩
  · rw [h]
    exact encodeValue_settles (s := s.beginEncode a) _ ha (vbiInFlight_beginEncode ha s)
  · rw [place_of_vbiInFlight hf]
    exact encodeValue_settles _ ha hf

theorem awaitControlSent_settles {ty : Nibble} {b : Byte} {a : Word} (ha : a.toNat ≤ vbiMax)
    (hpl : s.place = .control) (hp : s.pend = some (.write [controlByte ty b])) :
    Settles (.wrhdr ty b a) s (awaitControlSent a s) :=
  settles_awaitWrite rfl ⟨rfl, by simpa [inDomain], .inl ⟨hpl, hp⟩⟩ hp fun c =>
    encodeLength_settles (s := (s.answered c).beginEncode a) _ ha (vbiInFlight_beginEncode ha _)

theorem execWrhdr_settles {ty : Nibble} {b : Byte} {a : Word}
    (h : s.place = .start ∨ WaitsAt (.wrhdr ty b a) s) :
    Settles (.wrhdr ty b a) s (execWrhdr ty b a s) := by
  refine settles_domain rfl fun ha => ?_
  rcases h with h | ⟨-, -, ⟨hpl, hp⟩ | hf⟩
  · rw [h]
    exact awaitControlSent_settles (s := s.issue (.write [controlByte ty b]) .control) ha rfl rfl
  · rw [hpl]
    exact awaitControlSent_settles ha hpl hp
  · rw [place_of_vbiInFlight hf]
    exact encodeLength_settles _ ha hf

/-! ### Packet types -/

theorem code_ofCode : ∀ t : Nibble, (PacketType.ofCode t).code = t := by decide

theorem execPtfrom_settles (a : Word) (s : State E) : Settles (.ptfrom a) s (execPtfrom a s) := by
  unfold execPtfrom
  split
  next hf =>
    refine settles_complete (by simp [reaches, Instr.wellFormed, inDomain, hf]) rfl fun hc => ?_
    have hb : (a.extractLsb' 0 8).extractLsb' 0 4 = a.extractLsb' 0 4 := by ext; simp
    rw [OkResponse, ← eq_bareResponse hc, PacketType.fromBits, code_ofCode, hb]
    rfl
  next hf => exact settles_fail (by simp) (by simp [reaches, Instr.wellFormed, hf]) rfl rfl

theorem execPtto_settles (ty : Nibble) (s : State E) : Settles (.ptto ty) s (execPtto ty s) := by
  refine settles_complete rfl rfl fun hc => ?_
  have hb : (ty.setWidth 8).setWidth 32 = ty.setWidth 32 := by ext; simp
  rw [OkResponse, ← eq_bareResponse hc, PacketType.toBits, code_ofCode, hb]
  rfl

/-! ### Every command -/

/-- A command that starts, or stands at a suspension point of its, answers a next state, in which it
waits at a suspension point or has ended with an outcome of its own. -/
theorem execOf_settles (h : s.place = .start ∨ WaitsAt i s) : Settles i s (execOf i s) := by
  cases i with
  | rdu8 => exact readField_settles (w := .u8) h
  | rdu16 => exact readField_settles (w := .u16) h
  | rdu32 => exact readField_settles (w := .u32) h
  | rdvbi => exact execRdvbi_settles h
  | rdhdr => exact execRdhdr_settles h
  | ptfrom a => exact execPtfrom_settles a s
  | wru8 a => exact writeOf_settles (w := .u8) h
  | wru16 a => exact writeOf_settles (w := .u16) h
  | wru32 a => exact writeOf_settles (w := .u32) h
  | wrvbi a => exact execWrvbi_settles h
  | wrhdr ty b a => exact execWrhdr_settles h
  | ptto ty => exact execPtto_settles ty s

/-- Whatever its operands, a command that starts answers a next state. -/
theorem execOf_start (i : Instr) (h : s.place = .start) : ∃ t, execOf i s = .next t := by
  obtain ⟨t, e, -⟩ := execOf_settles (i := i) (.inl h)
  exact ⟨t, e⟩

end Sys2Proof.CommandOutcomes
end

section
/-!
SUPPORT. What no command changes (rules R15, R19, R34, R35, R49): the part of the state that a command
leaves as it is, one lemma a wait and a loop; and of a whole step the binding of the channel, on
which the independence of the units rests (rules R33, R119).
-/
namespace Sys2Proof.Frames

open Sys2Proof.Machine Sys2Proof.Safety Sys2Proof.ErrorValues

variable {E : Type} {i : Instr} {s t : State E}

/-- The datapath with the registers that the command writes blanked out (rule R15). -/
def notOwned (i : Instr) (d : Datapath) : Datapath :=
  match i with
  | .rdvbi => { d with vdValue := 0, vdMult := 0 }
  | .rdhdr => { d with vdValue := 0, vdMult := 0, hdrPt := 0, hdrFlags := 0 }
  | .wrvbi _ | .wrhdr _ _ _ => { d with veX := 0 }
  | .rdu8 | .rdu16 | .rdu32 | .ptfrom _ | .wru8 _ | .wru16 _ | .wru32 _ | .ptto _ => d

/-- The part of a state that some command keeps. -/
structure Kept (E : Type) where
  cmd : Option Command
  port : List Command
  agenda : List CallerAct
  readout : Option (Reading E)
  chanId : Option Nat
  /-- the input stream and its answers, unless the command reads -/
  input : Option (List Byte × List (ReadVerdict E))
  /-- the output stream, its answers and the chunking draws, unless the command writes -/
  output : Option (List Byte × List (WriteVerdict E) × List Nat)
  dp : Datapath

/-- The part of `s` that the command `i` keeps. -/
def kept (i : Instr) (s : State E) : Kept E where
  cmd := s.cmd
  port := s.port
  agenda := s.agenda
  readout := s.readout
  chanId := s.chan.id
  input := if readsChannel i then none else some (s.chan.input, s.chan.reads)
  output := if writesChannel i then none else some (s.chan.output, s.chan.writes, s.chunks)
  dp := notOwned i s.dp

/-! ### Waiting on a request -/

theorem kept_awaitRead {k : List Byte → State E → Result E} (hi : readsChannel i = true)
    (hk : ∀ bs u, kept i u = kept i s → k bs u = .next t → kept i t = kept i s)
    (h : awaitRead s k = .next t) : kept i t = kept i s := by
  rcases awaitRead_cases s k with ⟨e, -⟩ | ⟨w, -, ⟨r, -, e⟩ | ⟨bs, rest, r, -, -, -, e⟩ |
      ⟨n, r, -, e⟩ | ⟨x, n, r, -, e⟩⟩ <;> rw [e] at h
  · cases h
  · cases h; simp [kept, hi]
  · exact hk bs _ (by simp [kept, hi]) h
  · cases h; simp [kept, hi]
  · cases h; simp [kept, hi]

theorem kept_awaitWrite {k : State E → Result E} (hi : writesChannel i = true)
    (hk : ∀ u, kept i u = kept i s → k u = .next t → kept i t = kept i s)
    (h : awaitWrite s k = .next t) : kept i t = kept i s := by
  rcases awaitWrite_cases s k with ⟨e, -⟩ | ⟨w, -, ⟨r, -, e⟩ | ⟨r, -, e⟩ | ⟨x, n, r, -, e⟩⟩ <;>
    rw [e] at h
  · cases h
  · cases h; simp [kept, hi]
  · exact hk _ (by simp [kept, hi]) h
  · cases h; simp [kept, hi]

/-! ### The loops -/

theorem kept_driveDecode {report : State E → State E} (hi : readsChannel i = true)
    (hrep : ∀ u, kept i (report u) = kept i u)
    (hown : ∀ d v m, notOwned i { d with vdValue := v, vdMult := m } = notOwned i d) (n : Nat) :
    ∀ {s : State E}, driveDecode report n s = .next t → kept i t = kept i s := by
  have acc : ∀ (e : Byte) (u : State E), kept i (u.accumulate e) = kept i u := fun e u =>
    congrArg (fun d => { kept i u with dp := d }) (hown u.dp _ u.dp.vdMult)
  have scale : ∀ u : State E, kept i u.scale = kept i u := fun u =>
    congrArg (fun d => { kept i u with dp := d }) (hown u.dp u.dp.vdValue _)
  induction n with
  | zero => intro s h; cases h; rfl
  | succ n ih =>
    intro s h
    refine kept_awaitRead hi (fun bs u hu h => ?_) h
    dsimp only at h
    split at h
    · cases h
      exact (hrep _).trans ((acc _ u).trans hu)
    · split at h
      · cases h
        exact (acc _ u).trans hu
      · exact (ih h).trans ((scale _).trans ((acc _ u).trans hu))

/-- Issuing requests of a VBI touches the chunking draws and `VE_X`. -/
theorem kept_issueDigits (hi : writesChannel i = true)
    (hown : ∀ d x, notOwned i { d with veX := x } = notOwned i d) (u : State E) :
    kept i u.issueDigits = kept i u := by
  simp [kept, hi, hown]

theorem kept_beginEncode (hi : writesChannel i = true)
    (hown : ∀ d x, notOwned i { d with veX := x } = notOwned i d) (a : Word) (u : State E) :
    kept i (u.beginEncode a) = kept i u := by
  simp [State.beginEncode, kept, hi, hown]

theorem kept_driveEncode (hi : writesChannel i = true)
    (hown : ∀ d x, notOwned i { d with veX := x } = notOwned i d) (n : Nat) :
    ∀ {s : State E}, driveEncode n s = .next t → kept i t = kept i s := by
  induction n with
  | zero => intro s h; cases h; rfl
  | succ n ih =>
    intro s h
    refine kept_awaitWrite hi (fun u hu h => ?_) h
    split at h
    · cases h
      exact hu
    · exact (ih h).trans ((kept_issueDigits hi hown u).trans hu)

theorem kept_issueField (hi : writesChannel i = true) (bs : List Byte) (u : State E) :
    kept i (u.issueField bs) = kept i u := by
  simp [kept, hi]

theorem kept_driveField (hi : writesChannel i = true) (n : Nat) :
    ∀ {s : State E}, driveField n s = .next t → kept i t = kept i s := by
  induction n with
  | zero => intro s h; cases h; rfl
  | succ n ih =>
    intro s h
    refine kept_awaitWrite hi (fun u hu h => ?_) h
    split at h
    · cases h
      exact hu
    · exact (ih h).trans ((kept_issueField hi _ u).trans hu)
    all_goals cases h

/-! ### The commands -/

theorem kept_readField {w : Width} (hi : readsChannel i = true) (h : readField w s = .next t) :
    kept i t = kept i s := by
  have wait : ∀ {u : State E}, awaitField u = .next t → kept i t = kept i u := fun {u} h =>
    kept_awaitRead hi (fun bs v hv h => by cases h; exact hv) h
  unfold readField at h
  split at h
  · exact (wait h).trans rfl
  · exact wait h
  all_goals cases h

theorem kept_writeField {w : Width} {a : Word} (hi : writesChannel i = true)
    (h : writeField w a s = .next t) : kept i t = kept i s := by
  unfold writeField at h
  split at h
  · exact (kept_driveField hi 4 h).trans (kept_issueField hi _ s)
  · exact kept_driveField hi 4 h
  all_goals cases h

theorem kept_raise {e : Ending E} (h : raise e s = .next t) : kept i t = kept i s := by
  cases h
  rfl

/-- A command that first checks its operand. -/
theorem kept_ite {p : Prop} [Decidable p] {r r' : Result E}
    (hr : r = .next t → kept i t = kept i s) (hr' : r' = .next t → kept i t = kept i s)
    (h : (if p then r else r') = .next t) : kept i t = kept i s := by
  split at h
  · exact hr h
  · exact hr' h

theorem kept_execRdvbi (h : execRdvbi s = .next t) : kept .rdvbi t = kept .rdvbi s := by
  have drive := @kept_driveDecode E .rdvbi t reportValue rfl (fun _ => rfl) (fun _ _ _ => rfl)
  unfold execRdvbi at h
  split at h
  · exact (drive _ h).trans rfl
  · exact drive _ h
  all_goals cases h

theorem kept_execRdhdr (h : execRdhdr s = .next t) : kept .rdhdr t = kept .rdhdr s := by
  have drive := @kept_driveDecode E .rdhdr t reportHeader rfl (fun _ => rfl) (fun _ _ _ => rfl)
  have wait : ∀ {u : State E}, awaitControl u = .next t → kept .rdhdr t = kept .rdhdr u :=
    fun {u} h => kept_awaitRead rfl
      (fun bs v hv (h : driveDecode _ _ (v.latchControl (bs.headD 0)).beginDecode = _) =>
        (drive _ h).trans hv) h
  unfold execRdhdr at h
  split at h
  · exact (wait h).trans rfl
  · exact wait h
  · exact drive _ h
  · cases h

theorem kept_execWrvbi {a : Word} (h : execWrvbi a s = .next t) :
    kept (.wrvbi a) t = kept (.wrvbi a) s := by
  have drive := @kept_driveEncode E (.wrvbi a) t rfl (fun _ _ => rfl)
  refine kept_ite kept_raise (fun h => ?_) h
  split at h
  · exact (drive _ h).trans (kept_beginEncode rfl (fun _ _ => rfl) a s)
  · exact drive _ h
  all_goals cases h

theorem kept_execWrhdr {ty : Nibble} {b : Byte} {a : Word} (h : execWrhdr ty b a s = .next t) :
    kept (.wrhdr ty b a) t = kept (.wrhdr ty b a) s := by
  have drive := @kept_driveEncode E (.wrhdr ty b a) t rfl (fun _ _ => rfl)
  have wait : ∀ {u : State E}, awaitControlSent a u = .next t →
      kept (.wrhdr ty b a) t = kept (.wrhdr ty b a) u :=
    fun {u} h => kept_awaitWrite rfl
      (fun v hv (h : driveEncode _ (v.beginEncode a) = _) =>
        ((drive _ h).trans (kept_beginEncode rfl (fun _ _ => rfl) a v)).trans hv) h
  refine kept_ite kept_raise (fun h => ?_) h
  split at h
  · exact (wait h).trans rfl
  · exact wait h
  · exact drive _ h
  · cases h

theorem kept_execOf (h : execOf i s = .next t) : kept i t = kept i s := by
  cases i with
  | rdu8 | rdu16 | rdu32 => exact kept_readField rfl h
  | rdvbi => exact kept_execRdvbi h
  | rdhdr => exact kept_execRdhdr h
  | ptfrom a => exact kept_ite (fun h => by cases h; rfl) kept_raise h
  | wru8 a | wru16 a => exact kept_ite (kept_writeField rfl) kept_raise h
  | wru32 a => exact kept_writeField rfl h
  | wrvbi a => exact kept_execWrvbi h
  | wrhdr ty b a => exact kept_execWrhdr h
  | ptto ty => cases h; rfl

/-- Settles O40: `kept_execOf`, read field by field. -/
theorem commandsKeepTheirFrame : Obligations.CommandsKeepTheirFrame := by
  intro i s t h
  have h := kept_execOf (exec_eq_execOf ▸ h)
  have hin := congrArg Kept.input h
  have hout := congrArg Kept.output h
  have hdp : notOwned i t.dp = notOwned i s.dp := congrArg Kept.dp h
  refine ⟨congrArg Kept.cmd h, congrArg Kept.port h, congrArg Kept.agenda h,
    congrArg Kept.readout h, congrArg Kept.chanId h, fun hr => ?_, fun hw => ?_, ?_⟩
  · simpa [kept, hr] using hin
  · simpa [kept, hw] using hout
  · cases i <;> simp_all [notOwned]

/-! ### Steps -/

theorem chanId_runLatched (h : runLatched execOf s = .next t) : t.chan.id = s.chan.id := by
  unfold runLatched at h
  split at h
  · cases h
  · split at h
    · exact congrArg Kept.chanId (kept_execOf h)
    · cases h; rfl

theorem chanId_unitTurn (h : unitTurn execOf s = .next t) : t.chan.id = s.chan.id := by
  unfold unitTurn at h
  split at h
  · exact chanId_runLatched h
  · split at h
    · cases h; rfl
    · split at h
      · exact (chanId_runLatched h).trans rfl
      · cases h

theorem chanId_abandon (r : Option Request) (k : Nat) (c : Channel E) :
    (c.abandon r k).id = c.id := by
  rcases r with _ | _ | _ <;> rfl

/-- Nothing that a unit or its caller does changes which channel the unit is bound to. -/
theorem chanId_stepOf (h : stepOf s = .next t) : t.chan.id = s.chan.id := by
  obtain ⟨h, -⟩ := stopAtMarks_eq_next.mp h
  rcases turn_cases execOf s with ⟨rest, -, e⟩ | ⟨c, rest, -, e⟩ |
      ⟨r, rest, -, ⟨v, -, e⟩ | ⟨f, -, e⟩ | ⟨f, -, e⟩⟩ | ⟨d, k, rest, -, e⟩ <;> rw [e] at h
  · exact chanId_unitTurn (s := { s with agenda := rest }) h
  · cases h; rfl
  · cases h; rfl
  · cases h
  · cases h
  · cases h
    exact chanId_abandon s.pend k s.chan

/-! ### Several units -/

variable {numUnits : Nat}

/-- Putting a unit in the place of one on the same channel leaves the channels apart. -/
theorem channelsApart_set (sys : System E numUnits) {k : Nat} (hk : k < numUnits)
    (ht : t.chan.id = sys.units[k].chan.id) :
    System.channelsApart { sys with units := sys.units.set k t } = sys.channelsApart := by
  have ids : (sys.units.set k t).map (fun u => u.chan.id) = sys.units.map fun u => u.chan.id := by
    rw [Vector.map_set, ht, ← Vector.getElem_map (fun u : State E => u.chan.id) hk,
      Vector.set_getElem_self]
  have bound : ∀ v : Vector (State E) numUnits, v.toList.filterMap (fun u => u.chan.id)
      = (v.map fun u => u.chan.id).toList.filterMap id := fun v => by
    simp [Vector.toList_map, List.filterMap_map]
  simp only [System.channelsApart, bound, ids]

/-- A step of one unit leaves the other units and the bindings as they are. -/
theorem units_step {sys sys' : System E numUnits} {j k : Nat} (h : sys.step k = .next sys')
    (hj : j ≠ k) : sys'.units[j]? = sys.units[j]? := by
  obtain ⟨-, hk, t, -, rfl⟩ := System.step_eq_next.mp h
  simp [Vector.getElem?_set_ne, hj.symm]

/-- Steps of two units commute. -/
theorem step_comm {sys one two : System E numUnits} {j k : Nat} (hjk : j ≠ k)
    (h1 : sys.step j = .next one) (h2 : one.step k = .next two) :
    ∃ other, sys.step k = .next other ∧ other.step j = .next two := by
  obtain ⟨ha, hj, t, ht, rfl⟩ := System.step_eq_next.mp h1
  obtain ⟨-, hk, u, hu, rfl⟩ := System.step_eq_next.mp h2
  have hu : stepOf sys.units[k] = .next u := by simpa [Vector.getElem_set_ne, hjk] using hu
  refine ⟨{ sys with units := sys.units.set k u }, System.step_eq_next.mpr ⟨ha, hk, u, hu, rfl⟩, ?_⟩
  refine System.step_eq_next.mpr ⟨?_, hj, t, ?_, ?_⟩
  · rw [channelsApart_set sys hk (chanId_stepOf hu), ha]
  · simpa [Vector.getElem_set_ne, hjk.symm] using ht
  · rw [Vector.set_comm _ _ hjk]

/-- Settles O52: a step moves one unit of the vector and no binding. -/
theorem unitsAreIndependent : Obligations.UnitsAreIndependent := by
  intro E numUnits
  exact ⟨fun sys sys' k h j hj => units_step h hj,
    fun sys one two j k hjk h1 h2 => step_comm hjk h1 h2⟩

end Sys2Proof.Frames
end

section
/-!
SUPPORT. Which commands a step stops at (rules R69, R106, R107): what `legal` says of a decoded command,
and what the step makes of a run from the command's first line.
-/
namespace Sys2Proof.Handshake

open Sys2Proof.Machine Sys2Proof.Safety Sys2Proof.ErrorValues Sys2Proof.CommandOutcomes

variable {E : Type} {i : Instr} {c : Command} {waiting : List Command} {rest : List CallerAct}
  {s t : State E}

/-! ### Legality -/

/-- The table of rule R67 read backwards: a word that selects a command is that command's. -/
theorem word_of_decodeWord {w : Byte} {o : Opcode} (h : decodeWord w = some o) :
    w = (o.withOperands ⟨0, 0, 0, 0⟩).word := by
  cases o <;> revert w <;> decide

/-- The word list of rule R69's pseudocode has no reserved word. -/
theorem not_mem_of_decodeWord_none : ∀ w : Byte, decodeWord w = none →
    w.toNat ∉ [0x01, 0x02, 0x03, 0x04, 0x05, 0x06, 0x09, 0x0A, 0x0B, 0x0C, 0x0D, 0x0E] := by
  decide

/-- Of a command that decodes, legality is the width check (rule R69). -/
theorem legal_of_instr (h : decode c = .instr i) : legal c = i.wellFormed := by
  obtain ⟨o, ho, rfl⟩ := decode_instr_iff.mp h
  obtain ⟨w, a, b, t⟩ := c
  obtain rfl : w = _ := word_of_decodeWord ho
  cases o <;>
    simp [legal, Opcode.withOperands, Instr.word, Instr.wellFormed, fits_eight, fits_sixteen]

/-- A reserved word is not legal (rule R70). -/
theorem legal_of_reserved {w : Byte} (h : decode c = .reserved w) : legal c = false := by
  have hn : decodeWord c.w = none := by
    rcases hw : decodeWord c.w with _ | o
    · rfl
    · rw [decode_of_decodeWord hw] at h
      cases h
  simp only [legal, not_mem_of_decodeWord_none c.w hn, decide_false, Bool.false_and]

/-! ### Turns -/

theorem runLatched_instr (run : Instr → State E → Result E) (hc : s.cmd = some c)
    (hd : decode c = .instr i) : runLatched run s = run i s := by
  simp [runLatched, hc, hd]

theorem runLatched_reserved (run : Instr → State E → Result E) {w : Byte} (hc : s.cmd = some c)
    (hd : decode c = .reserved w) : runLatched run s = raise .illegalCommand s := by
  simp [runLatched, hc, hd]

theorem unitTurn_busy (run : Instr → State E → Result E) (hu : s.ust = .busy) :
    unitTurn run s = runLatched run s := by
  simp [unitTurn, hu]

theorem unitTurn_waits (run : Instr → State E → Result E) (hu : s.ust = .idle)
    (hp : s.port = []) : unitTurn run s = .next s := by
  simp [unitTurn, hu, hp]

theorem unitTurn_unbound (run : Instr → State E → Result E) (hu : s.ust = .idle)
    (hp : s.port = c :: waiting) (hid : s.chan.id = none) :
    unitTurn run s = .refused .noChannel := by
  simp [unitTurn, hu, hp, hid]

theorem unitTurn_accepts (run : Instr → State E → Result E) (hu : s.ust = .idle)
    (hp : s.port = c :: waiting) (hid : s.chan.id ≠ none) :
    unitTurn run s = runLatched run (s.accept c waiting) := by
  obtain ⟨n, hn⟩ := Option.ne_none_iff_exists'.mp hid
  simp [unitTurn, hu, hp, hn]

/-! ### The stops of a step -/

/-- A legal command in the domain never stops a step (rules R106, R107). -/
theorem stopAtMarks_execOf (hm : t.marks = s.marks) (hw : i.wellFormed = true)
    (hd : inDomain i = true) : stopAtMarks s (execOf i t) = execOf i t := by
  rcases h : execOf i t with u | f | f
  · exact stopAtMarks_next (by rw [execOf_marks h, marksOf_eq_nil hw hd, hm, List.append_nil])
  · rfl
  · rfl

/-- A command out of width, run from its first line, is refused (rule R106). -/
theorem stopAtMarks_illegal (hm : t.marks = s.marks) (hpl : t.place = .start)
    (hw : i.wellFormed = false) : stopAtMarks s (execOf i t) = .refused .illegalCommand := by
  obtain ⟨u, h⟩ := execOf_start i hpl
  rw [h]
  exact stopAtMarks_illegalCommand (by simp [execOf_marks h, marksOf, hw, hm])

/-- A command above the domain, run from its first line, is a fault (rule R107). -/
theorem stopAtMarks_beyondDomain (hm : t.marks = s.marks) (hpl : t.place = .start)
    (hw : i.wellFormed = true) (hd : inDomain i = false) :
    stopAtMarks s (execOf i t) = .fault .encDomain := by
  obtain ⟨u, h⟩ := execOf_start i hpl
  rw [h]
  exact stopAtMarks_encDomain (by simp [execOf_marks h, marksOf, hw, hd, hm])

/-! ### The step that accepts a command -/

/-- The step of a unit that accepts `c`. -/
theorem stepOf_accepts (h : UnitMoves s rest) (hu : s.ust = .idle) (hp : s.port = c :: waiting)
    (hid : s.chan.id ≠ none) : stepOf s
      = stopAtMarks s (runLatched execOf (State.accept c waiting { s with agenda := rest })) := by
  rw [stepOf, turn_of_unitMoves execOf h,
    unitTurn_accepts (s := { s with agenda := rest }) execOf hu hp hid]

/-- The step that accepts an illegal command refuses it (rule R106). -/
theorem stepOf_illegal (h : UnitMoves s rest) (hu : s.ust = .idle) (hp : s.port = c :: waiting)
    (hid : s.chan.id ≠ none) (hl : legal c = false) : stepOf s = .refused .illegalCommand := by
  rw [stepOf_accepts h hu hp hid]
  rcases hd : decode c with i | w
  · rw [runLatched_instr execOf rfl hd]
    exact stopAtMarks_illegal rfl rfl ((legal_of_instr hd).symm.trans hl)
  · rw [runLatched_reserved execOf rfl hd]
    exact stopAtMarks_illegalCommand rfl

/-- The step that accepts a command above the domain is a fault (rule R107). -/
theorem stepOf_beyondDomain (h : UnitMoves s rest) (hu : s.ust = .idle)
    (hp : s.port = c :: waiting) (hid : s.chan.id ≠ none) (hi : decode c = .instr i)
    (hw : i.wellFormed = true) (hd : inDomain i = false) : stepOf s = .fault .encDomain := by
  rw [stepOf_accepts h hu hp hid, runLatched_instr execOf rfl hi]
  exact stopAtMarks_beyondDomain rfl rfl hw hd

/-- The step that accepts a legal command in the domain runs it from its first line. -/
theorem stepOf_legal (h : UnitMoves s rest) (hu : s.ust = .idle) (hp : s.port = c :: waiting)
    (hid : s.chan.id ≠ none) (hi : decode c = .instr i) (hw : i.wellFormed = true)
    (hd : inDomain i = true) :
    stepOf s = execOf i (State.accept c waiting { s with agenda := rest }) := by
  rw [stepOf_accepts h hu hp hid, runLatched_instr execOf rfl hi]
  exact stopAtMarks_execOf rfl hw hd

/-- Everything the step that accepts `c` can be: a next state, or one of the two stops. -/
theorem stepOf_accepts_cases (h : UnitMoves s rest) (hu : s.ust = .idle)
    (hp : s.port = c :: waiting) (hid : s.chan.id ≠ none) :
    (∃ t, stepOf s = .next t) ∨ (legal c = false ∧ stepOf s = .refused .illegalCommand) ∨
      ∃ i, decode c = .instr i ∧ i.wellFormed = true ∧ inDomain i = false ∧
        stepOf s = .fault .encDomain := by
  cases hl : legal c with
  | false => exact .inr (.inl ⟨rfl, stepOf_illegal h hu hp hid hl⟩)
  | true =>
    rcases hi : decode c with i | w
    · have hw : i.wellFormed = true := (legal_of_instr hi).symm.trans hl
      cases hd : inDomain i with
      | false => exact .inr (.inr ⟨i, rfl, hw, hd, stepOf_beyondDomain h hu hp hid hi hw hd⟩)
      | true =>
        rw [stepOf_legal h hu hp hid hi hw hd]
        exact .inl (execOf_start i rfl)
    · rw [legal_of_reserved hi] at hl
      cases hl

/-- A step of the system stops where the unit's step is refused. -/
theorem System.step_of_refused {numUnits k : Nat} {sys : System E numUnits} {r : Refusal}
    (ha : sys.channelsApart = true) (hk : sys.units[k]? = some s) (h : stepOf s = .refused r) :
    sys.step k = .refused r := by
  obtain ⟨hlt, rfl⟩ := Vector.getElem?_eq_some_iff.mp hk
  simp [System.step, ha, hlt, h]

/-- A step of the system stops where the unit's step is a fault. -/
theorem System.step_of_fault {numUnits k : Nat} {sys : System E numUnits} {f : Fault}
    (ha : sys.channelsApart = true) (hk : sys.units[k]? = some s) (h : stepOf s = .fault f) :
    sys.step k = .fault f := by
  obtain ⟨hlt, rfl⟩ := Vector.getElem?_eq_some_iff.mp hk
  simp [System.step, ha, hlt, h]

/-- Settles O56: the unit's step stops (`stepOf_illegal`, `stepOf_beyondDomain`), and the system's
with it. -/
theorem systemsStopAtIllegalCommandsAndAboveTheDomain :
    Obligations.SystemsStopAtIllegalCommandsAndAboveTheDomain := by
  intro E numUnits sys k s rest c waiting ha hk hm hu hp hid
  exact ⟨fun hl => System.step_of_refused ha hk (stepOf_illegal hm hu hp hid hl),
    fun i hi hw hd => System.step_of_fault ha hk (stepOf_beyondDomain hm hu hp hid hi hw hd)⟩

/-- Settles O10: a BUSY unit's turn runs the latched command from the state as it stands. -/
theorem stepResumesTheLatchedCommand : Obligations.StepResumesTheLatchedCommand := by
  intro s rest c i hm hu hc hi
  have turn_eq : turn exec s = exec i { s with agenda := rest } := by
    rw [turn_of_unitMoves exec hm, unitTurn_busy (s := { s with agenda := rest }) exec hu,
      runLatched_instr (s := { s with agenda := rest }) exec hc hi]
  refine ⟨turn_eq, by rw [step, turn_eq], fun hw hd => ?_⟩
  rw [step, turn_eq, exec_eq_execOf]
  exact stopAtMarks_execOf rfl hw hd

end Sys2Proof.Handshake
end

section
/-!
SUPPORT. The invariant of the unit (rules R18, R24, R44, R87, R110, R126): the end of a command restores
it, a run of the latched command keeps it and never faults, and with it every turn and every step.
-/
namespace Sys2Proof.Invariant

open Sys2Proof.Machine Sys2Proof.Safety Sys2Proof.ErrorValues Sys2Proof.CommandOutcomes
open Sys2Proof.Handshake

variable {E : Type} {i : Instr} {c : Command} {rest : List CallerAct} {s t u : State E}

/-- The unit runs `c`, and no response of it is there yet (rules R18, R24). -/
structure Running (c : Command) (s : State E) : Prop where
  busy : s.ust = .busy
  latched : s.cmd = some c
  invalid : s.rsp.valid = false
  cleared : Cleared s.rsp
  status : ∀ code ∈ s.rsp.status, code.toNat ≤ 4

theorem inv_resetUnit (d : Datapath) (k : Nat) (s : State E) : Inv (s.resetUnit d k) where
  idle _ := ⟨rfl, rfl⟩
  busy h := nomatch h
  cleared _ := ⟨rfl, rfl, rfl, rfl, rfl⟩
  answered h := nomatch h
  status _ h := nomatch h

/-- Settles O46: reset gives the values of rule R31. -/
theorem resetMeetsTheInvariant : Obligations.ResetMeetsTheInvariant :=
  inv_resetUnit ⟨0, 0, 0, 0, 0⟩ 0 State.reset

/-- The caller's plans, its record and the held commands are not in the invariant. -/
theorem inv_of_caller (h : Inv s) (agenda : List CallerAct) (port : List Command)
    (readout : Option (Reading E)) :
    Inv { s with agenda := agenda, port := port, readout := readout } :=
  ⟨h.idle, h.busy, h.cleared, h.answered, h.status⟩

/-- The codes of the outcomes are 0 to 4 (rule R104). -/
theorem code_le (e : Ending E) : e.code.toNat ≤ 4 := by
  cases e <;> simp [Ending.code]

/-- The end of a command meets the invariant if its response fits the command. -/
theorem inv_finish {e : Ending E} (h : ResponseFits (u.finish e)) : Inv (u.finish e) where
  idle _ := ⟨rfl, rfl⟩
  busy h := nomatch h
  cleared h := nomatch h
  answered _ := h
  status code h := by
    obtain rfl : e.code = code := by simpa using h
    exact code_le e

/-! ### Running the latched command -/

theorem running_accept (h : Inv s) (c : Command) (waiting : List Command) :
    Running c (s.accept c waiting) :=
  ⟨rfl, rfl, rfl, ⟨rfl, rfl, rfl, rfl, rfl⟩, h.status⟩

/-- A BUSY unit runs a command and waits at a suspension point of it. -/
theorem running_of_busy (h : Inv s) (hu : s.ust = .busy) :
    ∃ c i, Running c s ∧ decode c = .instr i ∧ WaitsAt i s := by
  obtain ⟨hv, c, i, hc, hi, hw⟩ := h.busy hu
  exact ⟨c, i, ⟨hu, hc, hv, h.cleared hv, h.status⟩, hi, hw⟩

theorem inv_of_waits (h : Running c s) (hi : decode c = .instr i) (ht : Waits i s t) : Inv t := by
  obtain ⟨hust, hcmd, hrsp, hw⟩ := ht
  have hv : t.rsp.valid = false := hrsp ▸ h.invalid
  refine ⟨fun hu => ?_, fun _ => ⟨hv, c, i, hcmd.trans h.latched, hi, hw⟩,
    fun _ => hrsp ▸ h.cleared, fun hn => ?_, hrsp ▸ h.status⟩
  · rw [hust, h.busy] at hu
    cases hu
  · rw [hv] at hn
    cases hn

theorem inv_of_ends (h : Running c s) (hi : decode c = .instr i) (ht : Ends i s t) : Inv t := by
  obtain ⟨u, e, rfl, hcmd, hr, hresp⟩ := ht
  refine inv_finish ⟨c, hcmd.trans h.latched, ?_⟩
  rw [hi]
  exact ⟨e, hr, hresp h.cleared⟩

/-- A command that starts, or stands at a suspension point of its, answers a next state that meets
the invariant. -/
theorem execOf_inv (h : Running c s) (hi : decode c = .instr i)
    (hs : s.place = .start ∨ WaitsAt i s) : ∃ t, execOf i s = .next t ∧ Inv t := by
  obtain ⟨t, e, ht | ht⟩ := execOf_settles hs
  · exact ⟨t, e, inv_of_waits h hi ht⟩
  · exact ⟨t, e, inv_of_ends h hi ht⟩

/-- The IllegalCommand of a reserved word (rule R105) meets the invariant. -/
theorem inv_reserved (h : Running c s) {w : Byte} (hd : decode c = .reserved w) :
    Inv (s.finish .illegalCommand) := by
  refine inv_finish ⟨c, h.latched, ?_⟩
  rw [hd]
  exact eq_bareResponse h.cleared 3

/-- The latched command, run from its first line, answers a next state that meets the invariant. -/
theorem runLatched_inv_of_start (h : Running c s) (hpl : s.place = .start) :
    ∃ t, runLatched execOf s = .next t ∧ Inv t := by
  rcases hd : decode c with i | w
  · rw [runLatched_instr execOf h.latched hd]
    exact execOf_inv h hd (.inl hpl)
  · exact ⟨_, runLatched_reserved execOf h.latched hd, inv_reserved h hd⟩

/-! ### Turns and steps -/

/-- Under the invariant a unit's turn answers a next state that meets it, or is refused for want of
a channel (rule R124). -/
theorem unitTurn_inv (h : Inv s) :
    (∃ t, unitTurn execOf s = .next t ∧ Inv t) ∨
      (unitTurn execOf s = .refused .noChannel ∧ s.ust = .idle ∧ s.port ≠ [] ∧ s.chan.id = none) := by
  cases hu : s.ust with
  | busy =>
    obtain ⟨c, i, hr, hi, hw⟩ := running_of_busy h hu
    rw [unitTurn_busy execOf hu, runLatched_instr execOf hr.latched hi]
    exact .inl (execOf_inv hr hi (.inr hw))
  | idle =>
    rcases hp : s.port with _ | ⟨c, waiting⟩
    · exact .inl ⟨s, unitTurn_waits execOf hu hp, h⟩
    · by_cases hid : s.chan.id = none
      · exact .inr ⟨unitTurn_unbound execOf hu hp hid, rfl, by simp, hid⟩
      · rw [unitTurn_accepts execOf hu hp hid]
        exact .inl (runLatched_inv_of_start (running_accept h c waiting) rfl)

theorem turn_inv (h : Inv s) (ht : turn execOf s = .next t) : Inv t := by
  rcases turn_cases execOf s with ⟨rest, -, e⟩ | ⟨c, rest, -, e⟩ |
      ⟨r, rest, -, ⟨v, -, e⟩ | ⟨f, -, e⟩ | ⟨f, -, e⟩⟩ | ⟨d, k, rest, -, e⟩ <;> rw [e] at ht
  · rcases unitTurn_inv (inv_of_caller h rest s.port s.readout) with ⟨t', e', h'⟩ | ⟨e', -⟩ <;>
      rw [e'] at ht <;> cases ht
    exact h'
  · cases ht
    exact inv_of_caller h rest _ s.readout
  · cases ht
    exact inv_of_caller h rest s.port _
  · cases ht
  · cases ht
  · cases ht
    exact inv_resetUnit d k _

/-- Settles O47: every turn keeps the invariant (`turn_inv`), and a step that answers a next state is
the turn. -/
theorem stepKeepsTheInvariant : Obligations.StepKeepsTheInvariant := by
  have keeps : ∀ s t : State, Inv s → turn exec s = .next t → Inv t := fun s t h ht =>
    turn_inv h (exec_eq_execOf ▸ ht)
  refine ⟨fun s t h ht => ?_, keeps⟩
  obtain ⟨ht, -⟩ := stopAtMarks_eq_next.mp ht
  exact keeps s t h ht

/-- Under the invariant the step of a BUSY unit answers a next state. -/
theorem stepOf_busy (h : Inv s) (hm : UnitMoves s rest) (hu : s.ust = .busy) :
    ∃ t, stepOf s = .next t := by
  obtain ⟨c, i, hr, hi, hw⟩ := running_of_busy (inv_of_caller h rest s.port s.readout) hu
  obtain ⟨t, e, -⟩ := execOf_inv hr hi (.inr hw)
  refine ⟨t, ?_⟩
  rw [stepOf, turn_of_unitMoves execOf hm, unitTurn_busy (s := { s with agenda := rest }) execOf hu,
    runLatched_instr execOf hr.latched hi, ← e]
  exact stopAtMarks_execOf rfl (wellFormed_of_waitsAt hw) (inDomain_of_waitsAt hw)

/-- Where the step of a unit under the invariant stops (rules R106, R107, R124). -/
theorem stepOf_cases (h : Inv s) (hm : UnitMoves s rest) :
    (∃ t, stepOf s = .next t) ∨
      (stepOf s = .refused .noChannel ∧ s.ust = .idle ∧ s.port ≠ [] ∧ s.chan.id = none) ∨
      ∃ (c : Command) (waiting : List Command), s.ust = .idle ∧ s.port = c :: waiting ∧
        ((legal c = false ∧ stepOf s = .refused .illegalCommand) ∨
          ∃ i, decode c = .instr i ∧ i.wellFormed = true ∧ inDomain i = false ∧
            stepOf s = .fault .encDomain) := by
  have turn_eq := turn_of_unitMoves execOf hm
  cases hu : s.ust with
  | busy => exact .inl (stepOf_busy h hm hu)
  | idle =>
    rcases hp : s.port with _ | ⟨c, waiting⟩
    · have e := unitTurn_waits (s := { s with agenda := rest }) execOf hu hp
      exact .inl ⟨_, by rw [stepOf, turn_eq, e]; exact stopAtMarks_next rfl⟩
    · by_cases hid : s.chan.id = none
      · have e := unitTurn_unbound (s := { s with agenda := rest }) execOf hu hp hid
        exact .inr (.inl ⟨by rw [stepOf, turn_eq, e, stopAtMarks_refused], rfl, by simp, hid⟩)
      · rcases stepOf_accepts_cases hm hu hp hid with ht | hstop
        · exact .inl ht
        · exact .inr (.inr ⟨c, waiting, rfl, rfl, hstop⟩)

/-- Settles O48: of the turn by `unitTurn_inv`, of the step by `stepOf_cases`. -/
theorem unitTurnsNeverFaultUnderTheInvariant :
    Obligations.UnitTurnsNeverFaultUnderTheInvariant := by
  intro s rest h hm
  rw [step_eq_stepOf, exec_eq_execOf, turn_of_unitMoves execOf hm]
  refine ⟨?_, stepOf_cases h hm⟩
  rcases unitTurn_inv (inv_of_caller h rest s.port s.readout) with ⟨t, e, -⟩ | hr
  · exact .inl ⟨t, e⟩
  · exact .inr hr

end Sys2Proof.Invariant
end

section
/-!
SUPPORT. The acts of the caller (rules R31, R32, R50, R121, R122, R125, R126): reset, the read of a
response register, and what leaves a response as it is.
-/
namespace Sys2Proof.CallerActs

open Sys2Proof.Machine Sys2Proof.Safety

variable {E : Type} {rest : List CallerAct} {r : RspReg}

/-! ### Reset -/

/-- Settles O43: the reset state written out. -/
theorem resetValuesOfTheSpec : Obligations.ResetValuesOfTheSpec :=
  ⟨reset_ust, reset_pend, rfl, rfl, ⟨rfl, rfl, rfl, rfl, rfl⟩, reset_cmd⟩

/-- An abandoned request moves at most the streams, and them forward (rule R122). -/
theorem abandon_eq (r : Option Request) (k : Nat) (c : Channel E) :
    ∃ input output, input <:+ c.input ∧ c.output <+: output ∧
      (r = none → input = c.input ∧ output = c.output) ∧
      c.abandon r k = { c with input := input, output := output } := by
  rcases r with _ | w | bs
  · exact ⟨c.input, c.output, List.suffix_rfl, List.prefix_rfl, fun _ => ⟨rfl, rfl⟩, rfl⟩
  · exact ⟨_, c.output, List.drop_suffix _ _, List.prefix_rfl, nofun, rfl⟩
  · exact ⟨c.input, _, List.suffix_rfl, List.prefix_append _ _, nofun, rfl⟩

theorem step_reset {s : State} {d : Datapath} {k : Nat} (ha : s.agenda = .reset d k :: rest) :
    step s = .next (State.resetUnit d k { s with agenda := rest }) := by
  rw [step, turn, ha]
  exact stopAtMarks_next rfl

/-- Settles O44: the step is `State.resetUnit`, whose channel is `abandon_eq`'s. -/
theorem resetAbandonsTheRunningCommand : Obligations.ResetAbandonsTheRunningCommand := by
  intro s d k rest ha
  obtain ⟨input, output, hi, ho, hn, he⟩ := abandon_eq s.pend k s.chan
  refine ⟨input, output, hi, ho, hn, ?_⟩
  rw [step_reset ha, State.resetUnit, he]

/-! ### Reads of the response registers -/

theorem step_read_next {s : State} {v : Reading} (ha : s.agenda = .read r :: rest)
    (hv : s.readRsp r = .next v) :
    step s = .next { s with agenda := rest, readout := some v } := by
  have hv' : State.readRsp r { s with agenda := rest } = .next v := hv
  rw [step, turn, ha]
  simp only [callerTurn, hv']
  exact stopAtMarks_next rfl

theorem step_read_fault {s : State} {f : Fault} (ha : s.agenda = .read r :: rest)
    (hf : s.readRsp r = .fault f) : step s = .fault f := by
  have hf' : State.readRsp r { s with agenda := rest } = .fault f := hf
  rw [step, turn, ha]
  simp only [callerTurn, hf', stopAtMarks_fault]

/-- While `RSP_VALID` is 0 no other register can be read (rule R125). -/
theorem readRsp_invalid {s : State E} (hv : s.rsp.valid = false) (hr : r ≠ .valid) :
    s.readRsp r = .fault (.unwrittenRead r) := by
  cases r with
  | valid => exact absurd rfl hr
  | status | value | pt | flags | len | err => simp [State.readRsp, hv]

theorem readRsp_status {s : State E} {code : BitVec 3} (hv : s.rsp.valid = true)
    (hs : s.rsp.status = some code) (hc : code.toNat ≤ 4) :
    s.readRsp .status = .next (.status code) := by
  simp [State.readRsp, hv, hs, statusReading, hc]

/-- The step that reads a result register of a valid response (rules R32, R126). -/
theorem step_readingOf {α : Type} {s : State} {form : α → Reading} {v : Option α}
    (ha : s.agenda = .read r :: rest) (hr : s.readRsp r = readingOf r form v) :
    (v = none → step s = .fault (.unwrittenRead r)) ∧
      ∀ x, v = some x → step s = .next { s with agenda := rest, readout := some (form x) } := by
  constructor
  · rintro rfl
    exact step_read_fault ha hr
  · rintro x rfl
    exact step_read_next ha hr

/-- Settles O45: register by register. -/
theorem callerReadsOnlyWrittenRegisters : Obligations.CallerReadsOnlyWrittenRegisters := by
  intro s r rest ha
  refine ⟨fun hv hr => step_read_fault ha (readRsp_invalid hv hr), ?_, ?_, ?_, ?_, ?_, ?_, ?_⟩
  · rintro rfl
    exact step_read_next ha (by simp [State.readRsp])
  · rintro hv rfl code hs hc
    exact step_read_next ha (readRsp_status hv hs hc)
  all_goals
    rintro hv rfl
    exact step_readingOf ha (by simp [State.readRsp, hv])

/-! ### What leaves a response as it is -/

/-- Settles O16: of the turns left, the unit's has nothing to accept and the caller's keep the
response. -/
theorem responseStaysUntilAcceptanceOrReset :
    Obligations.ResponseStaysUntilAcceptanceOrReset := by
  intro s t hu ht hreset hport
  rcases step_cases s with ⟨rest, hm, e⟩ | ⟨c, rest, -, e⟩ |
      ⟨r, rest, -, ⟨v, -, e⟩ | ⟨f, -, e⟩ | ⟨f, -, e⟩⟩ | ⟨d, k, rest, ha, -⟩
  · have hp : s.port = [] := by
      rcases hport with hp | ⟨act, rest', ha, hact⟩
      · exact hp
      · rcases hm with ⟨hm, -⟩ | hm <;> rw [ha] at hm <;> cases hm
        exact absurd rfl hact
    have stays := stopAtMarks_next (s := s) (t := { s with agenda := rest }) rfl
    rw [e, Handshake.unitTurn_waits (s := { s with agenda := rest }) exec hu hp, stays] at ht
    cases ht
    rfl
  · rw [e] at ht
    cases ht
    rfl
  · rw [e] at ht
    cases ht
    rfl
  · rw [e] at ht
    cases ht
  · rw [e] at ht
    cases ht
  · exact absurd ha (hreset d k rest)

end Sys2Proof.CallerActs
end

section
/-!
SUPPORT. The arithmetic of the VBI registers does not wrap (rule R87).
-/
namespace Sys2Proof.VbiRegisters

open Sys2Proof.Machine Sys2Proof.Safety
open Sys2Proof.Config (vbiMax)

/-- Below 128^3 scaling is exact (rule R87). -/
theorem toNat_scale {d : Datapath} (h : DecoderFits d) (ht : d.vdMult ≠ Config.topMult) :
    (d.vdMult * 128).toNat = d.vdMult.toNat * 128 := by
  obtain ⟨h | h | h | h, -⟩ := h
  · simp [h]
  · simp [h]
  · simp [h]
  · exact absurd h ht

/-- Settles O26: `toNat_accumulate`, `toNat_scale` and `decoderFits_scale` of the decoder,
`vbiChunk_le` of the encoder. -/
theorem vbiArithmeticNeverWraps : Obligations.VbiArithmeticNeverWraps := by
  refine ⟨fun s e h => ?_, fun s => vbiChunk_le _ _⟩
  obtain ⟨exact_sum, below, top⟩ := toNat_accumulate h e
  refine ⟨exact_sum, ?_, fun ht => ⟨toNat_scale h ht, decoderFits_scale h e ht⟩⟩
  rw [accumulate_dp, exact_sum, vbiMax]
  omega

end Sys2Proof.VbiRegisters
end

section
/-!
SUPPORT. A command reads nothing that another left in the datapath (rule R30): two runs of it from its
first line, the datapath registers different, do the same but for those registers, and at every wait
the ones it will still read agree. One lemma a wait and a loop.
-/
namespace Sys2Proof.Leftovers

open Sys2Proof.Machine Sys2Proof.Safety Sys2Proof.ErrorValues Sys2Proof.CommandOutcomes

variable {E : Type} {i : Instr} {s t : State E}

/-- When the run `r` answers a next state, so does `r'`, with the same state but for the datapath
registers; those that the waiting command will still read agree. -/
def Alike (i : Instr) (r r' : Result E) : Prop :=
  ∀ t, r = .next t → ∃ d, r' = .next { t with dp := d } ∧ SameLive i t { t with dp := d }

theorem alike_next {d : Datapath} (h : SameLive i t { t with dp := d }) :
    Alike i (.next t) (.next { t with dp := d }) := by
  intro t' ht
  cases ht
  exact ⟨d, rfl, h⟩

theorem alike_fault (f : Fault) (r' : Result E) : Alike i (.fault f) r' := by
  intro t h
  cases h

/-- No register is live but in a VBI. -/
theorem sameLive_of_place (h : s.place ≠ .digit) (t : State E) : SameLive i s t :=
  fun hd => absurd hd h

/-- An ended command reads no register. -/
theorem alike_finish (e : Ending E) (s : State E) (d : Datapath) :
    Alike i (.next (s.finish e)) (.next (State.finish e { s with dp := d })) :=
  alike_next (t := s.finish e) (sameLive_of_place (by simp) _)

/-! ### Waiting on a request -/

theorem alike_awaitRead {d : Datapath} {k k' : List Byte → State E → Result E}
    (hs : SameLive i s { s with dp := d })
    (hk : ∀ bs c, Alike i (k bs (s.answered c)) (k' bs (State.answered c { s with dp := d }))) :
    Alike i (awaitRead s k) (awaitRead { s with dp := d } k') := by
  rcases hp : s.pend with _ | w | bs
  · simp only [awaitRead, hp]
    exact alike_fault _ _
  · simp only [awaitRead, hp]
    rcases s.chan.answerRead w.bytes with ⟨_ | bs | _ | e, c⟩
    · exact alike_next (t := { s with pend := some (.read w), chan := c }) hs
    · exact hk bs c
    · exact alike_finish .malformed (s.answered c) d
    · exact alike_finish (.transport e) (s.answered c) d
  · simp only [awaitRead, hp]
    exact alike_fault _ _

theorem alike_awaitWrite {d : Datapath} {k k' : State E → Result E}
    (hs : SameLive i s { s with dp := d })
    (hk : ∀ c, Alike i (k (s.answered c)) (k' (State.answered c { s with dp := d }))) :
    Alike i (awaitWrite s k) (awaitWrite { s with dp := d } k') := by
  rcases hp : s.pend with _ | w | bs
  · simp only [awaitWrite, hp]
    exact alike_fault _ _
  · simp only [awaitWrite, hp]
    exact alike_fault _ _
  · simp only [awaitWrite, hp]
    rcases s.chan.answerWrite bs with ⟨_ | _ | e, c⟩
    · exact alike_next (t := { s with pend := some (.write bs), chan := c }) hs
    · exact hk c
    · exact alike_finish (.transport e) (s.answered c) d

/-! ### The loops -/

/-- `s` with the datapath registers of `l`, but for those that a command in the midst of a VBI will
still read: the decoder's and, of a header, the control byte's; the encoder's. -/
def refill (i : Instr) (l : Datapath) (s : State E) : State E :=
  { s with
    dp :=
      match i with
      | .rdvbi => { l with vdValue := s.dp.vdValue, vdMult := s.dp.vdMult }
      | .rdhdr => { s.dp with veX := l.veX }
      | .wrvbi _ | .wrhdr _ _ _ => { l with veX := s.dp.veX }
      | .rdu8 | .rdu16 | .rdu32 | .ptfrom _ | .wru8 _ | .wru16 _ | .wru32 _ | .ptto _ => l }

theorem sameLive_refill (i : Instr) (l : Datapath) (s : State E) : SameLive i s (refill i l s) := by
  intro _
  cases i <;> simp [refill]

/-- The commands that decode a VBI, with what they report. -/
inductive Decodes : Instr → (State E → State E) → Prop where
  | value : Decodes .rdvbi reportValue
  | header : Decodes .rdhdr reportHeader

/-- The rest of the decoder's loop, once the channel has served a byte. -/
def afterByte (report : State E → State E) (n : Nat) (bs : List Byte) (t : State E) : Result E :=
  let u := t.accumulate (bs.headD 0)
  if continues (bs.headD 0) = false then .next (report u).complete
  else if u.dp.vdMult = Config.topMult then raise .malformed u
  else driveDecode report n (u.scale.issue (.read .u8) .digit)

theorem driveDecode_succ (report : State E → State E) (n : Nat) (s : State E) :
    driveDecode report (n + 1) s = awaitRead s (afterByte report n) := rfl

theorem afterByte_alike {report : State E → State E} (hi : Decodes i report) (l : Datapath) (n : Nat)
    (ih : ∀ s, Alike i (driveDecode report n s) (driveDecode report n (refill i l s)))
    (bs : List Byte) (t : State E) :
    Alike i (afterByte report n bs t) (afterByte report n bs (refill i l t)) := by
  have mult : ∀ u : State E, (refill i l u).dp.vdMult = u.dp.vdMult := by
    cases hi <;> exact fun _ => rfl
  have acc : ∀ (e : Byte) (u : State E),
      (refill i l u).accumulate e = refill i l (u.accumulate e) := by
    cases hi <;> exact fun _ _ => rfl
  have again : ∀ u : State E, (refill i l u).scale.issue (.read .u8) .digit
      = refill i l (u.scale.issue (.read .u8) .digit) := by
    cases hi <;> exact fun _ => rfl
  have rep : ∀ u : State E,
      report (refill i l u) = { report u with dp := (refill i l u).dp } := by
    cases hi <;> exact fun _ => rfl
  simp only [afterByte, acc, mult, again, rep]
  split
  · exact alike_finish .ok _ _
  · split
    · exact alike_finish .malformed _ _
    · exact ih _

theorem driveDecode_alike {report : State E → State E} (hi : Decodes i report) (l : Datapath)
    (n : Nat) (s : State E) :
    Alike i (driveDecode report n s) (driveDecode report n (refill i l s)) := by
  induction n generalizing s with
  | zero => exact alike_next (sameLive_refill i l s)
  | succ n ih =>
    rw [driveDecode_succ, driveDecode_succ]
    exact alike_awaitRead (sameLive_refill i l s) fun bs c =>
      afterByte_alike hi l n ih bs (s.answered c)

/-- The commands that encode a VBI. -/
inductive Encodes : Instr → Prop where
  | value (a : Word) : Encodes (.wrvbi a)
  | header (ty : Nibble) (b : Byte) (a : Word) : Encodes (.wrhdr ty b a)

theorem driveEncode_alike (hi : Encodes i) (l : Datapath) (n : Nat) (s : State E) :
    Alike i (driveEncode n s) (driveEncode n (refill i l s)) := by
  have quotient : ∀ u : State E, (refill i l u).dp.veX = u.dp.veX := by
    cases hi <;> exact fun _ => rfl
  have issue : ∀ u : State E, (refill i l u).issueDigits = refill i l u.issueDigits := by
    cases hi <;> exact fun _ => rfl
  induction n generalizing s with
  | zero => exact alike_next (sameLive_refill i l s)
  | succ n ih =>
    refine alike_awaitWrite (sameLive_refill i l s) fun c => ?_
    change Alike i _ (if (refill i l (s.answered c)).dp.veX = 0
      then .next (refill i l (s.answered c)).complete
      else driveEncode n (refill i l (s.answered c)).issueDigits)
    rw [quotient, issue]
    split
    · exact alike_finish .ok (s.answered c) _
    · exact ih _

theorem sameLive_writeOf (w : Width) (a : Word) (s t : State E) : SameLive (writeOf w a) s t := by
  intro _
  cases w <;> trivial

theorem driveField_alike (w : Width) (a : Word) (l : Datapath) (n : Nat) (s : State E) :
    Alike (writeOf w a) (driveField n s) (driveField n { s with dp := l }) := by
  induction n generalizing s with
  | zero => exact alike_next (sameLive_writeOf w a _ _)
  | succ n ih =>
    refine alike_awaitWrite (sameLive_writeOf w a _ _) fun c => ?_
    rcases hp : s.place with _ | (_ | ⟨b, bs⟩) | _ | _ <;>
      simp only [answered_place, hp]
    · exact alike_fault _ _
    · exact alike_finish .ok (s.answered c) l
    · exact ih ((s.answered c).issueField (b :: bs))
    · exact alike_fault _ _
    · exact alike_fault _ _

/-! ### The commands -/

theorem readField_alike (w : Width) (l : Datapath) (hpl : s.place = .start) :
    Alike (readOf w) (readField w s) (readField w { s with dp := l }) := by
  simp only [readField, hpl]
  exact alike_awaitRead (s := s.issue (.read w) (.field [])) (sameLive_of_place (by simp) _)
    fun bs c => alike_finish .ok (State.setValue (fieldValue bs) _) l

theorem writeField_alike (w : Width) (a : Word) (l : Datapath) (hpl : s.place = .start) :
    Alike (writeOf w a) (writeField w a s) (writeField w a { s with dp := l }) := by
  simp only [writeField, hpl]
  exact driveField_alike w a l 4 (s.issueField (fieldBytes w a))

theorem execOf_writeOf_alike (w : Width) (a : Word) (l : Datapath) (hpl : s.place = .start) :
    Alike (writeOf w a) (execOf (writeOf w a) s) (execOf (writeOf w a) { s with dp := l }) := by
  simp only [execOf_writeOf]
  split
  · exact writeField_alike w a l hpl
  · exact alike_finish .illegalCommand s l

theorem execRdvbi_alike (l : Datapath) (hpl : s.place = .start) :
    Alike .rdvbi (execRdvbi s) (execRdvbi { s with dp := l }) := by
  simp only [execRdvbi, hpl]
  exact driveDecode_alike .value l _ s.beginDecode

theorem execRdhdr_alike (l : Datapath) (hpl : s.place = .start) :
    Alike .rdhdr (execRdhdr s) (execRdhdr { s with dp := l }) := by
  simp only [execRdhdr, hpl]
  exact alike_awaitRead (s := s.issue (.read .u8) .control) (sameLive_of_place (by simp) _)
    fun bs c => driveDecode_alike .header l _ (State.latchControl (bs.headD 0) _).beginDecode

theorem execWrvbi_alike (a : Word) (l : Datapath) (hpl : s.place = .start) :
    Alike (.wrvbi a) (execWrvbi a s) (execWrvbi a { s with dp := l }) := by
  simp only [execWrvbi, hpl]
  split
  · exact alike_finish .encDomain s l
  · exact driveEncode_alike (.value a) l _ (s.beginEncode a)

theorem execWrhdr_alike (ty : Nibble) (b : Byte) (a : Word) (l : Datapath) (hpl : s.place = .start) :
    Alike (.wrhdr ty b a) (execWrhdr ty b a s) (execWrhdr ty b a { s with dp := l }) := by
  simp only [execWrhdr, hpl]
  split
  · exact alike_finish .encDomain s l
  · exact alike_awaitWrite (s := s.issue (.write [controlByte ty b]) .control)
      (sameLive_of_place (by simp) _)
      fun c => driveEncode_alike (.header ty b a) l _ (State.beginEncode a _)

theorem execPtfrom_alike (a : Word) (l : Datapath) (s : State E) :
    Alike (.ptfrom a) (execPtfrom a s) (execPtfrom a { s with dp := l }) := by
  unfold execPtfrom
  split
  · exact alike_finish .ok (s.setPt _) l
  · exact alike_finish .illegalCommand s l

theorem execOf_alike (i : Instr) (l : Datapath) (hpl : s.place = .start) :
    Alike i (execOf i s) (execOf i { s with dp := l }) := by
  cases i with
  | rdu8 => exact readField_alike .u8 l hpl
  | rdu16 => exact readField_alike .u16 l hpl
  | rdu32 => exact readField_alike .u32 l hpl
  | rdvbi => exact execRdvbi_alike l hpl
  | rdhdr => exact execRdhdr_alike l hpl
  | ptfrom a => exact execPtfrom_alike a l s
  | wru8 a => exact execOf_writeOf_alike .u8 a l hpl
  | wru16 a => exact execOf_writeOf_alike .u16 a l hpl
  | wru32 a => exact execOf_writeOf_alike .u32 a l hpl
  | wrvbi a => exact execWrvbi_alike a l hpl
  | wrhdr ty b a => exact execWrhdr_alike ty b a l hpl
  | ptto ty => exact alike_finish .ok (s.setValue _) l

/-- Settles O50: the two runs are alike (`execOf_alike`), and a command that starts answers a next
state (`execOf_start`). -/
theorem commandsDoNotReadLeftoverRegisters : Obligations.CommandsDoNotReadLeftoverRegisters := by
  intro i s d hpl
  rw [exec_eq_execOf]
  obtain ⟨u, hu⟩ := execOf_start i hpl
  refine ⟨fun t ht => ?_, by simp [hu], by simp [hu]⟩
  obtain ⟨d', e, live⟩ := execOf_alike i d hpl t ht
  exact ⟨d', e, fun _ => live⟩

end Sys2Proof.Leftovers
end

section
/-!
SUPPORT. Acceptance and the held commands (rules R18, R24, R49, R51): the turn that accepts a
command is that command's run from its first line, presenting one only queues it, and a BUSY unit
touches neither the queue nor its latch.
-/
namespace Sys2Proof.Acceptance

open Sys2Proof.Machine Sys2Proof.Safety Sys2Proof.ErrorValues Sys2Proof.Handshake
open Sys2Proof.Frames

variable {E : Type} {s t : State E}

/-- Settles O9: the turn accepts (`unitTurn_accepts`) and runs the latch; a legal command in the
domain leaves no mark for the step to stop at (`stopAtMarks_execOf`). -/
theorem stepAcceptsAndRunsTheDecodedCommand :
    Obligations.StepAcceptsAndRunsTheDecodedCommand := by
  intro s rest c waiting i hm hu hp hid hi t
  have turn_eq : turn exec s = exec i t := by
    rw [turn_of_unitMoves exec hm,
      unitTurn_accepts (s := { s with agenda := rest }) exec hu hp hid,
      runLatched_instr exec rfl hi]
    rfl
  have step_eq : step s = stopAtMarks s (exec i t) := by rw [step, turn_eq]
  refine ⟨turn_eq, step_eq, fun hw hd => ?_⟩
  rw [step_eq, exec_eq_execOf]
  exact stopAtMarks_execOf rfl hw hd

/-- Running the latched command leaves the held commands and the latch as they are (rule R49). -/
theorem port_cmd_runLatched (h : runLatched execOf s = .next t) :
    t.port = s.port ∧ t.cmd = s.cmd := by
  rcases hc : s.cmd with _ | c
  · simp [runLatched, hc] at h
  · rcases hd : decode c with i | w
    · rw [runLatched_instr execOf hc hd] at h
      have hk := kept_execOf h
      exact ⟨congrArg Kept.port hk, (congrArg Kept.cmd hk).trans hc⟩
    · rw [runLatched_reserved execOf hc hd] at h
      cases h
      exact ⟨rfl, hc⟩

theorem step_present {s : State} {c : Command} {rest : List CallerAct}
    (ha : s.agenda = .present c :: rest) :
    step s = .next { s with agenda := rest, port := s.port ++ [c] } := by
  rw [step, turn, ha]
  exact stopAtMarks_next rfl

/-- Settles O11: `step_present`, and of a BUSY unit `port_cmd_runLatched`. -/
theorem commandsAreHeldWhileBusy : Obligations.CommandsAreHeldWhileBusy := by
  refine ⟨fun s c rest ha => step_present ha, fun s t rest hm hu ht => ?_⟩
  rw [step_of_unitMoves hm, unitTurn_busy (s := { s with agenda := rest }) exec hu,
    exec_eq_execOf] at ht
  obtain ⟨ht, -⟩ := stopAtMarks_eq_next.mp ht
  exact port_cmd_runLatched (s := { s with agenda := rest }) ht

end Sys2Proof.Acceptance
end

section
/-!
SUPPORT. What a meaning does at each place that its pseudocode has (rule R17): from the first line
it issues its first request, and from a later place it goes on waiting on the one it issued there.
-/
namespace Sys2Proof.Places

open Sys2Proof.Machine Sys2Proof.Safety Sys2Proof.CommandOutcomes

variable {E : Type} {s : State E} {w : Width} {a : Word} {ty : Nibble} {b : Byte}
  {rest : List Byte}

/-! ### Fixed-width commands -/

theorem readField_start (hpl : s.place = .start) :
    readField w s = awaitField (s.issue (.read w) (.field [])) := by
  simp only [readField, hpl]

theorem readField_field (hpl : s.place = .field rest) : readField w s = awaitField s := by
  simp only [readField, hpl]

theorem writeField_start (hpl : s.place = .start) :
    writeField w a s = driveField 4 (s.issueField (fieldBytes w a)) := by
  simp only [writeField, hpl]

theorem writeField_field (hpl : s.place = .field rest) : writeField w a s = driveField 4 s := by
  simp only [writeField, hpl]

theorem execOf_writeOf_of_wellFormed (hw : (writeOf w a).wellFormed = true) (s : State E) :
    execOf (writeOf w a) s = writeField w a s := by
  rw [execOf_writeOf, if_pos hw]

/-! ### The decoder -/

theorem execRdvbi_start (hpl : s.place = .start) :
    execRdvbi s = driveDecode reportValue 4 s.beginDecode := by
  simp only [execRdvbi, hpl, Config.vbiMaxBytes]

theorem execRdvbi_digit (hpl : s.place = .digit) :
    execRdvbi s = driveDecode reportValue 4 s := by
  simp only [execRdvbi, hpl, Config.vbiMaxBytes]

theorem execRdhdr_start (hpl : s.place = .start) :
    execRdhdr s = awaitControl (s.issue (.read .u8) .control) := by
  simp only [execRdhdr, hpl]

theorem execRdhdr_control (hpl : s.place = .control) : execRdhdr s = awaitControl s := by
  simp only [execRdhdr, hpl]

theorem execRdhdr_digit (hpl : s.place = .digit) :
    execRdhdr s = driveDecode reportHeader 4 s := by
  simp only [execRdhdr, hpl, Config.vbiMaxBytes]

/-! ### The encoder, of a value in the domain or above it -/

/-- An operand in the domain (rule R85) as WRVBI's and WRHDR's meanings check it. -/
theorem not_beyondDomain (hd : decide (a.toNat ≤ Config.vbiMax) = true) : beyondDomain a = false :=
  beyondDomain_eq_false.mpr (of_decide_eq_true hd)

theorem execWrvbi_start (hd : inDomain (.wrvbi a) = true) (hpl : s.place = .start) :
    execWrvbi a s = driveEncode 4 (s.beginEncode a) := by
  simp [execWrvbi, not_beyondDomain hd, hpl, Config.vbiMaxBytes]

theorem execWrvbi_digit (hd : inDomain (.wrvbi a) = true) (hpl : s.place = .digit) :
    execWrvbi a s = driveEncode 4 s := by
  simp [execWrvbi, not_beyondDomain hd, hpl, Config.vbiMaxBytes]

theorem execWrvbi_beyondDomain (hd : ¬ inDomain (.wrvbi a) = true) (s : State E) :
    execWrvbi a s = raise .encDomain s := by
  have ha : beyondDomain a = true := by simpa [inDomain, beyondDomain] using hd
  rw [execWrvbi, if_pos ha]

theorem execWrhdr_start (hd : inDomain (.wrhdr ty b a) = true) (hpl : s.place = .start) :
    execWrhdr ty b a s = awaitControlSent a (s.issue (.write [controlByte ty b]) .control) := by
  simp [execWrhdr, not_beyondDomain hd, hpl]

theorem execWrhdr_control (hd : inDomain (.wrhdr ty b a) = true) (hpl : s.place = .control) :
    execWrhdr ty b a s = awaitControlSent a s := by
  simp [execWrhdr, not_beyondDomain hd, hpl]

theorem execWrhdr_digit (hd : inDomain (.wrhdr ty b a) = true) (hpl : s.place = .digit) :
    execWrhdr ty b a s = driveEncode 4 s := by
  simp [execWrhdr, not_beyondDomain hd, hpl, Config.vbiMaxBytes]

theorem execWrhdr_beyondDomain (hd : ¬ inDomain (.wrhdr ty b a) = true) (s : State E) :
    execWrhdr ty b a s = raise .encDomain s := by
  have ha : beyondDomain a = true := by simpa [inDomain, beyondDomain] using hd
  rw [execWrhdr, if_pos ha]

end Sys2Proof.Places
end

section
/-!
SUPPORT. The suspension points (rules R36 to R38, R46, R120, R130): a command that stands at one
does nothing but wait on its pending request, so what the channel's next answer makes of it is said
by the lemmas of `awaitRead` and `awaitWrite`.
-/
namespace Sys2Proof.SuspensionPoints

open Sys2Proof.Machine Sys2Proof.Safety Sys2Proof.ErrorValues Sys2Proof.CommandOutcomes
open Sys2Proof.Invariant Sys2Proof.Places

variable {E : Type} {i : Instr} {s : State E}

/-- The run `r` from `s` is a wait on the read pending in `s`. -/
def AwaitsRead (s : State E) (r : Result E) : Prop :=
  ∃ w k, s.pend = some (.read w) ∧ r = awaitRead s k

/-- The run `r` from `s` is a wait on the write pending in `s`. -/
def AwaitsWrite (s : State E) (r : Result E) : Prop :=
  ∃ bs k, s.pend = some (.write bs) ∧ r = awaitWrite s k

/-! ### The commands -/

theorem awaitsRead_awaitRead {w : Width} (hp : s.pend = some (.read w))
    (k : List Byte → State E → Result E) : AwaitsRead s (awaitRead s k) :=
  ⟨w, k, hp, rfl⟩

theorem awaitsWrite_awaitWrite {bs : List Byte} (hp : s.pend = some (.write bs))
    (k : State E → Result E) : AwaitsWrite s (awaitWrite s k) :=
  ⟨bs, k, hp, rfl⟩

theorem readField_awaitsRead {w : Width} (h : WaitsAt (readOf w) s) :
    AwaitsRead s (readField w s) := by
  obtain ⟨hpl, hp⟩ := (waitsAt_readOf w).mp h
  rw [readField_field hpl]
  exact awaitsRead_awaitRead hp _

theorem execOf_writeOf_awaitsWrite {w : Width} {a : Word} (h : WaitsAt (writeOf w a) s) :
    AwaitsWrite s (execOf (writeOf w a) s) := by
  obtain ⟨hw, -, now, rest, -, -, hp, hpl⟩ := (waitsAt_writeOf w a).mp h
  rw [execOf_writeOf_of_wellFormed hw, writeField_field hpl]
  exact awaitsWrite_awaitWrite hp _

theorem execRdvbi_awaitsRead (h : WaitsAt .rdvbi s) : AwaitsRead s (execRdvbi s) := by
  obtain ⟨-, -, hpl, hp, -⟩ := h
  rw [execRdvbi_digit hpl]
  exact awaitsRead_awaitRead hp _

theorem execRdhdr_awaitsRead (h : WaitsAt .rdhdr s) : AwaitsRead s (execRdhdr s) := by
  obtain ⟨-, -, hp, hpl | ⟨hpl, -⟩⟩ := h
  · rw [execRdhdr_control hpl]
    exact awaitsRead_awaitRead hp _
  · rw [execRdhdr_digit hpl]
    exact awaitsRead_awaitRead hp _

theorem execWrvbi_awaitsWrite {a : Word} (h : WaitsAt (.wrvbi a) s) :
    AwaitsWrite s (execWrvbi a s) := by
  obtain ⟨-, hd, -, now, -, -, -, hp, hpl⟩ := h
  rw [execWrvbi_digit hd hpl]
  exact awaitsWrite_awaitWrite hp _

theorem execWrhdr_awaitsWrite {ty : Nibble} {b : Byte} {a : Word} (h : WaitsAt (.wrhdr ty b a) s) :
    AwaitsWrite s (execWrhdr ty b a s) := by
  obtain ⟨-, hd, ⟨hpl, hp⟩ | ⟨-, now, -, -, -, hp, hpl⟩⟩ := h
  · rw [execWrhdr_control hd hpl]
    exact awaitsWrite_awaitWrite hp _
  · rw [execWrhdr_digit hd hpl]
    exact awaitsWrite_awaitWrite hp _

/-- A reading command at a suspension point waits on its pending read. -/
theorem execOf_awaitsRead (hi : readsChannel i = true) (h : WaitsAt i s) :
    AwaitsRead s (execOf i s) := by
  cases i with
  | rdu8 => exact readField_awaitsRead (w := .u8) h
  | rdu16 => exact readField_awaitsRead (w := .u16) h
  | rdu32 => exact readField_awaitsRead (w := .u32) h
  | rdvbi => exact execRdvbi_awaitsRead h
  | rdhdr => exact execRdhdr_awaitsRead h
  | ptfrom _ | wru8 _ | wru16 _ | wru32 _ | wrvbi _ | wrhdr _ _ _ | ptto _ => cases hi

/-- A writing command at a suspension point waits on its pending write. -/
theorem execOf_awaitsWrite (hi : writesChannel i = true) (h : WaitsAt i s) :
    AwaitsWrite s (execOf i s) := by
  cases i with
  | wru8 a => exact execOf_writeOf_awaitsWrite (w := .u8) h
  | wru16 a => exact execOf_writeOf_awaitsWrite (w := .u16) h
  | wru32 a => exact execOf_writeOf_awaitsWrite (w := .u32) h
  | wrvbi a => exact execWrvbi_awaitsWrite h
  | wrhdr ty b a => exact execWrhdr_awaitsWrite h
  | rdu8 | rdu16 | rdu32 | rdvbi | rdhdr | ptfrom _ | ptto _ => cases hi

/-- A command that uses no channel never waits (rule R43). -/
theorem usesChannel_of_waitsAt (h : WaitsAt i s) :
    readsChannel i = true ∨ writesChannel i = true := by
  cases i with
  | rdu8 | rdu16 | rdu32 | rdvbi | rdhdr => exact .inl rfl
  | wru8 _ | wru16 _ | wru32 _ | wrvbi _ | wrhdr _ _ _ => exact .inr rfl
  | ptfrom _ | ptto _ => exact h.2.2.elim

/-- Under the invariant the step of a BUSY unit is a wait on its pending request. -/
theorem step_awaits {s : State} {rest : List CallerAct} (h : Inv s) (hu : s.ust = .busy)
    (hm : UnitMoves s rest) :
    AwaitsRead { s with agenda := rest } (step s) ∨
      AwaitsWrite { s with agenda := rest } (step s) := by
  obtain ⟨c, i, running, hi, hw⟩ := running_of_busy h hu
  obtain ⟨-, -, step_eq⟩ :=
    Handshake.stepResumesTheLatchedCommand s rest c i hm hu running.latched hi
  have hw' : WaitsAt i { s with agenda := rest } := hw
  rw [step_eq (wellFormed_of_waitsAt hw) (inDomain_of_waitsAt hw), exec_eq_execOf]
  rcases usesChannel_of_waitsAt hw with hr | hr
  · exact .inl (execOf_awaitsRead hr hw')
  · exact .inr (execOf_awaitsWrite hr hw')

/-! ### No answer -/

/-- Settles O12: `step_awaits`, and a silent channel gives no answer. -/
theorem silentChannelLeavesTheUnitWaiting : Obligations.SilentChannelLeavesTheUnitWaiting := by
  intro s h hu ha hr hw
  have same : { s with agenda := [] } = s := ha ▸ rfl
  have waits := step_awaits h hu (.inl ⟨ha, rfl⟩)
  rw [same] at waits
  rcases waits with ⟨w, k, hp, e⟩ | ⟨bs, k, hp, e⟩
  · exact e.trans (awaitRead_silent k hp hr)
  · exact e.trans (awaitWrite_silent k hp hw)

/-- Settles O13: `step_awaits`, and the passed turn is the next answer to the pending request. -/
theorem waitingChangesNothingOfTheUnit : Obligations.WaitingChangesNothingOfTheUnit := by
  intro s rest h hu hm
  rcases step_awaits h hu hm with ⟨w, k, hp, e⟩ | ⟨bs, k, hp, e⟩
  · refine ⟨fun _ rs _ hr => e.trans (awaitRead_wait k hp hr), fun bs ws hp' _ => ?_, .inl ⟨w, hp⟩⟩
    cases hp.symm.trans hp'
  · refine ⟨fun w rs hp' _ => ?_, fun _ ws _ hw => e.trans (awaitWrite_wait k hp hw), .inr ⟨bs, hp⟩⟩
    cases hp.symm.trans hp'

/-! ### Failures -/

/-- Settles O33: the command waits on a read (`execOf_awaitsRead`), which the answer makes fail. -/
theorem readFailuresEndTheCommand : Obligations.ReadFailuresEndTheCommand := by
  intro i s k e more hi h
  rw [exec_eq_execOf]
  obtain ⟨w, cont, hp, run⟩ := execOf_awaitsRead hi h
  refine ⟨fun hr => ⟨s.chan.input.drop (min k w.bytes), ?_⟩,
    fun hr => ⟨s.chan.input.drop (min k w.bytes), ?_⟩⟩
  · rw [run, awaitRead_eof cont hp hr, raise, finish_malformed_eq_ended, ended_answered,
      answered_rsp]
  · rw [run, awaitRead_err cont hp hr, raise, finish_transport_eq_ended, ended_answered,
      answered_rsp]

/-- Settles O34: the command waits on a write (`execOf_awaitsWrite`), which the answer makes
fail. -/
theorem writeFailuresEndTheCommand : Obligations.WriteFailuresEndTheCommand := by
  intro i s k e more hi h hw
  rw [exec_eq_execOf]
  obtain ⟨now, cont, hp, run⟩ := execOf_awaitsWrite hi h
  refine ⟨now, min k now.length, hp, Nat.min_le_right _ _, ?_⟩
  rw [run, awaitWrite_err cont hp hw, raise, finish_transport_eq_ended, ended_answered,
    answered_rsp, ← List.take_eq_take_min]

end Sys2Proof.SuspensionPoints
end

section
/-!
SUPPORT. The streams only move forward (rules R34, R35, R47). A command touches its channel through
the channel's answers alone, so what every answer keeps, every command keeps (`execOf_keeps`).
-/
namespace Sys2Proof.Streams

open Sys2Proof.Machine Sys2Proof.Safety Sys2Proof.ErrorValues Sys2Proof.CallerActs

variable {E : Type} {i : Instr} {s t : State E} {c d : Channel E}

/-! ### What every answer of the channel keeps, every command keeps -/

/-- No answer of the channel takes it out of `P`. -/
structure KeptByAnswers (P : Channel E → Prop) : Prop where
  read : ∀ n c, P c → P (c.answerRead n).2
  write : ∀ bs c, P c → P (c.answerWrite bs).2

theorem raise_keeps {P : Channel E → Prop} {e : Ending E} (hs : P s.chan)
    (h : raise e s = .next t) : P t.chan := by
  cases h
  exact hs

section Commands

variable {P : Channel E → Prop} (hP : KeptByAnswers P)
include hP

theorem awaitRead_keeps {k : List Byte → State E → Result E}
    (hk : ∀ bs c, P c → k bs (s.answered c) = .next t → P t.chan)
    (hs : P s.chan) (h : awaitRead s k = .next t) : P t.chan := by
  rcases hp : s.pend with _ | w | bs
  · simp [awaitRead, hp] at h
  · have hc := hP.read w.bytes s.chan hs
    simp only [awaitRead, hp] at h
    rcases ha : s.chan.answerRead w.bytes with ⟨_ | bs | _ | e, c⟩ <;> rw [ha] at h hc
    · cases h; exact hc
    · exact hk bs c hc h
    · cases h; exact hc
    · cases h; exact hc
  · simp [awaitRead, hp] at h

theorem awaitWrite_keeps {k : State E → Result E}
    (hk : ∀ c, P c → k (s.answered c) = .next t → P t.chan)
    (hs : P s.chan) (h : awaitWrite s k = .next t) : P t.chan := by
  rcases hp : s.pend with _ | w | bs
  · simp [awaitWrite, hp] at h
  · simp [awaitWrite, hp] at h
  · have hc := hP.write bs s.chan hs
    simp only [awaitWrite, hp] at h
    rcases ha : s.chan.answerWrite bs with ⟨_ | _ | e, c⟩ <;> rw [ha] at h hc
    · cases h; exact hc
    · exact hk c hc h
    · cases h; exact hc

theorem driveDecode_keeps {report : State E → State E} (hrep : ∀ u, (report u).chan = u.chan)
    (n : Nat) : ∀ {s : State E}, P s.chan → driveDecode report n s = .next t → P t.chan := by
  induction n with
  | zero => intro s hs h; cases h; exact hs
  | succ n ih =>
    intro s hs h
    refine awaitRead_keeps hP (fun bs c hc h => ?_) hs h
    dsimp only at h
    split at h
    · cases h; simpa [hrep] using hc
    · split at h
      · cases h; exact hc
      · exact ih hc h

theorem driveEncode_keeps (n : Nat) :
    ∀ {s : State E}, P s.chan → driveEncode n s = .next t → P t.chan := by
  induction n with
  | zero => intro s hs h; cases h; exact hs
  | succ n ih =>
    intro s hs h
    refine awaitWrite_keeps hP (fun c hc h => ?_) hs h
    split at h
    · cases h; exact hc
    · exact ih hc h

theorem driveField_keeps (n : Nat) :
    ∀ {s : State E}, P s.chan → driveField n s = .next t → P t.chan := by
  induction n with
  | zero => intro s hs h; cases h; exact hs
  | succ n ih =>
    intro s hs h
    refine awaitWrite_keeps hP (fun c hc h => ?_) hs h
    split at h
    · cases h; exact hc
    · exact ih hc h
    all_goals cases h

theorem awaitField_keeps (hs : P s.chan) (h : awaitField s = .next t) : P t.chan :=
  awaitRead_keeps hP (fun _ _ hc h => by cases h; exact hc) hs h

theorem readField_keeps {w : Width} (hs : P s.chan) (h : readField w s = .next t) :
    P t.chan := by
  unfold readField at h
  split at h
  · exact awaitField_keeps hP (s := s.issue (.read w) (.field [])) hs h
  · exact awaitField_keeps hP hs h
  all_goals cases h

theorem writeField_keeps {w : Width} {a : Word} (hs : P s.chan)
    (h : writeField w a s = .next t) : P t.chan := by
  unfold writeField at h
  split at h
  · exact driveField_keeps hP 4 (s := s.issueField (fieldBytes w a)) hs h
  · exact driveField_keeps hP 4 hs h
  all_goals cases h

theorem execRdvbi_keeps (hs : P s.chan) (h : execRdvbi s = .next t) : P t.chan := by
  unfold execRdvbi at h
  split at h
  · exact driveDecode_keeps hP (report := reportValue) (fun _ => rfl) _ (s := s.beginDecode) hs h
  · exact driveDecode_keeps hP (report := reportValue) (fun _ => rfl) _ hs h
  all_goals cases h

theorem awaitControl_keeps (hs : P s.chan) (h : awaitControl s = .next t) : P t.chan :=
  awaitRead_keeps hP (fun bs c hc h =>
    driveDecode_keeps hP (report := reportHeader) (fun _ => rfl) _
      (s := ((s.answered c).latchControl (bs.headD 0)).beginDecode) hc h) hs h

theorem execRdhdr_keeps (hs : P s.chan) (h : execRdhdr s = .next t) : P t.chan := by
  unfold execRdhdr at h
  split at h
  · exact awaitControl_keeps hP (s := s.issue (.read .u8) .control) hs h
  · exact awaitControl_keeps hP hs h
  · exact driveDecode_keeps hP (report := reportHeader) (fun _ => rfl) _ hs h
  · cases h

theorem execWrvbi_keeps {a : Word} (hs : P s.chan) (h : execWrvbi a s = .next t) :
    P t.chan := by
  unfold execWrvbi at h
  split at h
  · exact raise_keeps hs h
  · split at h
    · exact driveEncode_keeps hP _ (s := s.beginEncode a) hs h
    · exact driveEncode_keeps hP _ hs h
    all_goals cases h

theorem awaitControlSent_keeps {a : Word} (hs : P s.chan)
    (h : awaitControlSent a s = .next t) : P t.chan :=
  awaitWrite_keeps hP (fun c hc h => driveEncode_keeps hP _
    (s := (s.answered c).beginEncode a) hc h) hs h

theorem execWrhdr_keeps {ty : Nibble} {b : Byte} {a : Word} (hs : P s.chan)
    (h : execWrhdr ty b a s = .next t) : P t.chan := by
  unfold execWrhdr at h
  split at h
  · exact raise_keeps hs h
  · split at h
    · exact awaitControlSent_keeps hP (s := s.issue (.write [controlByte ty b]) .control) hs h
    · exact awaitControlSent_keeps hP hs h
    · exact driveEncode_keeps hP _ hs h
    · cases h

theorem execOf_writeOf_keeps {w : Width} {a : Word} (hs : P s.chan)
    (h : execOf (writeOf w a) s = .next t) : P t.chan := by
  rw [CommandOutcomes.execOf_writeOf] at h
  split at h
  · exact writeField_keeps hP hs h
  · exact raise_keeps hs h

theorem execOf_keeps (hs : P s.chan) (h : execOf i s = .next t) : P t.chan := by
  cases i with
  | rdu8 | rdu16 | rdu32 => exact readField_keeps hP hs h
  | rdvbi => exact execRdvbi_keeps hP hs h
  | rdhdr => exact execRdhdr_keeps hP hs h
  | ptfrom a =>
    simp only [execOf, execPtfrom] at h
    split at h
    · cases h; exact hs
    · exact raise_keeps hs h
  | wru8 a => exact execOf_writeOf_keeps hP (w := .u8) hs h
  | wru16 a => exact execOf_writeOf_keeps hP (w := .u16) hs h
  | wru32 a => exact execOf_writeOf_keeps hP (w := .u32) hs h
  | wrvbi a => exact execWrvbi_keeps hP hs h
  | wrhdr ty b a => exact execWrhdr_keeps hP hs h
  | ptto ty => cases h; exact hs

theorem runLatched_keeps (hs : P s.chan) (h : runLatched execOf s = .next t) : P t.chan := by
  unfold runLatched at h
  split at h
  · cases h
  · split at h
    · exact execOf_keeps hP hs h
    · exact raise_keeps hs h

theorem unitTurn_keeps (hs : P s.chan) (h : unitTurn execOf s = .next t) : P t.chan := by
  unfold unitTurn at h
  split at h
  · exact runLatched_keeps hP hs h
  · split at h
    · cases h; exact hs
    · split at h
      · exact runLatched_keeps hP (s := s.accept _ _) hs h
      · cases h

end Commands

/-! ### Forward -/

/-- The streams and the answers of `c`, moved forward, are those of `d` (rules R34, R47). -/
structure Forward (c d : Channel E) : Prop where
  input : d.input <:+ c.input
  output : c.output <+: d.output
  reads : d.reads <:+ c.reads
  writes : d.writes <:+ c.writes

theorem Forward.refl (c : Channel E) : Forward c c :=
  ⟨List.suffix_rfl, List.prefix_rfl, List.suffix_rfl, List.suffix_rfl⟩

theorem forward_answerRead (n : Nat) (h : Forward c d) : Forward c (d.answerRead n).2 := by
  obtain ⟨hi, ho, hr, hw⟩ := h
  rcases answerRead_cases n d with ⟨r, hs, e⟩ | ⟨r, hs, -, e⟩ | ⟨k, r, hs, e⟩ | ⟨x, k, r, hs, e⟩ <;>
    rw [e]
  · exact ⟨hi, ho, hs.trans hr, hw⟩
  all_goals
    have tail : r <:+ d.reads := hs ▸ List.suffix_cons _ _
    exact ⟨(List.drop_suffix _ _).trans hi, ho, tail.trans hr, hw⟩

theorem forward_answerWrite (bs : List Byte) (h : Forward c d) :
    Forward c (d.answerWrite bs).2 := by
  obtain ⟨hi, ho, hr, hw⟩ := h
  rcases answerWrite_cases bs d with ⟨r, hs, e⟩ | ⟨r, hs, e⟩ | ⟨x, k, r, hs, e⟩ <;> rw [e]
  · exact ⟨hi, ho, hr, hs.trans hw⟩
  all_goals
    have tail : r <:+ d.writes := hs ▸ List.suffix_cons _ _
    exact ⟨hi, ho.trans (List.prefix_append _ _), hr, tail.trans hw⟩

theorem forward_kept (c : Channel E) : KeptByAnswers (Forward c) :=
  ⟨fun n _ => forward_answerRead n, fun bs _ => forward_answerWrite bs⟩

/-- An abandoned request only moves the streams forward (rule R122). -/
theorem forward_abandon (r : Option Request) (k : Nat) (c : Channel E) :
    Forward c (c.abandon r k) := by
  obtain ⟨input, output, hi, ho, -, e⟩ := abandon_eq r k c
  rw [e]
  exact ⟨hi, ho, List.suffix_rfl, List.suffix_rfl⟩

/-- Settles O41: the unit's turn by `unitTurn_keeps`, a reset by `forward_abandon`; the caller's
other acts leave the channel alone. -/
theorem streamsOnlyMoveForward : Obligations.StreamsOnlyMoveForward := by
  intro s t h
  have forward : Forward s.chan t.chan := by
    rcases step_cases s with ⟨rest, -, e⟩ | ⟨c, rest, -, e⟩ |
        ⟨r, rest, -, ⟨v, -, e⟩ | ⟨f, -, e⟩ | ⟨f, -, e⟩⟩ | ⟨d, k, rest, -, e⟩ <;> rw [e] at h
    · obtain ⟨h, -⟩ := stopAtMarks_eq_next.mp h
      rw [exec_eq_execOf] at h
      exact unitTurn_keeps (forward_kept s.chan) (s := { s with agenda := rest }) (.refl s.chan) h
    · cases h; exact .refl s.chan
    · cases h; exact .refl s.chan
    · cases h
    · cases h
    · cases h; exact forward_abandon s.pend k s.chan
  exact ⟨forward.input, forward.output, forward.reads, forward.writes⟩

end Sys2Proof.Streams
end

section
/-!
SUPPORT. A write whose requests the channel accepts, of every command and under every chunking
(rules R45, R53, R110).
-/
namespace Sys2Proof.AcceptedWrites

open Sys2Proof.Machine Sys2Proof.Safety Sys2Proof.ErrorValues Sys2Proof.Places
open Sys2Proof.CommandOutcomes

variable {E : Type} {i : Instr} {s : State E} {more : List (WriteVerdict E)}

/-- The run `r` from `s` ends with OK, `bs` written; `left` of the acceptances before `more` are
unused, fewer than five. -/
def Writes (s : State E) (more : List (WriteVerdict E)) (bs : List Byte) (r : Result E) : Prop :=
  ∃ left dp chunks, left < 5 ∧ r = .next (ended
    { s with
      dp := dp, chunks := chunks
      chan := { s.chan with
        output := s.chan.output ++ bs, writes := List.replicate left .accept ++ more } }
    { s.rsp with valid := true, status := some 0 })

/-- The last of `n + 1` acceptances can be counted among the answers after them. -/
theorem replicate_succ_append (n : Nat) (more : List (WriteVerdict E)) :
    List.replicate (n + 1) WriteVerdict.accept ++ more
      = List.replicate n .accept ++ .accept :: more := by
  rw [List.replicate_succ', List.append_assoc, List.singleton_append]

theorem writeField_writes (w : Width) (a : Word) (hpl : s.place = .start)
    (hw : s.chan.writes = List.replicate 5 .accept ++ more) :
    Writes s more (fieldBytes w a) (writeField w a s) := by
  obtain ⟨k, ch, hk, e⟩ :=
    writeField_accept s w a hpl (hw.trans (replicate_succ_append 4 more))
  exact ⟨k + 1, s.dp, ch, by omega, by rw [e, replicate_succ_append]⟩

theorem execOf_writeOf_writes {w : Width} {a : Word} (hwf : (writeOf w a).wellFormed = true)
    (hpl : s.place = .start) (hw : s.chan.writes = List.replicate 5 .accept ++ more) :
    Writes s more (fieldBytes w a) (execOf (writeOf w a) s) := by
  rw [execOf_writeOf_of_wellFormed hwf]
  exact writeField_writes w a hpl hw

theorem execWrvbi_writes {a : Word} (hd : inDomain (.wrvbi a) = true) (hpl : s.place = .start)
    (hw : s.chan.writes = List.replicate 5 .accept ++ more) :
    Writes s more (vbiEncoding a) (execWrvbi a s) := by
  obtain ⟨k, ch, hk, e⟩ :=
    beginEncode_accept s a (of_decide_eq_true hd) (hw.trans (replicate_succ_append 4 more))
  exact ⟨k + 1, _, ch, by omega, by rw [execWrvbi_start hd hpl, e, replicate_succ_append]⟩

/-- The control byte takes one acceptance, which leaves four for the length. -/
theorem execWrhdr_writes {ty : Nibble} {b : Byte} {a : Word}
    (hd : inDomain (.wrhdr ty b a) = true) (hpl : s.place = .start)
    (hw : s.chan.writes = List.replicate 5 .accept ++ more) :
    Writes s more (controlByte ty b :: vbiEncoding a) (execWrhdr ty b a s) := by
  have hw' : s.chan.writes = .accept :: (List.replicate 4 .accept ++ more) := hw
  let u := (s.issue (.write [controlByte ty b]) .control).answered
    { s.chan with
      output := s.chan.output ++ [controlByte ty b], writes := List.replicate 4 .accept ++ more }
  obtain ⟨k, ch, hk, e⟩ := beginEncode_accept u a (more := more) (of_decide_eq_true hd) rfl
  refine ⟨k, { s.dp with veX := 0 }, ch, by omega, ?_⟩
  rw [execWrhdr_start hd hpl, awaitControlSent,
    awaitWrite_accept (s := s.issue (.write [controlByte ty b]) .control) _ rfl hw']
  exact e.trans (by simp [u, ended, State.issue, State.answered])

theorem execOf_writes (hi : writesChannel i = true) (hwf : i.wellFormed = true)
    (hd : inDomain i = true) (hpl : s.place = .start)
    (hw : s.chan.writes = List.replicate 5 .accept ++ more) :
    Writes s more (encodingOf i) (execOf i s) := by
  cases i with
  | wru8 a => exact execOf_writeOf_writes (w := .u8) hwf hpl hw
  | wru16 a => exact execOf_writeOf_writes (w := .u16) hwf hpl hw
  | wru32 a => exact execOf_writeOf_writes (w := .u32) hwf hpl hw
  | wrvbi a => exact execWrvbi_writes hd hpl hw
  | wrhdr ty b a => exact execWrhdr_writes hd hpl hw
  | rdu8 | rdu16 | rdu32 | rdvbi | rdhdr | ptfrom _ | ptto _ => cases hi

/-- Settles O42: `execOf_writes`, read field by field. -/
theorem writesPutExactlyTheirEncodingUnderEveryChunking :
    Obligations.WritesPutExactlyTheirEncodingUnderEveryChunking := by
  intro i s more hi hwf hd hpl hw
  rw [exec_eq_execOf]
  obtain ⟨left, dp, chunks, hl, e⟩ := execOf_writes hi hwf hd hpl hw
  exact ⟨_, left, hl, e, rfl, rfl, rfl, rfl, rfl⟩

end Sys2Proof.AcceptedWrites
end

section
/-!
SUPPORT. Answers given later do what answers given at once do (rules R36, R120, R133). A run that
waits for want of answers is resumed at the wait, which the further answers then make go on as the
same run goes on when they are there from the start; and the answers that one turn can use are
bounded by what is left of the command, not by the turn it began in.
-/
namespace Sys2Proof.LateAnswers

open Sys2Proof.Machine Sys2Proof.Safety Sys2Proof.ErrorValues Sys2Proof.CommandOutcomes
open Sys2Proof.Leftovers Sys2Proof.Places

variable {E : Type} {i : Instr} {s t : State E} {w : Width} {a : Word}
  {rs : List (ReadVerdict E)} {ws : List (WriteVerdict E)} {resume : State E → Result E}

/-! ### How many answers a turn can use -/

theorem awaitRead_congr {k k' : List Byte → State E → Result E}
    (h : ∀ bs c, k bs (s.answered c) = k' bs (s.answered c)) : awaitRead s k = awaitRead s k' := by
  unfold awaitRead
  split
  · split
    · rfl
    · exact h _ _
    · rfl
    · rfl
  · rfl
  · rfl

theorem awaitWrite_congr {k k' : State E → Result E}
    (h : ∀ c, k (s.answered c) = k' (s.answered c)) : awaitWrite s k = awaitWrite s k' := by
  unfold awaitWrite
  split
  · split
    · rfl
    · exact h _
    · rfl
  · rfl
  · rfl

/-- The multiplier when `n` bytes at most are still to come (rule R81). -/
def multBefore (n : Nat) : Word := BitVec.ofNat 32 (128 ^ (4 - n))

theorem multBefore_succ {n : Nat} {m : Word} (hn : n < 3) (h : m = multBefore (n + 2)) :
    m * 128 = multBefore (n + 1) := by
  obtain rfl | rfl | rfl : n = 0 ∨ n = 1 ∨ n = 2 := by omega
  all_goals rw [h]; decide

/-- The decoder asks for no byte beyond the fourth, however many it may be given. -/
theorem driveDecode_enough (report : State E → State E) {n m : Nat} (hn : n < 4) (hm : n ≤ m)
    (hs : s.dp.vdMult = multBefore (n + 1)) :
    driveDecode report (n + 1) s = driveDecode report (m + 1) s := by
  induction n generalizing s m with
  | zero =>
    refine awaitRead_congr fun bs c => ?_
    have top : s.dp.vdMult = Config.topMult := hs
    simp [top]
  | succ n ih =>
    obtain ⟨m, rfl⟩ : ∃ j, m = j + 1 := ⟨m - 1, by omega⟩
    refine awaitRead_congr fun bs c => ?_
    simp only [ih (s := (((s.answered c).accumulate (bs.headD 0)).scale).issue (.read .u8) .digit)
      (m := m) (by omega) (by omega) (multBefore_succ (by omega) hs)]

/-- Every request of the encoder takes at least one digit off the quotient (rules R45, R84). -/
theorem veX_issueDigits_lt {n : Nat} (hx : s.dp.veX.toNat < 128 ^ (n + 1)) :
    s.issueDigits.dp.veX.toNat < 128 ^ n := by
  obtain ⟨c, hc⟩ := chunkSize_pos s (r := 1) (by decide)
  rw [issueDigits_dp, hc]
  refine Nat.lt_of_le_of_lt (vbiChunk_quotient_le (c + 1) _) ?_
  rw [Nat.div_lt_iff_lt_mul (by positivity), ← Nat.pow_add]
  exact Nat.lt_of_lt_of_le hx (Nat.pow_le_pow_right (by decide) (by omega))

/-- The encoder issues no request beyond its quotient's last byte. -/
theorem driveEncode_enough {n m : Nat} (hm : n ≤ m) (hx : s.dp.veX.toNat < 128 ^ n) :
    driveEncode (n + 1) s = driveEncode (m + 1) s := by
  induction n generalizing s m with
  | zero =>
    refine awaitWrite_congr fun c => ?_
    have last : s.dp.veX = 0 := BitVec.eq_of_toNat_eq (by simpa using hx)
    simp [last]
  | succ n ih =>
    obtain ⟨m, rfl⟩ : ∃ j, m = j + 1 := ⟨m - 1, by omega⟩
    refine awaitWrite_congr fun c => ?_
    rw [ih (s := (s.answered c).issueDigits) (m := m) (by omega) (veX_issueDigits_lt hx)]

/-- What is left of a field after its next request. -/
theorem place_issueField {n : Nat} {b : Byte} {bs : List Byte} (hr : (b :: bs).length ≤ n + 1) :
    ∃ rest, (s.issueField (b :: bs)).place = .field rest ∧ rest.length ≤ n := by
  obtain ⟨c, hc⟩ := chunkSize_pos s (r := (b :: bs).length) (by simp)
  refine ⟨(b :: bs).drop (c + 1), by rw [issueField_place, hc], ?_⟩
  rw [List.length_drop]
  omega

/-- A field has no request beyond its last byte's. -/
theorem driveField_enough {n m : Nat} {rest : List Byte} (hm : n ≤ m) (hpl : s.place = .field rest)
    (hr : rest.length ≤ n) : driveField (n + 1) s = driveField (m + 1) s := by
  induction n generalizing s m rest with
  | zero =>
    obtain rfl : rest = [] := by simpa using hr
    exact awaitWrite_congr fun c => by simp [hpl]
  | succ n ih =>
    obtain ⟨m, rfl⟩ : ∃ j, m = j + 1 := ⟨m - 1, by omega⟩
    refine awaitWrite_congr fun c => ?_
    rcases rest with _ | ⟨b, bs⟩
    · simp [hpl]
    · obtain ⟨rest', hpl', hr'⟩ := place_issueField (s := s.answered c) hr
      simp only [answered_place, hpl]
      exact ih (by omega) hpl' hr'

/-! ### Later answers -/

/-- `s` with further answers after those there are. -/
def late (rs : List (ReadVerdict E)) (ws : List (WriteVerdict E)) (s : State E) : State E :=
  { s with chan := { s.chan with
      reads := s.chan.reads ++ rs, writes := s.chan.writes ++ ws } }

/-- No answer of the channel lets a turn pass. -/
def Prompt (c : Channel E) : Prop := .wait ∉ c.reads ∧ .wait ∉ c.writes

/-- If the run `r` waits, all the answers used up, `resume` makes of the wait and of the further
answers what the run `r'` is. -/
def Resumes (resume : State E → Result E) (rs : List (ReadVerdict E)) (ws : List (WriteVerdict E))
    (r r' : Result E) : Prop :=
  ∀ t, r = .next t → t.pend ≠ none → t.chan.reads = [] → t.chan.writes = [] →
    resume (late rs ws t) = r'

/-- An ended command does not wait. -/
theorem resumes_finish (e : Ending E) (u : State E) (r' : Result E) :
    Resumes resume rs ws (.next (u.finish e)) r' := by
  rintro _ ⟨⟩ hp
  exact absurd rfl hp

/-- A read that the input stream is too short for waits, its answer unused. -/
theorem awaitRead_short (k : List Byte → State E → Result E) {more : List (ReadVerdict E)}
    (hp : s.pend = some (.read w)) (hr : s.chan.reads = .serve :: more)
    (hl : ¬ w.bytes ≤ s.chan.input.length) : awaitRead s k = .next s := by
  simp only [awaitRead, hp, Channel.answerRead, hr, hl, if_false]
  rw [← hp]

theorem resumes_awaitRead {k : List Byte → State E → Result E} (hs : Prompt s.chan)
    (hwait : resume (late rs ws s) = awaitRead (late rs ws s) k)
    (hk : ∀ bs c, Prompt c →
      Resumes resume rs ws (k bs (s.answered c)) (k bs (late rs ws (s.answered c)))) :
    Resumes resume rs ws (awaitRead s k) (awaitRead (late rs ws s) k) := by
  rcases hp : s.pend with _ | w | bs
  · simp [awaitRead, hp, Resumes]
  · obtain ⟨hread, hwrite⟩ := hs
    rcases hr : s.chan.reads with _ | ⟨v, more⟩
    · rw [awaitRead_silent k hp hr]
      rintro _ ⟨⟩ - - -
      exact hwait
    · cases v with
      | serve =>
        by_cases hl : w.bytes ≤ s.chan.input.length
        · have hi := (List.take_append_drop w.bytes s.chan.input).symm
          have hb : (s.chan.input.take w.bytes).length = w.bytes := by simp [hl]
          have hr' : (late rs ws s).chan.reads = .serve :: (more ++ rs) := by simp [late, hr]
          rw [awaitRead_serve k hp hr hi hb, awaitRead_serve (s := late rs ws s) k hp hr' hi hb]
          refine hk _ { s.chan with input := s.chan.input.drop w.bytes, reads := more } ⟨?_, hwrite⟩
          exact fun h => hread (hr ▸ List.mem_cons_of_mem _ h)
        · rw [awaitRead_short k hp hr hl]
          rintro _ ⟨⟩ - hnil -
          exact absurd (hr.symm.trans hnil) (List.cons_ne_nil _ _)
      | eof n => rw [awaitRead_eof k hp hr]; exact resumes_finish _ _ _
      | err e n => rw [awaitRead_err k hp hr]; exact resumes_finish _ _ _
      | wait => exact absurd (hr ▸ List.mem_cons_self) hread
  · simp [awaitRead, hp, Resumes]

theorem resumes_awaitWrite {k : State E → Result E} (hs : Prompt s.chan)
    (hwait : resume (late rs ws s) = awaitWrite (late rs ws s) k)
    (hk : ∀ c, Prompt c →
      Resumes resume rs ws (k (s.answered c)) (k (late rs ws (s.answered c)))) :
    Resumes resume rs ws (awaitWrite s k) (awaitWrite (late rs ws s) k) := by
  rcases hp : s.pend with _ | w | bs
  · simp [awaitWrite, hp, Resumes]
  · simp [awaitWrite, hp, Resumes]
  · obtain ⟨hread, hwrite⟩ := hs
    rcases hw : s.chan.writes with _ | ⟨v, more⟩
    · rw [awaitWrite_silent k hp hw]
      rintro _ ⟨⟩ - - -
      exact hwait
    · cases v with
      | accept =>
        have hw' : (late rs ws s).chan.writes = .accept :: (more ++ ws) := by simp [late, hw]
        rw [awaitWrite_accept k hp hw, awaitWrite_accept (s := late rs ws s) k hp hw']
        refine hk { s.chan with output := s.chan.output ++ bs, writes := more } ⟨hread, ?_⟩
        exact fun h => hwrite (hw ▸ List.mem_cons_of_mem _ h)
      | err e n => rw [awaitWrite_err k hp hw]; exact resumes_finish _ _ _
      | wait => exact absurd (hw ▸ List.mem_cons_self) hwrite

/-! ### The loops -/

/-- The decoder ends at a byte with no continuation, and at the fourth. -/
theorem resumes_afterByte_last (report : State E → State E) (n : Nat) {bs : List Byte} {u : State E}
    (h : continues (bs.headD 0) = false ∨ u.dp.vdMult = Config.topMult) (r' : Result E) :
    Resumes resume rs ws (afterByte report n bs u) r' := by
  unfold afterByte
  split
  next => exact resumes_finish .ok _ _
  next hc => exact if_pos (h.resolve_left hc) ▸ resumes_finish _ _ _

theorem afterByte_more (report : State E → State E) (n : Nat) {bs : List Byte} {u : State E}
    (hc : ¬ continues (bs.headD 0) = false) (ht : ¬ u.dp.vdMult = Config.topMult) :
    afterByte report n bs u = driveDecode report n
      (((u.accumulate (bs.headD 0)).scale).issue (.read .u8) .digit) :=
  (if_neg hc).trans (if_neg ht)

/-- The decoder's loop, for a command that resumes it at its suspension point. -/
theorem driveDecode_resumes {report : State E → State E}
    (hres : ∀ u : State E, u.place = .digit → resume u = driveDecode report 4 u) {n : Nat}
    (hn : n < 4) (hm : s.dp.vdMult = multBefore (n + 1)) (hpl : s.place = .digit)
    (hs : Prompt s.chan) :
    Resumes resume rs ws (driveDecode report (n + 1) s)
      (driveDecode report (n + 1) (late rs ws s)) := by
  have waits : ∀ {k : Nat} {u : State E}, k < 4 → u.dp.vdMult = multBefore (k + 1) →
      u.place = .digit → resume u = driveDecode report (k + 1) u := fun hk hu hd =>
    (hres _ hd).trans (driveDecode_enough report hk (Nat.le_of_lt_succ hk) hu).symm
  induction n generalizing s with
  | zero =>
    refine resumes_awaitRead hs (waits (u := late rs ws s) hn hm hpl) fun bs c _ => ?_
    exact resumes_afterByte_last (u := s.answered c) report 0 (.inr hm) _
  | succ n ih =>
    refine resumes_awaitRead hs (waits (u := late rs ws s) hn hm hpl) fun bs c hc => ?_
    change Resumes resume rs ws (afterByte report (n + 1) bs (s.answered c))
      (afterByte report (n + 1) bs (late rs ws (s.answered c)))
    by_cases hlast : continues (bs.headD 0) = false ∨ (s.answered c).dp.vdMult = Config.topMult
    · exact resumes_afterByte_last report _ hlast _
    · obtain ⟨hb, ht⟩ := not_or.mp hlast
      rw [afterByte_more report _ hb ht,
        afterByte_more (u := late rs ws (s.answered c)) report _ hb ht]
      exact ih (by omega) (multBefore_succ (by omega) hm) rfl hc

/-- The encoder's loop, for a command that resumes it at its suspension point. -/
theorem driveEncode_resumes
    (hres : ∀ u : State E, u.place = .digit → resume u = driveEncode 4 u) {n : Nat} (hn : n < 4)
    (hx : s.dp.veX.toNat < 128 ^ n) (hpl : s.place = .digit) (hs : Prompt s.chan) :
    Resumes resume rs ws (driveEncode (n + 1) s) (driveEncode (n + 1) (late rs ws s)) := by
  have waits : ∀ {k : Nat} {u : State E}, k < 4 → u.dp.veX.toNat < 128 ^ k →
      u.place = .digit → resume u = driveEncode (k + 1) u := fun hk hu hd =>
    (hres _ hd).trans (driveEncode_enough (Nat.le_of_lt_succ hk) hu).symm
  induction n generalizing s with
  | zero =>
    refine resumes_awaitWrite hs (waits (u := late rs ws s) hn hx hpl) fun c _ => ?_
    have last : (s.answered c).dp.veX = 0 := BitVec.eq_of_toNat_eq (by simpa using hx)
    rw [if_pos last]
    exact resumes_finish .ok _ _
  | succ n ih =>
    refine resumes_awaitWrite hs (waits (u := late rs ws s) hn hx hpl) fun c hc => ?_
    by_cases h0 : (s.answered c).dp.veX = 0
    · rw [if_pos h0]
      exact resumes_finish .ok _ _
    · rw [if_neg h0, if_neg (c := (late rs ws (s.answered c)).dp.veX = 0) h0]
      exact ih (by omega) (veX_issueDigits_lt hx) rfl hc

/-- The requests of a field, for a command that resumes them at their suspension point. -/
theorem driveField_resumes
    (hres : ∀ (u : State E) (bs : List Byte), u.place = .field bs → resume u = driveField 4 u)
    {n : Nat} {rest : List Byte} (hn : n < 4) (hpl : s.place = .field rest) (hr : rest.length ≤ n)
    (hs : Prompt s.chan) :
    Resumes resume rs ws (driveField (n + 1) s) (driveField (n + 1) (late rs ws s)) := by
  have waits : ∀ {k : Nat} {u : State E} {bs : List Byte}, k < 4 → u.place = .field bs →
      bs.length ≤ k → resume u = driveField (k + 1) u := fun hk hd hl =>
    (hres _ _ hd).trans (driveField_enough (Nat.le_of_lt_succ hk) hd hl).symm
  induction n generalizing s rest with
  | zero =>
    obtain rfl : rest = [] := by simpa using hr
    refine resumes_awaitWrite hs (waits (u := late rs ws s) hn hpl hr) fun c _ => ?_
    simp only [answered_place, hpl]
    exact resumes_finish .ok _ _
  | succ n ih =>
    refine resumes_awaitWrite hs (waits (u := late rs ws s) hn hpl hr) fun c hc => ?_
    have hpl' : (late rs ws (s.answered c)).place = .field rest := hpl
    rcases rest with _ | ⟨b, bs⟩
    · simp only [answered_place, hpl]
      exact resumes_finish .ok _ _
    · obtain ⟨rest', hnext, hlen⟩ := place_issueField (s := s.answered c) hr
      simp only [answered_place, hpl, hpl']
      exact ih (by omega) hnext hlen hc

/-! ### The commands -/

theorem awaitField_resumes (hres : ∀ u : State E, u.place = .field [] → resume u = awaitField u)
    (hpl : s.place = .field []) (hs : Prompt s.chan) :
    Resumes resume rs ws (awaitField s) (awaitField (late rs ws s)) :=
  resumes_awaitRead hs (hres _ hpl) fun _ _ _ => resumes_finish .ok _ _

theorem readField_resumes (w : Width) (hpl : s.place = .start) (hs : Prompt s.chan) :
    Resumes (readField w) rs ws (readField w s) (readField w (late rs ws s)) := by
  rw [readField_start hpl, readField_start (s := late rs ws s) hpl]
  exact awaitField_resumes (s := s.issue (.read w) (.field [])) (fun _ => readField_field) rfl hs

theorem writeField_resumes (w : Width) (a : Word) (hpl : s.place = .start) (hs : Prompt s.chan) :
    Resumes (writeField w a) rs ws (writeField w a s) (writeField w a (late rs ws s)) := by
  have field : ∃ b bs, fieldBytes w a = b :: bs ∧ (b :: bs).length ≤ 4 := by
    cases w <;> exact ⟨_, _, rfl, by simp⟩
  obtain ⟨b, bs, hf, hl⟩ := field
  rw [writeField_start hpl, writeField_start (s := late rs ws s) hpl, hf]
  obtain ⟨rest, hnext, hlen⟩ := place_issueField (s := s) (n := 3) hl
  exact driveField_resumes (s := s.issueField (b :: bs)) (fun _ _ => writeField_field) (by omega)
    hnext hlen hs

theorem execOf_writeOf_resumes (w : Width) (a : Word) (hpl : s.place = .start)
    (hs : Prompt s.chan) :
    Resumes (execOf (writeOf w a)) rs ws (execOf (writeOf w a) s)
      (execOf (writeOf w a) (late rs ws s)) := by
  by_cases hw : (writeOf w a).wellFormed = true
  · rw [show execOf (writeOf w a) = writeField (E := E) w a from
      funext (execOf_writeOf_of_wellFormed hw)]
    exact writeField_resumes w a hpl hs
  · rw [execOf_writeOf w a s, if_neg hw]
    exact resumes_finish _ _ _

theorem execRdvbi_resumes (hpl : s.place = .start) (hs : Prompt s.chan) :
    Resumes execRdvbi rs ws (execRdvbi s) (execRdvbi (late rs ws s)) := by
  rw [execRdvbi_start hpl, execRdvbi_start (s := late rs ws s) hpl]
  exact driveDecode_resumes (s := s.beginDecode) (fun _ => execRdvbi_digit) (by omega) rfl rfl hs

theorem execRdhdr_resumes (hpl : s.place = .start) (hs : Prompt s.chan) :
    Resumes execRdhdr rs ws (execRdhdr s) (execRdhdr (late rs ws s)) := by
  rw [execRdhdr_start hpl, execRdhdr_start (s := late rs ws s) hpl]
  exact resumes_awaitRead (s := s.issue (.read .u8) .control) hs (execRdhdr_control rfl)
    fun bs c hc => driveDecode_resumes (s := State.beginDecode (State.latchControl (bs.headD 0) _))
      (fun _ => execRdhdr_digit) (by omega) rfl rfl hc

/-- The first request of a VBI leaves a quotient of at most three digits (rules R84, R87). -/
theorem veX_beginEncode_lt (ha : a.toNat ≤ Config.vbiMax) (s : State E) :
    (s.beginEncode a).dp.veX.toNat < 128 ^ 3 := by
  refine veX_issueDigits_lt (s := { s with dp := { s.dp with veX := a } }) ?_
  rw [Config.vbiMax] at ha
  exact Nat.lt_of_le_of_lt ha (by decide)

theorem execWrvbi_resumes (hpl : s.place = .start) (hs : Prompt s.chan) :
    Resumes (execWrvbi a) rs ws (execWrvbi a s) (execWrvbi a (late rs ws s)) := by
  by_cases hd : inDomain (.wrvbi a) = true
  · rw [execWrvbi_start hd hpl, execWrvbi_start (s := late rs ws s) hd hpl]
    exact driveEncode_resumes (s := s.beginEncode a) (fun _ => execWrvbi_digit hd) (by omega)
      (veX_beginEncode_lt (of_decide_eq_true hd) s) rfl hs
  · rw [execWrvbi_beyondDomain hd]
    exact resumes_finish _ _ _

theorem execWrhdr_resumes (ty : Nibble) (b : Byte) (hpl : s.place = .start) (hs : Prompt s.chan) :
    Resumes (execWrhdr ty b a) rs ws (execWrhdr ty b a s) (execWrhdr ty b a (late rs ws s)) := by
  by_cases hd : inDomain (.wrhdr ty b a) = true
  · rw [execWrhdr_start hd hpl, execWrhdr_start (s := late rs ws s) hd hpl]
    exact resumes_awaitWrite (s := s.issue (.write [controlByte ty b]) .control) hs
      (execWrhdr_control hd rfl) fun c hc => driveEncode_resumes (s := State.beginEncode a _)
        (fun _ => execWrhdr_digit hd) (by omega) (veX_beginEncode_lt (of_decide_eq_true hd) _) rfl
        hc
  · rw [execWrhdr_beyondDomain hd]
    exact resumes_finish _ _ _

theorem execPtfrom_resumes (a : Word) (s : State E) (r' : Result E) :
    Resumes resume rs ws (execPtfrom a s) r' := by
  unfold execPtfrom
  split
  · exact resumes_finish .ok _ _
  · exact resumes_finish _ _ _

theorem execOf_resumes (i : Instr) (hpl : s.place = .start) (hs : Prompt s.chan) :
    Resumes (execOf i) rs ws (execOf i s) (execOf i (late rs ws s)) := by
  cases i with
  | rdu8 | rdu16 | rdu32 => exact readField_resumes _ hpl hs
  | rdvbi => exact execRdvbi_resumes hpl hs
  | rdhdr => exact execRdhdr_resumes hpl hs
  | ptfrom a => exact execPtfrom_resumes a s _
  | wru8 a => exact execOf_writeOf_resumes .u8 a hpl hs
  | wru16 a => exact execOf_writeOf_resumes .u16 a hpl hs
  | wru32 a => exact execOf_writeOf_resumes .u32 a hpl hs
  | wrvbi a => exact execWrvbi_resumes hpl hs
  | wrhdr ty b a => exact execWrhdr_resumes ty b hpl hs
  | ptto ty => exact resumes_finish .ok _ _

/-- Settles O51: `execOf_resumes`, the waiting state's own answers being used up. -/
theorem lateAnswersChangeNothing : Obligations.LateAnswersChangeNothing := by
  intro i s t rs ws hpl hread hwrite ht hp hreads hwrites
  rw [exec_eq_execOf] at ht ⊢
  have resumed := execOf_resumes (rs := rs) (ws := ws) i hpl ⟨hread, hwrite⟩ t ht hp hreads hwrites
  rw [late, hreads, hwrites, List.nil_append, List.nil_append] at resumed
  exact resumed

end Sys2Proof.LateAnswers
end

section
/-!
SUPPORT. The decoder and the encoder of command tuples against the table of rule R67: which words the
decoder takes, what it reads of the operands (rule R68), and that it reads back what was encoded
(rule R71).
-/
namespace Sys2Proof.CommandTuples

open Sys2Proof.Machine Sys2Proof.Handshake

/-! ### Encoded commands -/

/-- The decoder undoes the encoder, operands included. -/
theorem decode_encode (i : Instr) : decode (encode i) = .instr i := by
  cases i <;> simp [decode, encode, Instr.word, Opcode.withOperands]

/-- Settles O1: the number gives back the tuple (`ofBits_toBits`), and the tuple the command. -/
theorem encodedCommandsDecodeBack : Obligations.EncodedCommandsDecodeBack := by
  intro i
  rw [ofBits_toBits, decode_encode]

/-! ### Words -/

/-- The words of the table of rule R67, as the pseudocode of rule R69 lists them. -/
def tableWords : List Nat :=
  [0x01, 0x02, 0x03, 0x04, 0x05, 0x06, 0x09, 0x0A, 0x0B, 0x0C, 0x0D, 0x0E]

/-- A word selects no command exactly when it is not in the table (rule R70). -/
theorem decodeWord_eq_none_iff (w : Byte) : decodeWord w = none ↔ w.toNat ∉ tableWords := by
  refine ⟨not_mem_of_decodeWord_none w, fun hw => ?_⟩
  rcases h : decodeWord w with _ | o
  · rfl
  · rw [word_of_decodeWord h] at hw
    cases o <;> exact absurd (by decide) hw

theorem decode_eq_reserved_iff (c : Command) :
    decode c = .reserved c.w ↔ decodeWord c.w = none := by
  rcases h : decodeWord c.w with _ | o
  · simp [decode_of_reserved h]
  · simp [decode_of_decodeWord h]

theorem decodeTableWord_eq_none_iff {n : Nat} (hn : n < 256) :
    decodeTableWord 8 n = none ↔ n ∉ tableWords := by
  have hw : (tableCommand 8 n).w.toNat = n := by
    simp [tableCommand, Command.ofBits, Nat.mod_eq_of_lt hn]
  rw [← hw, ← decodeWord_eq_none_iff, hw, decodeTableWord]
  rcases h : decodeWord (tableCommand 8 n).w with _ | o
  · simp [decode_of_reserved h]
  · simp [decode_of_decodeWord h]

/-- The table leaves 244 of the 256 words: 4 of the first 16, and all from 16 on. -/
theorem length_filter_not_mem_tableWords :
    ((List.range 256).filter fun n => decide (n ∉ tableWords)).length = 244 := by
  have high : ∀ n ∈ (List.range 240).map (16 + ·), decide (n ∉ tableWords) = true := by
    intro n hn
    obtain ⟨k, -, rfl⟩ := List.mem_map.mp hn
    simp [tableWords]
    omega
  rw [show 256 = 16 + 240 from rfl, List.range_add, List.filter_append,
    List.filter_eq_self.mpr high, List.length_append, List.length_map, List.length_range]
  rfl

/-- Settles O2: both clauses are `decodeWord_eq_none_iff`, of a tuple and of the 256 words. -/
theorem wordsOutsideTheTableAreReserved : Obligations.WordsOutsideTheTableAreReserved := by
  refine ⟨fun c => (decode_eq_reserved_iff c).trans (decodeWord_eq_none_iff c.w), ?_⟩
  have same : ((List.range 256).filter fun n => decide (decodeTableWord 8 n = none))
      = (List.range 256).filter fun n => decide (n ∉ tableWords) :=
    List.filter_congr fun n hn =>
      decide_eq_decide.mpr (decodeTableWord_eq_none_iff (List.mem_range.mp hn))
  rw [same, length_filter_not_mem_tableWords]

/-- Settles O3, word by word. -/
theorem tableWordsDecode : Obligations.TableWordsDecode := by
  unfold Obligations.TableWordsDecode
  decide

/-! ### Operands -/

/-- Settles O4: one word selects one command, and that reads only the operands the two tuples agree
on. -/
theorem unusedOperandsAreIgnored : Obligations.UnusedOperandsAreIgnored := by
  intro c d hw ha hb ht
  rcases hc : decodeWord c.w with _ | o
  · rw [decode_of_reserved hc, decode_of_reserved (hw ▸ hc), hw]
  · rw [decode_of_decodeWord hc, decode_of_decodeWord (hw ▸ hc)]
    have word := word_of_decodeWord hc
    rw [word] at ha hb ht
    cases o with
    | rdu8 | rdu16 | rdu32 | rdvbi | rdhdr => rfl
    | ptfrom | wru8 | wru16 | wru32 | wrvbi => simp only [Opcode.withOperands, ha (by decide)]
    | wrhdr => simp only [Opcode.withOperands, ha (by decide), hb rfl, ht (by decide)]
    | ptto => simp only [Opcode.withOperands, ht (by decide)]

/-- Settles O6: of a tuple that decodes, legality is the width check (`legal_of_instr`), and no other
is legal (`legal_of_reserved`). -/
theorem legalityIsDecodingAndWidth : Obligations.LegalityIsDecodingAndWidth := by
  intro c
  rcases hd : decode c with i | w
  · simp [legal_of_instr hd]
  · simp [legal_of_reserved hd]

end Sys2Proof.CommandTuples
end

section
/-!
SUPPORT. Operands inside their types: packet types and their codes (rule R60), the bits a command masks
(rules R94, R95), and the end with IllegalCommand of an operand out of width or a reserved word
(rules R69, R105).
-/
namespace Sys2Proof.Operands

open Sys2Proof.Machine Sys2Proof.Safety Sys2Proof.ErrorValues Sys2Proof.CommandOutcomes
open Sys2Proof.Handshake

variable {E : Type} {a : Word} {n : Nat}

/-! ### Packet types -/

theorem ofCode_code (p : PacketType) : PacketType.ofCode p.code = p := by
  cases p <;> rfl

/-- Settles O7: the two directions of the map, and its table. -/
theorem packetTypesAndCodesMapOneToOne : Obligations.PacketTypesAndCodesMapOneToOne :=
  ⟨code_ofCode, ofCode_code, rfl, rfl, rfl, rfl, rfl, rfl, rfl, rfl, rfl, rfl, rfl, rfl, rfl, rfl,
    rfl, rfl⟩

/-! ### Masked bits -/

/-- WRHDR sees of its flags carrier only what the control byte holds (rule R94). -/
theorem execWrhdr_congr {t : Nibble} {b c : Byte} (h : controlByte t b = controlByte t c) (a : Word)
    (s : State E) : execWrhdr t b a s = execWrhdr t c a s := by
  rw [execWrhdr, execWrhdr, h]

/-- PTFROM of a byte reports its low nibble and touches no stream (rule R95). -/
theorem execPtfrom_of_fits (hf : fits 8 a = true) (s : State E) :
    execPtfrom a s = .next (ended s
      { s.rsp with valid := true, status := some 0, pt := some (a.extractLsb' 0 4) }) := by
  have low : (a.extractLsb' 0 8).extractLsb' 0 4 = a.extractLsb' 0 4 := by ext; simp
  rw [execPtfrom, if_pos hf, PacketType.fromBits, code_ofCode, low, complete_eq_ended]
  rfl

/-- Settles O5: WRHDR sees B through the control byte, PTFROM sees A through its low nibble. -/
theorem maskedOperandBitsAreIgnored : Obligations.MaskedOperandBitsAreIgnored := by
  refine ⟨fun t b c a s h => execWrhdr_congr (congrArg (t ++ ·) h) a s, fun a c s ha hc h => ?_⟩
  have meaning : ∀ x : Word, x.toNat < 256 → exec (.ptfrom x) s = .next (ended s
      { s.rsp with valid := true, status := some 0, pt := some (x.extractLsb' 0 4) }) :=
    fun x hx => execPtfrom_of_fits (decide_eq_true hx) s
  rw [meaning a ha, meaning c hc, h]

/-! ### Illegal commands -/

/-- IllegalCommand ends a command with code 3 and its mark, and nothing else (rules R105, R106). -/
theorem raise_illegalCommand_eq_ended (s : State E) :
    raise .illegalCommand s = .next (ended { s with marks := s.marks ++ [.illegalCommand] }
      { s.rsp with valid := true, status := some 3 }) := rfl

theorem fits_eq_false (h : 2 ^ n ≤ a.toNat) : fits n a = false :=
  decide_eq_false (Nat.not_lt.mpr h)

/-- A command out of width, from whatever place, ends with IllegalCommand (rules R68, R69). -/
theorem execOf_of_not_wellFormed {i : Instr} (h : i.wellFormed = false) (s : State E) :
    execOf i s = raise .illegalCommand s := by
  cases i with
  | ptfrom a | wru8 a | wru16 a => exact if_neg (Bool.eq_false_iff.mp h)
  | rdu8 | rdu16 | rdu32 | rdvbi | rdhdr | wru32 _ | wrvbi _ | wrhdr _ _ _ | ptto _ => cases h

/-- Settles O36: a command out of width raises IllegalCommand (`execOf_of_not_wellFormed`), and so does
the turn that accepts a reserved word (`runLatched_reserved`). -/
theorem illegalCommandsEndAtOnce : Obligations.IllegalCommandsEndAtOnce := by
  have illegal : ∀ (i : Instr) (s : State), i.wellFormed = false → exec i s = .next (ended
      { s with marks := s.marks ++ [.illegalCommand] }
      { s.rsp with valid := true, status := some 3 }) := fun i s h => by
    rw [exec_eq_execOf, execOf_of_not_wellFormed h, raise_illegalCommand_eq_ended]
  refine ⟨fun a s ha => ?_, fun a s ha => ?_, fun s rest c waiting w hm hu hp hid hd => ?_⟩
  · exact ⟨illegal (.wru8 a) s (fits_eq_false ha), illegal (.ptfrom a) s (fits_eq_false ha)⟩
  · exact illegal (.wru16 a) s (fits_eq_false ha)
  · rw [turn_of_unitMoves exec hm,
      unitTurn_accepts (s := { s with agenda := rest }) exec hu hp hid,
      runLatched_reserved exec rfl hd, raise_illegalCommand_eq_ended]
    rfl

end Sys2Proof.Operands
end

section
/-!
SUPPORT. RDVBI, WRVBI, RDHDR and WRHDR from their first line, when the channel answers every request
(rules R81, R84, R93, R94): what they read or write, and all that they change.
-/
namespace Sys2Proof.VbiCommands

open Sys2Proof.Machine Sys2Proof.Safety Sys2Proof.ErrorValues Sys2Proof.CommandOutcomes
open Sys2Proof.Places
open Sys2Proof.Config (vbiMax)

variable {E : Type} {s : State E} {es rest : List Byte} {a v : Word} {t : Nibble} {b c : Byte}

/-! ### Encodings -/

/-- A value of one digit is one byte, the value itself (rule R86). -/
theorem vbiEncoding_of_lt (h : v.toNat < 128) : vbiEncoding v = [v.setWidth 8] := by
  have byte : vbiByte v = v.setWidth 8 := by
    apply BitVec.eq_of_toNat_eq
    rw [vbiByte_last h, BitVec.toNat_setWidth]
    omega
  rw [vbiEncoding, Config.vbiMaxBytes, vbiChunk_succ, if_pos h, byte]

/-- What the unit makes of the value of an encoding is a canonical encoding of that value
(rules R84, R89). -/
theorem canonicalEncoding_reencode (h : IsVbi es) :
    CanonicalEncoding (vbiValue es) (vbiEncoding (BitVec.ofNat 32 (vbiValue es))) := by
  obtain ⟨hv, h4⟩ := (isVbi_iff es).mp h
  obtain ⟨value_eq, inRange⟩ := toNat_vbiValue hv h4
  have canonical := canonical_vbiEncoding (BitVec.ofNat 32 (vbiValue es)) (by rwa [value_eq])
  rwa [value_eq] at canonical

/-- A canonical encoding is the only one of its value (rules R58, R59). -/
theorem eq_of_canonicalEncoding {bs : List Byte} (h : IsVbi es) (hc : Canonical es)
    (hbs : CanonicalEncoding (vbiValue es) bs) : bs = es := by
  obtain ⟨hv, h4⟩ := (isVbi_iff es).mp h
  obtain ⟨hbv, -, value, length⟩ := hbs
  exact ((isVbi_iff bs).mp hbv).1.unique hv (length.trans (hv.length_eq hc h4).symm) value

/-- A zero last byte adds nothing to the value (rule R59). -/
theorem vbiValue_lt_of_getLast {n : Nat} (hv : VbiRun es) (h0 : es.getLast? = some 0)
    (hl : es.length = n + 1) : vbiValue es < 128 ^ n := by
  induction hv generalizing n with
  | last e h =>
    obtain rfl : e = 0 := by simpa using h0
    simp [vbiValue]
  | more e es h hv ih =>
    obtain ⟨m, hm⟩ := hv.exists_length
    obtain rfl : n = m + 1 := by simp at hl; omega
    obtain ⟨f, fs, rfl⟩ := List.exists_cons_of_ne_nil hv.ne_nil
    have := ih (by simpa using h0) hm
    rw [vbiValue, Nat.pow_succ]
    omega

/-- The canonical encoding of the value of one that is not canonical is shorter (rules R58, R59). -/
theorem length_lt_of_not_canonical {bs : List Byte} (h : IsVbi es) (hc : ¬ Canonical es)
    (hbs : CanonicalEncoding (vbiValue es) bs) : bs.length < es.length := by
  obtain ⟨hne, h0⟩ := not_or.mp hc
  obtain ⟨hbv, hbc, value, -⟩ := hbs
  have hv := ((isVbi_iff es).mp h).1
  have hb := ((isVbi_iff bs).mp hbv).1
  obtain ⟨n, hn⟩ := hv.exists_length
  obtain ⟨m, hm⟩ := hb.exists_length
  have upper := vbiValue_lt_of_getLast hv (not_not.mp h0) hn
  rcases hb.le_value hbc hm with rfl | lower
  · omega
  · rw [value] at lower
    have := (Nat.pow_lt_pow_iff_right (by decide : 1 < 128)).mp (lower.trans_lt upper)
    omega

/-- Settles O25: the unit re-encodes canonically (`canonicalEncoding_reencode`), and canonical bytes
are the only ones of their value, and the fewest. -/
theorem reencodingIsTheIdentityExactlyOnCanonicalBytes :
    Obligations.ReencodingIsTheIdentityExactlyOnCanonicalBytes := by
  intro es h
  have reencoded := canonicalEncoding_reencode h
  refine ⟨⟨fun same => ?_, fun hc => eq_of_canonicalEncoding h hc reencoded⟩,
    fun hc => length_lt_of_not_canonical h hc reencoded⟩
  obtain ⟨-, canonical, -, -⟩ := reencoded
  rwa [same] at canonical

/-! ### The decoder -/

/-- RDVBI over an encoding that the channel serves (rule R81). -/
theorem execRdvbi_serve {more : List (ReadVerdict E)} (h : IsVbi es) (hpl : s.place = .start)
    (hi : s.chan.input = es ++ rest)
    (hr : s.chan.reads = List.replicate es.length .serve ++ more) :
    execRdvbi s = .next (ended
      { s with
        dp := { s.dp with
          vdValue := BitVec.ofNat 32 (vbiValue es)
          vdMult := BitVec.ofNat 32 (128 ^ (es.length - 1)) }
        chan := { s.chan with input := rest, reads := more } }
      { s.rsp with
        valid := true, status := some 0, value := some (BitVec.ofNat 32 (vbiValue es)) }) := by
  obtain ⟨hv, h4⟩ := (isVbi_iff es).mp h
  rw [execRdvbi_start hpl,
    driveDecode_serve (s := s.beginDecode) reportValue hv h4 (by decide) rfl rfl rfl hi hr,
    complete_eq_ended]
  simp [reportValue, State.setValue, ended]

/-- Settles O20. -/
theorem rdvbiReturnsTheValueOfEveryEncoding : Obligations.RdvbiReturnsTheValueOfEveryEncoding :=
  fun _ _ _ _ => execRdvbi_serve

/-- The two nibbles that RDHDR latches of the control byte (rules R61, R93). -/
theorem latchControl_eq (c : Byte) (s : State E) : s.latchControl c = { s with
    dp := { s.dp with hdrPt := c.extractLsb' 4 4, hdrFlags := c.extractLsb' 0 4 } } := by
  have high : (c >>> 4).extractLsb' 0 4 = c.extractLsb' 4 4 := by ext; simp
  rw [State.latchControl, PacketType.fromBits, code_ofCode, high]
  rfl

/-- RDHDR over a control byte and an encoding that the channel serves (rule R93). -/
theorem execRdhdr_serve {more : List (ReadVerdict E)} (h : IsVbi es) (hpl : s.place = .start)
    (hi : s.chan.input = c :: es ++ rest)
    (hr : s.chan.reads = List.replicate (es.length + 1) .serve ++ more) :
    execRdhdr s = .next (ended
      { s with
        dp := { s.dp with
          vdValue := BitVec.ofNat 32 (vbiValue es)
          vdMult := BitVec.ofNat 32 (128 ^ (es.length - 1))
          hdrPt := c.extractLsb' 4 4, hdrFlags := c.extractLsb' 0 4 }
        chan := { s.chan with input := rest, reads := more } }
      { s.rsp with
        valid := true, status := some 0, pt := some (c.extractLsb' 4 4)
        flags := some (c.extractLsb' 0 4), len := some (BitVec.ofNat 32 (vbiValue es)) }) := by
  obtain ⟨hv, h4⟩ := (isVbi_iff es).mp h
  rw [execRdhdr_start hpl, awaitControl,
    awaitRead_serve (s := s.issue (.read .u8) .control) (bs := [c]) (rest := es ++ rest)
      (more := List.replicate es.length .serve ++ more) _ rfl
      (by simpa [List.replicate_succ] using hr) hi rfl, List.headD_cons,
    latchControl_eq, Config.vbiMaxBytes,
    driveDecode_serve (s := State.beginDecode _) reportHeader hv h4 (by decide) rfl rfl rfl rfl rfl,
    complete_eq_ended]
  simp [reportHeader, State.setHeader, ended]

/-! ### The encoder -/

/-- WRVBI whose requests the channel accepts, under every chunking (rule R84). -/
theorem execWrvbi_accept {more : List (WriteVerdict E)} (hv : v.toNat ≤ vbiMax)
    (hpl : s.place = .start) (hw : s.chan.writes = List.replicate 4 .accept ++ more) :
    ∃ k ch, k ≤ 3 ∧ execWrvbi v s = .next (ended
      { s with
        dp := { s.dp with veX := 0 }, chunks := ch
        chan := { s.chan with
          output := s.chan.output ++ vbiEncoding v
          writes := List.replicate k .accept ++ more } }
      { s.rsp with valid := true, status := some 0 }) := by
  rw [execWrvbi_start (decide_eq_true hv) hpl]
  exact beginEncode_accept s v hv hw

/-- WRVBI whose requests the channel accepts, under the reference chunking (rules R45, R84). -/
theorem execWrvbi_reference {more : List (WriteVerdict E)} (hv : v.toNat ≤ vbiMax)
    (hpl : s.place = .start) (hc : s.chunks = [])
    (hw : s.chan.writes = List.replicate (vbiEncoding v).length .accept ++ more) :
    execWrvbi v s = .next (ended
      { s with
        dp := { s.dp with veX := 0 }
        chan := { s.chan with output := s.chan.output ++ vbiEncoding v, writes := more } }
      { s.rsp with valid := true, status := some 0 }) := by
  rw [execWrvbi_start (decide_eq_true hv) hpl]
  exact beginEncode_reference s v hv hc hw

/-- Settles O23: the bytes are `vbiEncoding v`. -/
theorem wrvbiWritesTheCanonicalEncoding : Obligations.WrvbiWritesTheCanonicalEncoding := by
  intro v hv
  refine ⟨vbiEncoding v, canonical_vbiEncoding v hv,
    fun h => vbiEncoding_of_lt (Nat.lt_succ_of_le h), fun s more hpl =>
      ⟨fun hw => ?_, execWrvbi_reference hv hpl⟩⟩
  obtain ⟨k, ch, -, run⟩ := execWrvbi_accept hv hpl hw
  exact ⟨_, run, rfl, rfl, rfl⟩

/-- WRHDR between its control byte, which the channel has accepted, and its length phase. -/
def controlSent (t : Nibble) (b : Byte) (more : List (WriteVerdict E)) (s : State E) : State E :=
  (s.issue (.write [controlByte t b]) .control).answered
    { s.chan with output := s.chan.output ++ [controlByte t b], writes := more }

theorem execWrhdr_controlSent {more : List (WriteVerdict E)} (ha : a.toNat ≤ vbiMax)
    (hpl : s.place = .start) (hw : s.chan.writes = .accept :: more) :
    execWrhdr t b a s = driveEncode 4 ((controlSent t b more s).beginEncode a) := by
  rw [execWrhdr_start (decide_eq_true ha) hpl, awaitControlSent,
    awaitWrite_accept (s := s.issue (.write [controlByte t b]) .control) _ rfl hw]
  rfl

/-- WRHDR whose requests the channel accepts, under every chunking (rule R94). -/
theorem execWrhdr_accept {more : List (WriteVerdict E)} (ha : a.toNat ≤ vbiMax)
    (hpl : s.place = .start) (hw : s.chan.writes = List.replicate 5 .accept ++ more) :
    ∃ k ch, k ≤ 3 ∧ execWrhdr t b a s = .next (ended
      { s with
        dp := { s.dp with veX := 0 }, chunks := ch
        chan := { s.chan with
          output := s.chan.output ++ controlByte t b :: vbiEncoding a
          writes := List.replicate k .accept ++ more } }
      { s.rsp with valid := true, status := some 0 }) := by
  obtain ⟨k, ch, hk, run⟩ := beginEncode_accept
    (controlSent t b (List.replicate 4 .accept ++ more) s) a ha rfl
  refine ⟨k, ch, hk, ?_⟩
  refine (execWrhdr_controlSent ha hpl hw).trans (run.trans ?_)
  simp [controlSent, ended]

/-- WRHDR whose requests the channel accepts, under the reference chunking (rules R45, R94). -/
theorem execWrhdr_reference {more : List (WriteVerdict E)} (ha : a.toNat ≤ vbiMax)
    (hpl : s.place = .start) (hc : s.chunks = [])
    (hw : s.chan.writes = List.replicate ((vbiEncoding a).length + 1) .accept ++ more) :
    execWrhdr t b a s = .next (ended
      { s with
        dp := { s.dp with veX := 0 }
        chan := { s.chan with
          output := s.chan.output ++ controlByte t b :: vbiEncoding a, writes := more } }
      { s.rsp with valid := true, status := some 0 }) := by
  have run := beginEncode_reference
    (controlSent t b (List.replicate (vbiEncoding a).length .accept ++ more) s) a ha hc rfl
  refine (execWrhdr_controlSent ha hpl hw).trans (run.trans ?_)
  simp [controlSent, ended]

/-- Settles O29: the control byte, and then the bytes of `canonical_vbiEncoding`. -/
theorem wrhdrWritesTheHeader : Obligations.WrhdrWritesTheHeader :=
  fun _ _ a ha => ⟨vbiEncoding a, canonical_vbiEncoding a ha,
    fun _ _ hpl hc hw => execWrhdr_reference ha hpl hc hw⟩

/-! ### Reading a header and writing it again -/

/-- The control byte of the nibbles of `c`, the flags zero-extended, is `c` (rules R61, R98). -/
theorem controlByte_nibbles (c : Byte) :
    controlByte (c.extractLsb' 4 4) ((c.extractLsb' 0 4).setWidth 8) = c := by
  revert c
  decide

/-- Settles O30: RDHDR reports the nibbles and the length's value (`execRdhdr_serve`), and WRHDR of
those writes the control byte they make up and the canonical encoding of that value. -/
theorem headerRoundTrip : Obligations.HeaderRoundTrip := by
  intro c es rest s w more moreW h hpl hi hr hplw hw
  have reencoded := canonicalEncoding_reencode h
  obtain ⟨hv, h4⟩ := (isVbi_iff es).mp h
  obtain ⟨value, inRange⟩ := toNat_vbiValue hv h4
  obtain ⟨k, ch, -, run⟩ := execWrhdr_accept (t := c.extractLsb' 4 4)
    (b := (c.extractLsb' 0 4).setWidth 8) (a := BitVec.ofNat 32 (vbiValue es))
    (by rwa [value]) hplw hw
  rw [controlByte_nibbles] at run
  exact ⟨_, _, execRdhdr_serve h hpl hi hr, rfl, rfl, rfl, _, _, run, rfl, rfl, rfl, reencoded,
    fun hc => eq_of_canonicalEncoding h hc reencoded⟩

end Sys2Proof.VbiCommands
end

section
/-!
SUPPORT. The fixed-width commands from their first line, when the channel answers them (rules R73 to
R78): what a read returns, what a write puts on the output stream, and all that they change.
-/
namespace Sys2Proof.FixedWidthCommands

open Sys2Proof.Machine Sys2Proof.Safety Sys2Proof.ErrorValues Sys2Proof.CommandOutcomes
open Sys2Proof.Places

variable {E : Type} {s t : State E} {w : Width} {a v : Word} {rest : List Byte}

/-! ### Reads -/

theorem execOf_readOf (w : Width) (s : State E) : execOf (readOf w) s = readField w s := by
  cases w <;> rfl

/-- Settles O17: a served read (`readField_serve`) returns the big-endian value of its bytes. -/
theorem fixedWidthReadsGiveBigEndianValues : Obligations.FixedWidthReadsGiveBigEndianValues := by
  intro s rest more hpl hr
  rw [exec_eq_execOf]
  refine ⟨fun b0 hi => ?_, fun b0 b1 hi => ?_, fun b0 b1 b2 b3 hi => ?_⟩
  · rw [← fieldValue_one]
    exact readField_serve (w := .u8) hpl hr hi rfl
  · rw [← fieldValue_two]
    exact readField_serve (w := .u16) hpl hr hi rfl
  · rw [← fieldValue_four]
    exact readField_serve (w := .u32) hpl hr hi rfl

/-! ### Writes -/

/-- Under the reference chunking one request carries the whole field (rule R45), and its acceptance
ends the command. -/
theorem writeField_reference {more : List (WriteVerdict E)} (hpl : s.place = .start)
    (hc : s.chunks = []) (hw : s.chan.writes = .accept :: more) :
    writeField w a s = .next (ended
      { s with chan := { s.chan with
          output := s.chan.output ++ fieldBytes w a, writes := more } }
      { s.rsp with valid := true, status := some 0 }) := by
  have whole : s.chunkSize (fieldBytes w a).length = (fieldBytes w a).length := by
    rw [State.chunkSize, hc]
  have hp : (s.issueField (fieldBytes w a)).pend = some (.write (fieldBytes w a)) := by
    rw [issueField_pend, whole, List.take_length]
  rw [writeField_start hpl, driveField, awaitWrite_accept _ hp hw]
  simp [whole, complete_eq_ended, ended, hc]

theorem wellFormed_writeOf : (writeOf w v).wellFormed = true ↔ v.toNat < 2 ^ (8 * w.bytes) := by
  cases w with
  | u8 | u16 => exact decide_eq_true_iff
  | u32 => exact iff_of_true rfl v.isLt

theorem execOf_writeOf_reference {more : List (WriteVerdict E)} (hv : v.toNat < 2 ^ (8 * w.bytes))
    (hpl : s.place = .start) (hc : s.chunks = []) (hw : s.chan.writes = .accept :: more) :
    execOf (writeOf w v) s = .next (ended
      { s with chan := { s.chan with
          output := s.chan.output ++ fieldBytes w v, writes := more } }
      { s.rsp with valid := true, status := some 0 }) := by
  rw [execOf_writeOf_of_wellFormed (wellFormed_writeOf.mpr hv), writeField_reference hpl hc hw]

/-- Settles O18: `execOf_writeOf_reference` at the three widths. -/
theorem fixedWidthWritesPutBigEndianBytes : Obligations.FixedWidthWritesPutBigEndianBytes := by
  intro s more a hpl hc hw
  rw [exec_eq_execOf]
  exact ⟨fun ha => execOf_writeOf_reference (w := .u8) ha hpl hc hw,
    fun ha => execOf_writeOf_reference (w := .u16) ha hpl hc hw,
    execOf_writeOf_reference (w := .u32) a.isLt hpl hc hw⟩

/-! ### Writing a field and reading it again -/

theorem length_fieldBytes (w : Width) (v : Word) : (fieldBytes w v).length = w.bytes := by
  cases w <;> rfl

/-- The requests of a field that have ended with OK have put all the bytes that were still to come
on the output stream: before the last answer the unit is BUSY, and a failure ends with status 2. -/
theorem output_of_driveField_ok {n : Nat} {now : List Byte} (hu : s.ust = .busy)
    (hp : s.pend = some (.write now)) (hpl : s.place = .field rest) (hn : now ≠ [])
    (h : driveField n s = .next t) (ht : t.ust = .idle) (hok : t.rsp.status = some 0) :
    t.chan.output = s.chan.output ++ (now ++ rest) := by
  obtain ⟨sent, now', rest', ch, writes, -, -, split, hcase⟩ := driveField_cases n s hp hpl hn
  rcases hcase _ rfl with waits | ⟨rfl, completes⟩ | ⟨e, k, fails⟩
  · obtain rfl := Host.Outcome.next.inj (h.symm.trans waits)
    exact absurd (hu.symm.trans ht) (by decide)
  · obtain rfl := Host.Outcome.next.inj (h.symm.trans completes)
    rw [← split]
    simp
  · obtain rfl := Host.Outcome.next.inj (h.symm.trans fails)
    exact absurd hok (by simp [Ending.code])

theorem output_of_writeField_ok (hu : s.ust = .busy) (hpl : s.place = .start)
    (h : writeField w a s = .next t) (ht : t.ust = .idle) (hok : t.rsp.status = some 0) :
    t.chan.output = s.chan.output ++ fieldBytes w a := by
  have bytes : 0 < (fieldBytes w a).length := length_fieldBytes w a ▸ w.bytes_pos
  obtain ⟨c, hc⟩ := chunkSize_pos s bytes
  have first : (fieldBytes w a).take (s.chunkSize (fieldBytes w a).length) ≠ [] := by
    rw [← List.length_pos_iff, List.length_take, hc]
    omega
  rw [writeField_start hpl] at h
  have output :=
    output_of_driveField_ok (s := s.issueField (fieldBytes w a)) hu rfl rfl first h ht hok
  rwa [List.take_append_drop] at output

/-- Settles O19: the write put `fieldBytes w v` (`output_of_writeField_ok`), and the value of those
bytes is `v` again (`fieldValue_fieldBytes`). -/
theorem fixedWidthRoundTrip : Obligations.FixedWidthRoundTrip := by
  intro w v s t r bs rest more hv hu hpl h ht hok ho hplr hi hr
  rw [exec_eq_execOf] at h ⊢
  rw [execOf_writeOf_of_wellFormed (wellFormed_writeOf.mpr hv)] at h
  obtain rfl : bs = fieldBytes w v :=
    List.append_cancel_left (ho.symm.trans (output_of_writeField_ok hu hpl h ht hok))
  have hl := length_fieldBytes w v
  have read := readField_serve hplr hr hi hl
  rw [fieldValue_fieldBytes w v hv, ← execOf_readOf] at read
  exact ⟨rfl, hl, _, read, rfl, rfl, rfl, rfl⟩

end Sys2Proof.FixedWidthCommands
end

section
/-!
SUPPORT. RDVBI, WRVBI, RDHDR and WRHDR beyond the full success of `VbiCommands`: what a WRVBI has
written that is known only to have ended with OK, read again (rule R88); bytes that go on asking for
another (rules R82, R90, R93); an operand above the encoder's domain (rule R85).
-/
namespace Sys2Proof.VbiEnds

open Sys2Proof.Machine Sys2Proof.Safety Sys2Proof.Places
open Sys2Proof.Leftovers Sys2Proof.LateAnswers Sys2Proof.VbiCommands
open Sys2Proof.Config (vbiMax)

variable {E : Type} {s t : State E} {es rest : List Byte} {c : Byte} {v : Word}
  {reads later : List (ReadVerdict E)}

/-! ### Writing a VBI and reading it again -/

/-- The requests of a VBI that have ended with OK have put all the bytes that were still to come on
the output stream: before the last answer the unit is BUSY, and a failure ends with status 2. -/
theorem output_of_driveEncode_ok {n : Nat} {now : List Byte} (hu : s.ust = .busy)
    (hp : s.pend = some (.write now)) (hpl : s.place = .digit) (hn : now ≠ [])
    (hx : s.dp.veX.toNat ≤ vbiMax) (h : driveEncode n s = .next t) (ht : t.ust = .idle)
    (hok : t.rsp.status = some 0) :
    t.chan.output = s.chan.output ++ (now ++ vbiRest s.dp.veX) := by
  obtain ⟨sent, now', x, ch, writes, -, -, -, split, hcase⟩ := driveEncode_cases n s hp hpl hn hx
  rcases hcase _ rfl with waits | ⟨rfl, completes⟩ | ⟨e, k, fails⟩
  · obtain rfl := Host.Outcome.next.inj (h.symm.trans waits)
    exact absurd (hu.symm.trans ht) (by decide)
  · obtain rfl := Host.Outcome.next.inj (h.symm.trans completes)
    rw [← split]
    simp [vbiRest]
  · obtain rfl := Host.Outcome.next.inj (h.symm.trans fails)
    exact absurd hok (by simp [Ending.code])

theorem output_of_execWrvbi_ok (hv : v.toNat ≤ vbiMax) (hu : s.ust = .busy) (hpl : s.place = .start)
    (h : execWrvbi v s = .next t) (ht : t.ust = .idle) (hok : t.rsp.status = some 0) :
    t.chan.output = s.chan.output ++ vbiEncoding v := by
  obtain ⟨n, hn⟩ := chunkSize_pos { s with dp := { s.dp with veX := v } } (r := 1) (by decide)
  rw [execWrvbi_start (decide_eq_true hv) hpl] at h
  have output := output_of_driveEncode_ok (s := s.beginEncode v) (now := (vbiChunk (n + 1) v).1) hu
    (by rw [State.beginEncode, issueDigits_pend, hn]) rfl (vbiChunk_ne_nil n v)
    ((vbiChunk_le _ v).trans hv) h ht hok
  rwa [State.beginEncode, issueDigits_dp, hn, vbiEncoding_split n v hv] at output

/-- Settles O24: the write put `vbiEncoding v` (`output_of_execWrvbi_ok`), a canonical encoding of
`v`, of which RDVBI returns the value (`execRdvbi_serve`). -/
theorem vbiRoundTrip : Obligations.VbiRoundTrip := by
  intro v s t r bs rest more hv hu hpl h ht hok ho hplr hi hr
  obtain rfl : bs = vbiEncoding v :=
    List.append_cancel_left (ho.symm.trans (output_of_execWrvbi_ok hv hu hpl h ht hok))
  obtain ⟨encoding, -, value, -⟩ := canonical_vbiEncoding v hv
  have read := execRdvbi_serve encoding hplr hi hr
  rw [value, BitVec.ofNat_toNat, BitVec.setWidth_eq] at read
  obtain ⟨atLeastOne, atMostFour, -, -⟩ := encoding
  exact ⟨atLeastOne, atMostFour, _, read, rfl, rfl, rfl, rfl, rfl, rfl⟩

/-! ### Bytes that ask for another -/

/-- The channel serves the bytes `es`, each of which asks for another, to a decoder that may read
`n` of them, until it has read all `n` or the stream ends first (rules R82, R90): of the answers,
`later` are left. -/
inductive Unfinished : Nat → List Byte → List (ReadVerdict E) → List (ReadVerdict E) → Prop where
  | full (e : Byte) (later : List (ReadVerdict E)) :
      continues e = true → Unfinished 1 [e] (.serve :: later) later
  | cut (n k : Nat) (later : List (ReadVerdict E)) : Unfinished (n + 1) [] (.eof k :: later) later
  | more {n : Nat} (e : Byte) {es : List Byte} {reads later : List (ReadVerdict E)} :
      continues e = true → Unfinished (n + 1) es reads later →
        Unfinished (n + 2) (e :: es) (.serve :: reads) later

/-- `s` with its command ended by MalformedPacket, the input stream and the datapath registers left
anyhow, and the answers `later` unused. -/
def malformed (d : Datapath) (input : List Byte) (later : List (ReadVerdict E)) (s : State E) :
    State E :=
  ended { s with dp := d, chan := { s.chan with input := input, reads := later } }
    { s.rsp with valid := true, status := some 1 }

theorem multBefore_ne_topMult {n : Nat} (hn : n < 3) : multBefore (n + 2) ≠ Config.topMult := by
  obtain rfl | rfl | rfl : n = 0 ∨ n = 1 ∨ n = 2 := by omega
  all_goals decide

/-- MalformedPacket ends a command with code 1, and nothing else (rules R104, R105). -/
theorem raise_malformed_eq_ended (s : State E) :
    raise .malformed s = .next (ended s { s.rsp with valid := true, status := some 1 }) :=
  congrArg Host.Outcome.next (finish_malformed_eq_ended s)

theorem afterByte_top (report : State E → State E) (n : Nat) {bs : List Byte}
    (hc : ¬ continues (bs.headD 0) = false) (ht : s.dp.vdMult = Config.topMult) :
    afterByte report n bs s = raise .malformed (s.accumulate (bs.headD 0)) :=
  (if_neg hc).trans (if_pos ht)

/-- The decoder ends with MalformedPacket at the byte it may not go beyond (rule R82) and at the end
of the stream (rule R90). -/
theorem driveDecode_unfinished (report : State E → State E) {n : Nat}
    (h : Unfinished n es reads later) (h4 : n ≤ 4) (hm : s.dp.vdMult = multBefore n)
    (hp : s.pend = some (.read .u8)) (hi : s.chan.input = es ++ rest) (hr : s.chan.reads = reads) :
    ∃ d input, driveDecode report n s = .next (malformed d input later s) := by
  induction h generalizing s with
  | full e later he =>
    rw [driveDecode_succ, awaitRead_serve (bs := [e]) _ hp hr hi rfl]
    have top : (s.answered { s.chan with input := rest, reads := later }).dp.vdMult
        = Config.topMult := hm
    rw [afterByte_top report _ (by simp [he]) top, raise_malformed_eq_ended]
    exact ⟨_, _, rfl⟩
  | cut n k later =>
    rw [driveDecode_succ, awaitRead_eof _ hp hr, raise_malformed_eq_ended]
    exact ⟨_, _, rfl⟩
  | @more n e es reads later he hes ih =>
    let served := s.answered { s.chan with input := es ++ rest, reads := reads }
    have notTop : ¬ served.dp.vdMult = Config.topMult := hm ▸ multBefore_ne_topMult (by omega)
    obtain ⟨d, input, run⟩ := ih (s := (served.accumulate e).scale.issue (.read .u8) .digit)
      (by omega) (multBefore_succ (by omega) hm) rfl rfl rfl
    rw [driveDecode_succ, awaitRead_serve (bs := [e]) _ hp hr hi rfl]
    exact ⟨d, input, (afterByte_more report _ (by simp [he]) notTop).trans run⟩

theorem execRdvbi_unfinished (h : Unfinished 4 es reads later) (hpl : s.place = .start)
    (hi : s.chan.input = es ++ rest) (hr : s.chan.reads = reads) :
    ∃ d input, execRdvbi s = .next (malformed d input later s) := by
  rw [execRdvbi_start hpl]
  exact driveDecode_unfinished (s := s.beginDecode) reportValue h le_rfl rfl rfl hi hr

theorem execRdhdr_unfinished (h : Unfinished 4 es reads later) (hpl : s.place = .start)
    (hi : s.chan.input = c :: es ++ rest) (hr : s.chan.reads = .serve :: reads) :
    ∃ d input, execRdhdr s = .next (malformed d input later s) := by
  rw [execRdhdr_start hpl, awaitControl,
    awaitRead_serve (s := s.issue (.read .u8) .control) (bs := [c]) _ rfl hr hi rfl]
  exact driveDecode_unfinished (s := State.beginDecode _) reportHeader h le_rfl rfl rfl rfl rfl

/-- Four bytes that ask for another. -/
theorem unfinished_four {e0 e1 e2 e3 : Byte} (h0 : continues e0 = true) (h1 : continues e1 = true)
    (h2 : continues e2 = true) (h3 : continues e3 = true) (later : List (ReadVerdict E)) :
    Unfinished 4 [e0, e1, e2, e3] (List.replicate 4 .serve ++ later) later :=
  .more e0 h0 (.more e1 h1 (.more e2 h2 (.full e3 later h3)))

/-- At most `n + 1` bytes that all ask for another, and then the stream's end, whose answer is used
unless the bytes are `n + 1`. -/
theorem unfinished_truncated {n : Nat} (k : Nat) (later : List (ReadVerdict E))
    (hl : es.length ≤ n + 1) (hc : ∀ e ∈ es, continues e = true) :
    ∃ unused,
      Unfinished (n + 1) es (List.replicate es.length .serve ++ .eof k :: later) unused := by
  induction es generalizing n with
  | nil => exact ⟨later, .cut n k later⟩
  | cons e es ih =>
    obtain ⟨he, hes⟩ := List.forall_mem_cons.mp hc
    cases n with
    | zero =>
      obtain rfl : es = [] := List.length_eq_zero_iff.mp (by simpa using hl)
      exact ⟨_, .full e _ he⟩
    | succ n =>
      obtain ⟨unused, h⟩ := ih (Nat.le_of_succ_le_succ hl) hes
      exact ⟨unused, .more e he h⟩

/-- Settles O21: `execRdvbi_unfinished` of four bytes, each of which takes its read. -/
theorem rdvbiStopsAfterFourContinuedBytes : Obligations.RdvbiStopsAfterFourContinuedBytes := by
  intro s e0 e1 e2 e3 rest more h0 h1 h2 h3 hpl hi hr
  obtain ⟨d, input, run⟩ := execRdvbi_unfinished (unfinished_four h0 h1 h2 h3 more) hpl hi hr
  exact ⟨_, run, rfl, rfl, rfl, rfl, rfl, rfl⟩

/-- Settles O22: `unfinished_truncated`, at whichever of the fourth byte and the end comes first. -/
theorem rdvbiFailsOnTruncatedEncodings : Obligations.RdvbiFailsOnTruncatedEncodings := by
  intro s p k more hl hc hpl hi hr
  obtain ⟨unused, h⟩ := unfinished_truncated (n := 3) k more hl hc
  obtain ⟨d, input, run⟩ :=
    execRdvbi_unfinished (rest := []) h hpl (hi.trans (List.append_nil p).symm) hr
  exact ⟨_, run, rfl, rfl, rfl⟩

/-- Settles O55: `execRdhdr_unfinished`, the control byte taking the first of the five reads. -/
theorem rdhdrStopsAfterFourContinuedLengthBytes :
    Obligations.RdhdrStopsAfterFourContinuedLengthBytes := by
  intro s c e0 e1 e2 e3 rest more h0 h1 h2 h3 hpl hi hr
  obtain ⟨d, input, run⟩ := execRdhdr_unfinished (unfinished_four h0 h1 h2 h3 more) hpl hi hr
  exact ⟨_, run, rfl, rfl, rfl, rfl, rfl, rfl⟩

/-! ### Operands above the domain -/

/-- EncDomain ends a command with code 4 and its mark, and nothing else (rules R105, R107). -/
theorem raise_encDomain_eq_ended (s : State E) :
    raise .encDomain s = .next (ended { s with marks := s.marks ++ [.encDomain] }
      { s.rsp with valid := true, status := some 4 }) := rfl

/-- Settles O35: both commands check their operand before anything else. -/
theorem encodersEndAboveTheDomain : Obligations.EncodersEndAboveTheDomain := by
  intro a t b s ha
  have outside : ¬ decide (a.toNat ≤ vbiMax) = true := by simpa using ha
  rw [← raise_encDomain_eq_ended]
  exact ⟨execWrvbi_beyondDomain outside s, execWrhdr_beyondDomain outside s⟩

end Sys2Proof.VbiEnds
end

section
/-!
SUPPORT. The header framer and the packet-type conversions: RDHDR writes result registers only
when it ends with OK (rules R22, R100), and PTFROM and PTTO are inverse (rules R95 to R97).
-/
namespace Sys2Proof.HeaderCommands

open Sys2Proof.Machine Sys2Proof.Safety Sys2Proof.CommandOutcomes
open Sys2Proof.Places Sys2Proof.Operands Sys2Proof.VbiCommands

variable {E : Type} {s t : State E} {q : Response E}

/-! ### RDHDR -/

/-- Settles O27: `execRdhdr_serve`. -/
theorem rdhdrReturnsEveryHeader : Obligations.RdhdrReturnsEveryHeader :=
  fun _ _ _ _ _ => execRdhdr_serve

/-- The result registers that a command writes, all but `RSP_ERR` (rule R24). -/
def results (r : Response E) : Option Word × Option Nibble × Option Nibble × Option Word :=
  (r.value, r.pt, r.flags, r.len)

/-- A run that answers a next state has ended with OK or left the result registers as in `q`. -/
def ReportsOnlyWithOk (q : Response E) (r : Result E) : Prop :=
  ∀ t, r = .next t → t.rsp.status = some 0 ∨ results t.rsp = results q

theorem reportsOnlyWithOk_fault (f : Fault) :
    ReportsOnlyWithOk q (.fault f : Result E) := by
  rintro t ⟨⟩

theorem reportsOnlyWithOk_complete (u : State E) : ReportsOnlyWithOk q (.next u.complete) := by
  rintro t ⟨⟩
  exact .inl rfl

theorem reportsOnlyWithOk_of_results_eq (h : results t.rsp = results q) :
    ReportsOnlyWithOk q (.next t) := by
  rintro u ⟨⟩
  exact .inr h

/-- A wait writes no result register, and neither does either of its errors (rules R37, R105). -/
theorem awaitRead_reportsOnlyWithOk {k : List Byte → State E → Result E}
    (hk : ∀ bs c, ReportsOnlyWithOk s.rsp (k bs (s.answered c))) :
    ReportsOnlyWithOk s.rsp (awaitRead s k) := by
  rcases awaitRead_cases s k with ⟨e, -⟩ | ⟨w, -, ⟨r, -, e⟩ | ⟨bs, rest, r, -, -, -, e⟩ |
      ⟨n, r, -, e⟩ | ⟨x, n, r, -, e⟩⟩ <;> rw [e]
  · exact reportsOnlyWithOk_fault _
  · exact reportsOnlyWithOk_of_results_eq rfl
  · exact hk bs _
  · exact reportsOnlyWithOk_of_results_eq rfl
  · exact reportsOnlyWithOk_of_results_eq rfl

/-- The decoder's loop reports only after the last byte (rules R81, R82). -/
theorem driveDecode_reportsOnlyWithOk (report : State E → State E) (n : Nat) (s : State E) :
    ReportsOnlyWithOk s.rsp (driveDecode report n s) := by
  induction n generalizing s with
  | zero => exact reportsOnlyWithOk_of_results_eq rfl
  | succ n ih =>
    refine awaitRead_reportsOnlyWithOk fun bs c => ?_
    dsimp only
    split
    · exact reportsOnlyWithOk_complete _
    · split
      · exact reportsOnlyWithOk_of_results_eq rfl
      · exact ih (((s.answered c).accumulate (bs.headD 0)).scale.issue (.read .u8) .digit)

/-- The control byte goes to the datapath registers alone (rules R22, R93). -/
theorem awaitControl_reportsOnlyWithOk (s : State E) :
    ReportsOnlyWithOk s.rsp (awaitControl s) :=
  awaitRead_reportsOnlyWithOk fun bs c => driveDecode_reportsOnlyWithOk reportHeader _
    ((s.answered c).latchControl (bs.headD 0)).beginDecode

theorem execRdhdr_reportsOnlyWithOk (s : State E) : ReportsOnlyWithOk s.rsp (execRdhdr s) := by
  cases hpl : s.place with
  | start =>
    rw [execRdhdr_start hpl]
    exact awaitControl_reportsOnlyWithOk (s.issue (.read .u8) .control)
  | field rest =>
    simp only [execRdhdr, hpl]
    exact reportsOnlyWithOk_fault _
  | control =>
    rw [execRdhdr_control hpl]
    exact awaitControl_reportsOnlyWithOk s
  | digit =>
    rw [execRdhdr_digit hpl]
    exact driveDecode_reportsOnlyWithOk reportHeader 4 s

/-- Settles O28: without OK the result registers are as they were (`execRdhdr_reportsOnlyWithOk`),
and they were unwritten. -/
theorem failedRdhdrReportsNoHeader : Obligations.FailedRdhdrReportsNoHeader := by
  intro s t _ hc h hs _
  obtain ⟨value, pt, flags, len, -⟩ := hc
  have kept := (execRdhdr_reportsOnlyWithOk s t h).resolve_left hs
  simpa [results, value, pt, flags, len] using kept

/-! ### Packet types -/

/-- PTTO reports its code, zero-extended, and touches no stream (rule R96). -/
theorem execPtto_eq_ended (ty : Nibble) (s : State E) : execPtto ty s = .next (ended s
    { s.rsp with valid := true, status := some 0, value := some (ty.setWidth 32) }) := by
  have wide : (ty.setWidth 8).setWidth 32 = ty.setWidth 32 := by ext; simp
  rw [execPtto, PacketType.toBits, code_ofCode, wide, complete_eq_ended]
  rfl

/-- Settles O31: `execPtfrom_of_fits`, a byte being in PTFROM's width, and `execPtto_eq_ended`. -/
theorem packetTypeConversionsComplete : Obligations.PacketTypeConversionsComplete :=
  ⟨fun _ s ha => execPtfrom_of_fits (decide_eq_true ha) s, execPtto_eq_ended⟩

/-- A number of at most 8 bits, zero-extended, is a legal operand of PTFROM (rule R68). -/
theorem toNat_setWidth_lt_byte {n : Nat} (hn : n ≤ 8) (x : BitVec n) :
    (x.setWidth 32).toNat < 2 ^ 8 :=
  calc (x.setWidth 32).toNat ≤ x.toNat := by
        rw [BitVec.toNat_setWidth]
        exact Nat.mod_le _ _
    _ < 2 ^ n := x.isLt
    _ ≤ 2 ^ 8 := Nat.pow_le_pow_right (by decide) hn

/-- The low nibble of a zero-extended number is the number's own (rule R97). -/
theorem extractLsb'_setWidth_nibble {n : Nat} (x : BitVec n) :
    (x.setWidth 32).extractLsb' 0 4 = x.extractLsb' 0 4 := by
  ext i hi
  have inWord : i < 32 := by omega
  simp [inWord]

/-- Settles O32: each conversion gives what `packetTypeConversionsComplete` says, and PTFROM does
not see A[7:4] (`maskedOperandBitsAreIgnored`). -/
theorem packetTypeConversionsAreInverse : Obligations.PacketTypeConversionsAreInverse := by
  obtain ⟨ptfrom, ptto⟩ := packetTypeConversionsComplete
  obtain ⟨-, masked⟩ := maskedOperandBitsAreIgnored
  refine fun s => ⟨fun ty => ?_, fun ty => ⟨_, ptto ty s, rfl⟩, fun a => ?_⟩
  · exact ⟨_, ptfrom _ s (toNat_setWidth_lt_byte (by decide) ty),
      congrArg some ((extractLsb'_setWidth_nibble ty).trans BitVec.extractLsb'_eq_self)⟩
  · refine masked _ _ s (toNat_setWidth_lt_byte (by decide) a)
      (toNat_setWidth_lt_byte (by decide) _) ?_
    rw [extractLsb'_setWidth_nibble, extractLsb'_setWidth_nibble, BitVec.extractLsb'_eq_self]

end Sys2Proof.HeaderCommands
end

section
/-!
SUPPORT. Where a run stops for good (rules R106, R107): the step that accepts an illegal command or one
above the domain, and no mark behind a step that answers a next state.
-/
namespace Sys2Proof.Stops

open Sys2Proof.Machine Sys2Proof.Safety Sys2Proof.ErrorValues
open Sys2Proof.Handshake Sys2Proof.Acceptance

/-! ### The step that accepts a command -/

/-- Settles O37: `stepOf_illegal` and `stepOf_beyondDomain`, the host's step being `stepOf`; of every
other command turn and step are one run, by O9. -/
theorem claimsStopAtIllegalCommandsAndAboveTheDomain :
    Obligations.ClaimsStopAtIllegalCommandsAndAboveTheDomain := by
  intro s rest c waiting hm hu hp hid
  refine ⟨fun hl => ?_, fun i hi hw hd => ?_, fun i hi hw hd => ?_⟩
  · exact (step_eq_stepOf s).trans (stepOf_illegal hm hu hp hid hl)
  · exact (step_eq_stepOf s).trans (stepOf_beyondDomain hm hu hp hid hi hw hd)
  · obtain ⟨turn_eq, -, step_eq⟩ :=
      stepAcceptsAndRunsTheDecodedCommand s rest c waiting i hm hu hp hid hi
    exact (step_eq hw hd).trans turn_eq.symm

/-! ### Marks -/

variable {s t : State}

/-- A turn of the host's machine removes no mark. -/
theorem marks_prefix_turn (h : turn exec s = .next t) : s.marks <+: t.marks :=
  turn_marks (fun _ _ _ hr => exec_marks hr ▸ List.prefix_append _ _) h

/-- A step that answers a next state is a turn that adds no mark (rules R106, R107). -/
theorem marks_step (h : step s = .next t) : t.marks = s.marks := by
  obtain ⟨hturn, hnew⟩ := stopAtMarks_eq_next.mp h
  obtain ⟨new, hmarks⟩ := marks_prefix_turn hturn
  have none_new : new = [] := by simpa [← hmarks] using hnew
  rw [← hmarks, none_new, List.append_nil]

/-- Settles O38: marks only grow (`marks_prefix_turn`), and not in a step (`marks_step`). -/
theorem markedRunsStayMarked : Obligations.MarkedRunsStayMarked := by
  refine fun s t => ⟨fun h => ?_, marks_step⟩
  have grown := marks_prefix_turn h
  exact ⟨grown, fun hempty => List.prefix_nil.mp (hempty ▸ grown)⟩

end Sys2Proof.Stops
end

section
/-!
SUPPORT. The outcomes of a command (rules R104, R110): from any state of a BUSY unit, at whatever place
and with whatever pending, a command is still running, stops, or ends within its row of the table.
One lemma a wait and a loop.
-/
namespace Sys2Proof.Outcomes

open Sys2Proof.Machine Sys2Proof.Safety Sys2Proof.ErrorValues Sys2Proof.CommandOutcomes
open Sys2Proof.Places Sys2Proof.Operands

variable {E : Type} {i : Instr} {s : State E} {a : Word} {w : Width}

/-- Settles O8: the codes as rule R104 gives them. -/
theorem statusCodesOfOutcomes : Obligations.StatusCodesOfOutcomes :=
  fun _ => ⟨rfl, rfl, fun _ => rfl, rfl, rfl⟩

/-- A run that answers a next state leaves the unit BUSY or has ended with an outcome that the
command can reach. -/
def KeepsToRow (i : Instr) (r : Result E) : Prop :=
  ∀ t, r = .next t →
    t.ust = .busy ∨ ∃ (u : State E) (e : Ending E), t = u.finish e ∧ reaches i e = true

theorem keepsToRow_busy (hs : s.ust = .busy) : KeepsToRow i (.next s) := by
  rintro t ⟨⟩
  exact .inl hs

theorem keepsToRow_raise {e : Ending E} (he : reaches i e = true) (s : State E) :
    KeepsToRow i (raise e s) := by
  rintro t ⟨⟩
  exact .inr ⟨s, e, rfl, he⟩

theorem keepsToRow_fault (f : Fault) : KeepsToRow i (.fault f : Result E) := by
  rintro t ⟨⟩

/-- Above the domain, from whatever place, a command ends with EncDomain (rule R85). -/
theorem execOf_of_not_inDomain (h : inDomain i = false) (s : State E) :
    execOf i s = raise .encDomain s := by
  cases i with
  | wrvbi a => exact execWrvbi_beyondDomain (Bool.eq_false_iff.mp h) s
  | wrhdr ty b a => exact execWrhdr_beyondDomain (Bool.eq_false_iff.mp h) s
  | rdu8 | rdu16 | rdu32 | rdvbi | rdhdr | ptfrom _ => cases h
  | wru8 _ | wru16 _ | wru32 _ | ptto _ => cases h

/-! ### Legal commands in the domain -/

section Legal

variable (hw : i.wellFormed = true) (hd : inDomain i = true)
include hw hd

theorem keepsToRow_complete (s : State E) : KeepsToRow i (.next s.complete) :=
  keepsToRow_raise (e := .ok) (by simp [reaches, hw, hd]) s

theorem keepsToRow_awaitRead {k : List Byte → State E → Result E} (hi : readsChannel i = true)
    (hs : s.ust = .busy) (hk : ∀ bs c, KeepsToRow i (k bs (s.answered c))) :
    KeepsToRow i (awaitRead s k) := by
  rcases awaitRead_cases s k with ⟨e, -⟩ | ⟨w, -, ⟨r, -, e⟩ | ⟨bs, rest, r, -, -, -, e⟩ |
      ⟨n, r, -, e⟩ | ⟨x, n, r, -, e⟩⟩ <;> rw [e]
  · exact keepsToRow_fault _
  · exact keepsToRow_busy hs
  · exact hk bs _
  · exact keepsToRow_raise (e := .malformed) hi _
  · exact keepsToRow_raise (by simp [reaches, hi, hw, hd]) _

theorem keepsToRow_awaitWrite {k : State E → Result E} (hi : writesChannel i = true)
    (hs : s.ust = .busy) (hk : ∀ c, KeepsToRow i (k (s.answered c))) :
    KeepsToRow i (awaitWrite s k) := by
  rcases awaitWrite_cases s k with ⟨e, -⟩ | ⟨bs, -, ⟨r, -, e⟩ | ⟨r, -, e⟩ | ⟨x, n, r, -, e⟩⟩ <;>
    rw [e]
  · exact keepsToRow_fault _
  · exact keepsToRow_busy hs
  · exact hk _
  · exact keepsToRow_raise (by simp [reaches, hi, hw, hd]) _

theorem keepsToRow_driveDecode (report : State E → State E) (n : Nat) (hi : readsChannel i = true)
    (hs : s.ust = .busy) : KeepsToRow i (driveDecode report n s) := by
  induction n generalizing s with
  | zero => exact keepsToRow_busy hs
  | succ n ih =>
    refine keepsToRow_awaitRead hw hd hi hs fun bs c => ?_
    dsimp only
    split
    · exact keepsToRow_complete hw hd _
    · split
      · exact keepsToRow_raise (e := .malformed) hi _
      · exact ih hs

theorem keepsToRow_driveEncode (n : Nat) (hi : writesChannel i = true) (hs : s.ust = .busy) :
    KeepsToRow i (driveEncode n s) := by
  induction n generalizing s with
  | zero => exact keepsToRow_busy hs
  | succ n ih =>
    refine keepsToRow_awaitWrite hw hd hi hs fun c => ?_
    split
    · exact keepsToRow_complete hw hd _
    · exact ih hs

theorem keepsToRow_driveField (n : Nat) (hi : writesChannel i = true) (hs : s.ust = .busy) :
    KeepsToRow i (driveField n s) := by
  induction n generalizing s with
  | zero => exact keepsToRow_busy hs
  | succ n ih =>
    refine keepsToRow_awaitWrite hw hd hi hs fun c => ?_
    split
    · exact keepsToRow_complete hw hd _
    · exact ih hs
    all_goals exact keepsToRow_fault _

theorem keepsToRow_readField (hi : readsChannel i = true) (hs : s.ust = .busy) :
    KeepsToRow i (readField w s) := by
  have answered : ∀ u : State E, u.ust = .busy → KeepsToRow i (awaitField u) := fun u hu =>
    keepsToRow_awaitRead hw hd hi hu fun _ _ => keepsToRow_complete hw hd _
  unfold readField
  split
  · exact answered _ hs
  · exact answered s hs
  all_goals exact keepsToRow_fault _

theorem keepsToRow_writeField (hi : writesChannel i = true) (hs : s.ust = .busy) :
    KeepsToRow i (writeField w a s) := by
  unfold writeField
  split
  · exact keepsToRow_driveField hw hd 4 hi hs
  · exact keepsToRow_driveField hw hd 4 hi hs
  all_goals exact keepsToRow_fault _

end Legal

theorem keepsToRow_execRdvbi (hs : s.ust = .busy) : KeepsToRow .rdvbi (execRdvbi s) := by
  unfold execRdvbi
  split
  · exact keepsToRow_driveDecode rfl rfl reportValue _ rfl hs
  · exact keepsToRow_driveDecode rfl rfl reportValue _ rfl hs
  all_goals exact keepsToRow_fault _

theorem keepsToRow_execRdhdr (hs : s.ust = .busy) : KeepsToRow .rdhdr (execRdhdr s) := by
  have control : ∀ u : State E, u.ust = .busy → KeepsToRow .rdhdr (awaitControl u) := fun u hu =>
    keepsToRow_awaitRead rfl rfl rfl hu fun _ _ => keepsToRow_driveDecode rfl rfl reportHeader _ rfl hu
  unfold execRdhdr
  split
  · exact control _ hs
  · exact control s hs
  · exact keepsToRow_driveDecode rfl rfl reportHeader _ rfl hs
  · exact keepsToRow_fault _

theorem keepsToRow_execWrvbi (hd : inDomain (.wrvbi a) = true) (hs : s.ust = .busy) :
    KeepsToRow (.wrvbi a) (execWrvbi a s) := by
  simp only [execWrvbi, not_beyondDomain hd, Bool.false_eq_true, if_false]
  split
  · exact keepsToRow_driveEncode rfl hd _ rfl hs
  · exact keepsToRow_driveEncode rfl hd _ rfl hs
  all_goals exact keepsToRow_fault _

theorem keepsToRow_execWrhdr {ty : Nibble} {b : Byte} (hd : inDomain (.wrhdr ty b a) = true)
    (hs : s.ust = .busy) : KeepsToRow (.wrhdr ty b a) (execWrhdr ty b a s) := by
  have sent : ∀ u : State E, u.ust = .busy → KeepsToRow (.wrhdr ty b a) (awaitControlSent a u) :=
    fun u hu => keepsToRow_awaitWrite rfl hd rfl hu fun _ => keepsToRow_driveEncode rfl hd _ rfl hu
  simp only [execWrhdr, not_beyondDomain hd, Bool.false_eq_true, if_false]
  split
  · exact sent _ hs
  · exact sent s hs
  · exact keepsToRow_driveEncode rfl hd _ rfl hs
  · exact keepsToRow_fault _

theorem keepsToRow_writeOf (hw : (writeOf w a).wellFormed = true) (hs : s.ust = .busy) :
    KeepsToRow (writeOf w a) (execOf (writeOf w a) s) := by
  rw [execOf_writeOf_of_wellFormed hw]
  exact keepsToRow_writeField hw (by cases w <;> rfl) (by cases w <;> rfl) hs

/-- A legal command in the domain, from any state of a BUSY unit. -/
theorem keepsToRow_of_legal (hw : i.wellFormed = true) (hd : inDomain i = true)
    (hs : s.ust = .busy) : KeepsToRow i (execOf i s) := by
  cases i with
  | rdu8 | rdu16 | rdu32 => exact keepsToRow_readField hw hd rfl hs
  | rdvbi => exact keepsToRow_execRdvbi hs
  | rdhdr => exact keepsToRow_execRdhdr hs
  | ptfrom a =>
    have hf : fits 8 a = true := hw
    rw [execOf, execPtfrom, if_pos hf]
    exact keepsToRow_complete hw hd _
  | wru8 a => exact keepsToRow_writeOf (w := .u8) hw hs
  | wru16 a => exact keepsToRow_writeOf (w := .u16) hw hs
  | wru32 a => exact keepsToRow_writeOf (w := .u32) hw hs
  | wrvbi a => exact keepsToRow_execWrvbi hd hs
  | wrhdr ty b a => exact keepsToRow_execWrhdr hd hs
  | ptto ty => exact keepsToRow_complete hw hd _

/-! ### Every command -/

/-- A command ends with IllegalCommand out of width, with EncDomain above the domain, and otherwise
as its meaning says, always within its row of rule R110. -/
theorem keepsToRow_execOf (i : Instr) (hs : s.ust = .busy) : KeepsToRow i (execOf i s) := by
  cases hw : i.wellFormed with
  | false =>
    rw [execOf_of_not_wellFormed hw]
    exact keepsToRow_raise (by simp [reaches, hw]) s
  | true =>
    cases hd : inDomain i with
    | false =>
      rw [execOf_of_not_inDomain hd]
      exact keepsToRow_raise (by simp [reaches, hd]) s
    | true => exact keepsToRow_of_legal hw hd hs

/-- Settles O39: an IDLE unit is not BUSY, so its command has ended (`keepsToRow_execOf`), by
`State.finish`. -/
theorem commandsReachOnlyTheirOutcomes : Obligations.CommandsReachOnlyTheirOutcomes := by
  intro i s t hs h hidle
  have not_busy : t.ust ≠ .busy := by simp [hidle]
  obtain ⟨u, e, rfl, he⟩ := (keepsToRow_execOf i hs t (exec_eq_execOf ▸ h)).resolve_left not_busy
  exact ⟨e, he, rfl, rfl⟩

end Sys2Proof.Outcomes
end

section
/-!
SUPPORT. What an IDLE unit does where it accepts nothing (rules R123, R124), and that a system whose
units share a channel is refused (rule R127).
-/
namespace Sys2Proof.IdleAndShared

open Sys2Proof.Machine Sys2Proof.Safety Sys2Proof.Handshake

variable {E : Type} {s : State} {rest : List CallerAct} {c : Command} {waiting : List Command}

/-! ### An IDLE unit -/

theorem step_waits (hu : s.ust = .idle) (hp : s.port = []) (ha : s.agenda = []) :
    step s = .next s := by
  have hturn : turn exec s = .next s := by
    rw [turn, ha]
    exact unitTurn_waits exec hu hp
  rw [step, hturn]
  exact stopAtMarks_next rfl

/-- Settles O14: `step_waits`. -/
theorem idleUnitWaitsForACommand : Obligations.IdleUnitWaitsForACommand :=
  fun _ => step_waits

theorem step_unbound (hm : UnitMoves s rest) (hu : s.ust = .idle) (hp : s.port = c :: waiting)
    (hid : s.chan.id = none) : step s = .refused .noChannel := by
  rw [step_of_unitMoves hm, unitTurn_unbound (s := { s with agenda := rest }) exec hu hp hid,
    stopAtMarks_refused]

/-- Settles O15: `step_unbound`. -/
theorem unboundUnitRefusesCommands : Obligations.UnboundUnitRefusesCommands :=
  fun _ _ _ _ => step_unbound

/-! ### Units that share a channel -/

variable {numUnits : Nat} {sys : System E numUnits}

/-- The bound channels of a system are apart when no earlier unit is bound to a later one's. -/
theorem channelsApart_iff : sys.channelsApart = true ↔
    ∀ j k (hj : j < numUnits) (hk : k < numUnits), j < k →
      ∀ c, sys.units[j].chan.id = some c → sys.units[k].chan.id ≠ some c := by
  rw [System.channelsApart, decide_eq_true_iff, List.Nodup, List.pairwise_filterMap,
    List.pairwise_iff_getElem]
  simp only [Vector.length_toList, Vector.getElem_toList]
  refine forall₅_congr fun j k hj hk hjk => ⟨fun h c hc hc' => h c hc c hc' rfl, ?_⟩
  rintro h c hc _ hc' rfl
  exact h c hc hc'

/-- Two units bound to one channel keep the channels from being apart, whichever of them stands
first. -/
theorem channelsApart_of_shared {j k c : Nat} {u v : State E} (hjk : j ≠ k)
    (hu : sys.units[j]? = some u) (hv : sys.units[k]? = some v) (hcu : u.chan.id = some c)
    (hcv : v.chan.id = some c) : sys.channelsApart = false := by
  obtain ⟨hj, rfl⟩ := Vector.getElem?_eq_some_iff.mp hu
  obtain ⟨hk, rfl⟩ := Vector.getElem?_eq_some_iff.mp hv
  refine Bool.eq_false_iff.mpr fun apart => ?_
  rcases Nat.lt_or_gt_of_ne hjk with hlt | hlt
  · exact channelsApart_iff.mp apart j k hj hk hlt c hcu hcv
  · exact channelsApart_iff.mp apart k j hk hj hlt c hcv hcu

/-- Whichever unit is given the turn, channels that are not apart are refused. -/
theorem step_of_not_channelsApart (h : sys.channelsApart = false) (n : Nat) :
    sys.step n = .refused .sharedChannel := by
  simp [System.step, h]

/-- Settles O53: `channelsApart_of_shared`, and the step's refusal. -/
theorem sharedChannelsAreRefused : Obligations.SharedChannelsAreRefused :=
  fun _ _ _ _ _ n _ _ _ hjk hu hv hcu hcv =>
    step_of_not_channelsApart (channelsApart_of_shared hjk hu hv hcu hcv) n

end Sys2Proof.IdleAndShared
end
